-- ==== Sys2Proof/Word.lean ====
section
/-! DEFINITION. The word types of PROTO-CORE (10_state R46, 30_encoding R87). -/

namespace Sys2Proof

/-- A byte, `u8` of R10: the unit of every access (R60). -/
abbrev Byte := BitVec 8

/-- `u32` of R10: times, durations, offsets and `rsp_val`. -/
abbrev U32 := BitVec 32

/-- The command word `W` of R87. -/
abbrev CmdWord := BitVec 48

end Sys2Proof
end

