-- ==== Sys2Proof/Config.lean ====
section
/-! DEFINITION. The constants of R6 and the static configuration of R6 to R9. -/

namespace Sys2Proof

/-! ### Constants the source fixes (R6) -/

/-- `HDR_LEN`: magic, command, length. -/
abbrev hdrLen : Nat := 3
/-- `CKS_LEN`. -/
abbrev cksLen : Nat := 1
/-- `MIN_FRAME = HDR_LEN + CKS_LEN` (conflict C3). -/
abbrev minFrame : Nat := 4
/-- `MAX_PAYLOAD`: the largest `maxLength` a whitelist entry may have. -/
abbrev maxPayload : Nat := 32
/-- `FRAME_MAX = HDR_LEN + MAX_PAYLOAD + CKS_LEN`. -/
abbrev frameMax : Nat := 36
/-- `CKS_SEED`. -/
abbrev cksSeed : Byte := 0xAA#8
/-- `T_INTEGRITY`, in ticks of `now`. -/
abbrev tIntegrity : U32 := 100#32
/-- `T_ACKWIN`, in ticks of `now`. -/
abbrev tAckWin : U32 := 1000#32
/-- `RETRY_CEIL`: transmissions per message (conflict C1). -/
abbrev retryCeil : Byte := 3#8
/-- `NAK_LIMIT`: NAK requests at which emission stops (conflict C12). -/
abbrev nakLimit : Byte := 3#8
/-- `TX_LEN_MAX`. -/
abbrev txLenMax : Nat := 255
/-- `MAGIC_RX`: the magic byte of received frames (R16). -/
abbrev magicRx : Byte := 0x02#8
/-- `CMD_ACK` (R84). -/
abbrev cmdAck : Byte := 0x50#8

/-- One whitelist entry `(command, minLength, maxLength)` of R8. -/
structure WlEntry where
  cmd : Byte
  lo  : Nat
  hi  : Nat
deriving DecidableEq, Repr

/-- The configuration: the two tunable parameters of R6 and the open ones of R7. R45 (a): it is no
state of the block; it is fixed before reset and no operation changes it (R74, R304). -/
structure Config where
  /-- `N_SLOTS`, slots per store. -/
  nSlots      : Nat
  /-- `SLOT_CAP`, bytes per slot buffer. -/
  slotCap     : Nat
  /-- `RING_CAP`, bytes of the ring. -/
  ringCap     : Nat
  /-- `MAGIC_TX`. -/
  magicTx     : Byte
  /-- `CMD_NAK`. -/
  cmdNak      : Byte
  /-- `WL_RX`. -/
  wlRx        : List WlEntry
  /-- `WL_TX`. -/
  wlTx        : List WlEntry
  /-- `T_TXDEADLINE`. -/
  tTxDeadline : U32
deriving DecidableEq, Repr

/-- `REFCFG` of R9. DESIGN CHOICE (log entry 2), unsafe where a claim leans on its numbers: the spec
calls these values its own choice for test vectors. -/
def Config.ref : Config where
  nSlots := 5
  slotCap := 40
  ringCap := 64
  magicTx := 0x01#8
  cmdNak := 0x51#8
  wlRx := [⟨0x50#8, 0, 0⟩, ⟨0x51#8, 0, 0⟩, ⟨0x60#8, 1, 1⟩, ⟨0x61#8, 0, 32⟩]
  wlTx := [⟨0x70#8, 1, 1⟩, ⟨0x71#8, 0, 32⟩]
  tTxDeadline := 1000#32

/-- What a byte of `rxb.mem` or of a `slot.buf` that nothing has written reads as. DESIGN CHOICE
(log entry 9), unsafe: R22 and R33 leave the contents after reset unspecified, and say that no rule
can observe them. -/
def unwrittenByte : Byte := 0#8

end Sys2Proof
end

