-- ==== Sys2Proof/Syntax.lean ====
section
/-! DEFINITION. The operations of PROTO-CORE: one constructor per row of `spec/opcode_table.json`, and
what a port of the block can be offered (R64, R87, R98). -/

namespace Sys2Proof

/-- The store selector of R63: 0 is `IN`, 1 is `OUT`. -/
inductive StoreSel where
  | inb
  | outb
deriving DecidableEq, Repr

/-- `SSEL` of R92: a store and a 7-bit slot index. -/
structure SSel where
  store : StoreSel
  idx   : BitVec 7
deriving DecidableEq, Repr

/-- `TSEL` of R92: the integrity timer, or the deadline timer of a slot. -/
inductive TSel where
  | itmr
  | slot (sel : SSel)
deriving DecidableEq, Repr

/-- The field numbers of `TMR_READ` (R97). -/
inductive TmrField where
  | start
  | dur
  | target
  | active
deriving DecidableEq, Repr

/-- The field numbers of `MS_READ_INFO` (R97). -/
inductive SlotField where
  | len
  | rank
  | valid
  | txc
deriving DecidableEq, Repr

/-- The field numbers of `NAK_READ` (R97). -/
inductive NakField where
  | cnt
  | many
deriving DecidableEq, Repr

/-- The 44 command opcodes of R90 and the RX byte event of R98. `data` is the payload of R88, its
length the operand `n` or `len`. -/
inductive Instr where
  | engParse
  | engTransmit (cmd : Byte) (data : List Byte)
  | engCountTimeouts
  | engHandleTimeouts
  | engGetNewestRx
  | engDeleteRx (i : BitVec 7)
  | engResetAll
  | engRxLen (i : BitVec 7)
  | engRxByte (i : BitVec 7) (off : U32)
  | rxbPush (b : Byte)
  | rxbPop
  | rxbPeek (off : U32)
  | rxbCount
  | rxbClear
  | rxbOvf
  | cksCompute (data : List Byte)
  | cksVerify (data : List Byte)
  | tmrStart (t : TSel) (d : U32)
  | tmrStop (t : TSel)
  | tmrRestart (t : TSel)
  | tmrTimedout (t : TSel)
  | tmrRead (t : TSel) (f : TmrField)
  | msGetFree (st : StoreSel)
  | msAppend (sel : SSel) (b : Byte)
  | msValidate (sel : SSel) (t : U32)
  | msMarkRetx (sel : SSel) (t : U32)
  | msDelete (sel : SSel)
  | msGetOldest (st : StoreSel)
  | msGetNewest (st : StoreSel)
  | msCountTimedout (st : StoreSel)
  | msOldestTimedout (st : StoreSel)
  | msIncTx (sel : SSel)
  | msResetDeadline (sel : SSel)
  | msReadByte (sel : SSel) (off : U32)
  | msReadInfo (sel : SSel) (f : SlotField)
  | msDiscard (sel : SSel)
  | msClearAll (st : StoreSel)
  | fpParse (d : BitVec 7)
  | fpReset
  | fpRead
  | nakRequest
  | nakResetCounter
  | nakResetState
  | nakRead (f : NakField)
  | rxByte (b : Byte)
deriving DecidableEq, Repr

/-- What one of the two input ports is offered: a command word with the payload bytes that follow it
(R87, R88), or a received byte (R98). -/
inductive Offer where
  | command (word : CmdWord) (payload : List Byte)
  | rxByte (b : Byte)
deriving DecidableEq, Repr

end Sys2Proof
end

