-- ==== Sys2Proof/Machine/State.lean ====
section
/-! DEFINITION. The state of PROTO-CORE (10_state.md), the reasons a step stops, and the reset state
(R301). -/

namespace Sys2Proof.Machine

/-- A byte array of the block (`rxb.mem` of R22, a `slot.buf` of R33) as a sparse list of cells in one
canonical form: addresses strictly rising, no entry equal to `unwrittenByte`. -/
abbrev Memory := List Host.Cell

/-- A SoftwareTimer record (R27). -/
structure Timer where
  start  : U32
  dur    : U32
  target : U32
  active : Bool
deriving DecidableEq, Repr

/-- The reset value of every timer (R27). -/
def Timer.reset : Timer := ⟨0#32, 0#32, 0#32, false⟩

/-- The ReceiveBuffer with its ByteRing (R22 to R26). -/
structure RxBuffer where
  /-- `rxb.mem` -/
  mem : Memory
  /-- `rxb.rd`, the index of the oldest byte -/
  rd  : Nat
  /-- `rxb.cnt`, the occupancy -/
  cnt : Nat
  /-- `rxb.ovf`, the overflow latch -/
  ovf : Bool
deriving DecidableEq, Repr

/-- The FrameParser's state (R30, R31). -/
structure FrameParser where
  /-- `fp.fail`, the failure latch -/
  fail : Bool
  /-- `fp.itmr`, the integrity timer -/
  itmr : Timer
deriving DecidableEq, Repr

/-- A message slot (R33 to R38). -/
structure Slot where
  buf   : Memory
  len   : BitVec 8
  rank  : BitVec 8
  valid : Bool
  txc   : BitVec 8
  tmr   : Timer
deriving DecidableEq, Repr

/-- The reset value of every slot (R33 to R38, R301). -/
def Slot.reset : Slot := ⟨[], 0#8, 0#8, false, 0#8, Timer.reset⟩

/-- A MessageSlotStore: it has no state besides its slots (R32). -/
abbrev Store := List Slot

/-- The NAKEscalation guard (R40, R41). -/
structure NakGuard where
  cnt  : BitVec 8
  many : Bool
deriving DecidableEq, Repr

/-- The ProtocolEngine's one bit (R42, R43). -/
structure Engine where
  /-- `eng.rx_en`, the level of the reception-enable output -/
  rxEn : Bool
deriving DecidableEq, Repr

/-- A command's response (R89). -/
structure Response where
  /-- `rsp_status` -/
  status : BitVec 8
  /-- `rsp_val` -/
  val    : U32
deriving DecidableEq, Repr

/-- An output event (R66, R75). -/
inductive OutEvent where
  | tx (bytes : List Byte)
  | rxStop
  | rxStart
deriving DecidableEq, Repr

/-- A transaction as the environment offers it (R64). `now` is the sampled time (R65); `txAnswer` is what
the transport will answer to a burst, at most the burst's length (R66); an RX byte event sends nothing,
so its `txAnswer` is never read. -/
inductive Transaction where
  | offer (now : U32) (txAnswer : Nat) (o : Offer)
  | hardwareReset
deriving DecidableEq, Repr

/-- The outcomes of the parser (R191). -/
inductive ParserOutcome where
  | ok
  | tooFew
  | reqNak
  | byteDropped
  | timeout
deriving DecidableEq, Repr

/-- The engine outcomes of `ENG_PARSE` and `ENG_HANDLE_TIMEOUTS` (R13, R273). -/
inductive EngineOutcome where
  | nothing
  | nakSent
  | newMessage
  | critical
deriving DecidableEq, Repr

/-- The response statuses of R89. -/
inductive Status where
  | ok
  | fail
  | illegal
deriving DecidableEq, Repr

/-- The reasons the model stops with a fault, each a model-level error of 93_implementation_defined.md. The
block itself has none: R270 makes every abnormal condition a returned value. -/
inductive Fault where
  /-- Raised by every operation on a state whose configuration breaks R7 or R8: the spec gives such a
  block no behaviour (I3, R270). Safe: nothing is claimed of a machine that does not exist. -/
  | illFormedConfiguration
  /-- Raised by the operations that bump ranks, where a bump would meet a valid slot already at rank 255:
  the hardware saturates there and order is lost, and R173 and I7 ask a model to stop instead (log entry
  10). Safe: nothing is claimed of a machine that goes on. -/
  | rankSaturation
deriving DecidableEq, Repr

/-- The reasons the model refuses a step. -/
inductive Refusal where
  /-- An instruction that has no meaning yet; no arm of `exec` answers with it. Safe. -/
  | notModelled (mnemonic : String)
  /-- Raised by `step` on a command transaction that does not carry exactly the payload bytes its word
  calls for: R88 defines no such transaction. Safe. -/
  | payloadLength (want have_ : Nat)
deriving DecidableEq, Repr

/-- The state. The fields up to `eng` are the block's (10_state.md); `cfg` is its static configuration
(R45 a); the last five are the model's own, the inputs and outputs of the current transaction and the
transactions still to come (R45 b to d, R89; log entries 1 and 4 to 8). -/
structure State where
  /-- The configuration; no step changes it. -/
  cfg      : Config
  /-- `rxb` -/
  rxb      : RxBuffer
  /-- `fp` -/
  fp       : FrameParser
  /-- `st[IN]` -/
  inb      : Store
  /-- `st[OUT]` -/
  outb     : Store
  /-- `nak` -/
  nak      : NakGuard
  /-- `eng` -/
  eng      : Engine
  /-- The time sampled by the current transaction. -/
  now      : U32
  /-- The transport's answer to the current transaction's burst. -/
  txAnswer : Nat
  /-- The last transaction's response; none for an RX byte event or a hardware reset. -/
  rsp      : Option Response
  /-- The last transaction's output trace. -/
  trace    : List OutEvent
  /-- What the environment offers next, first first. -/
  pending  : List Transaction
deriving DecidableEq, Repr

/-- The reset state of a block built with configuration `c` (R301); the environment's transactions `p`
are not the block's and stay as they are. -/
def State.resetOf (c : Config) (p : List Transaction) : State where
  cfg := c
  rxb := ⟨[], 0, 0, false⟩
  fp := ⟨false, Timer.reset⟩
  inb := List.replicate c.nSlots Slot.reset
  outb := List.replicate c.nSlots Slot.reset
  nak := ⟨0#8, false⟩
  eng := ⟨false⟩
  now := 0#32
  txAnswer := 0
  rsp := none
  trace := []
  pending := p

/-- The machine right after hardware reset (R300, R301), built with `REFCFG` (log entry 2), nothing
offered yet (log entry 5). -/
def State.reset : State := State.resetOf Config.ref []

end Sys2Proof.Machine
end

