-- ==== Sys2Proof/Machine/Flags.lean ====
section
/-! DEFINITION. The counters and flags of R44 and R255: how each is computed. -/

namespace Sys2Proof.Machine

/-- `sat8(v + 1)`: the increment of `rank`, `txc` and `nak.cnt`, staying at 255 (R10, R159, R169, R220). -/
def sat8Inc (v : BitVec 8) : BitVec 8 := if v = 255#8 then 255#8 else v + 1#8

/-- `rxb.ovf` after a push: set on a rejected byte, otherwise as it was (R115). -/
def ovfAfterPush (accepted ovf : Bool) : Bool := !accepted || ovf

/-- The failure latch and the outcome where parser step 1 or 3 discards the ring (R193, R195). -/
def latchOnDiscard (fail : Bool) : Bool × ParserOutcome :=
  if fail then (false, .timeout) else (true, .reqNak)

/-- The failure latch and the outcome of `DROP` (R201). -/
def latchOnDrop (fail : Bool) : Bool × ParserOutcome :=
  if fail then (true, .byteDropped) else (true, .reqNak)

/-- `tmr_timedout`: false while inactive, otherwise false exactly on the closed arc from `start` to
`target` (R143). -/
def Timer.timedOut (t : Timer) (now : U32) : Bool :=
  t.active && !decide (now - t.start ≤ t.target - t.start)

/-- The guard trips: the incremented counter has reached `NAK_LIMIT` (R220). -/
def nakTrips (cnt : BitVec 8) : Bool := decide (nakLimit ≤ cnt)

/-- The retries of a message are used up (R244). -/
def retriesUsedUp (txc : BitVec 8) : Bool := decide (retryCeil ≤ txc)

end Sys2Proof.Machine
end

