-- ==== Sys2Proof/Machine/Operands.lean ====
section
/-! DEFINITION. Operand forms: selectors, field numbers, whitelist lookup, and the codes a response
carries (R63, R89, R92, R95 to R97). -/

namespace Sys2Proof.Machine

/-! ### Response codes (R89, R96) -/

/-- `rsp_status`. -/
def Status.code : Status → BitVec 8
  | .ok => 0x00#8
  | .fail => 0x01#8
  | .illegal => 0xFF#8

/-- Parser outcome codes (R191). -/
def ParserOutcome.code : ParserOutcome → U32
  | .ok => 0#32
  | .tooFew => 1#32
  | .reqNak => 2#32
  | .byteDropped => 3#32
  | .timeout => 4#32

/-- Engine outcome codes (R96). -/
def EngineOutcome.code : EngineOutcome → U32
  | .nothing => 0#32
  | .nakSent => 1#32
  | .newMessage => 2#32
  | .critical => 3#32

/-- `rsp_val` of `NONE` (R96). -/
def noneCode : U32 := 0xFF#32

/-- Booleans are 0 and 1 (R96). -/
def boolCode (b : Bool) : U32 := if b then 1#32 else 0#32

/-- A byte, zero-extended (R258). -/
def byteCode (b : Byte) : U32 := b.setWidth 32

/-- A count or an index in `rsp_val`. -/
def natCode (n : Nat) : U32 := BitVec.ofNat 32 n

/-! ### Selectors (R63, R95) -/

/-- A slot index is legal below `N_SLOTS` (R95). -/
def idxLegal (c : Config) (i : BitVec 7) : Bool := decide (i.toNat < c.nSlots)

/-- A timer selector is legal when it is the integrity timer's or names a legal slot (R95). -/
def tselLegal (c : Config) : TSel → Bool
  | .itmr => true
  | .slot sel => idxLegal c sel.idx

/-- `st[S]`. -/
def State.store (s : State) : StoreSel → Store
  | .inb => s.inb
  | .outb => s.outb

/-- Replace `st[S]`. -/
def State.setStore (s : State) (st : StoreSel) (v : Store) : State :=
  match st with
  | .inb => { s with inb := v }
  | .outb => { s with outb := v }

/-- Slot `i` of a store (an index the store does not have reads as a reset slot; log entry 14). -/
def slotAt (v : Store) (i : Nat) : Slot := v.getD i Slot.reset

/-- The slot an `SSEL` names. -/
def State.slot (s : State) (sel : SSel) : Slot := slotAt (s.store sel.store) sel.idx.toNat

/-- Change the slot an `SSEL` names. -/
def State.mapSlot (s : State) (sel : SSel) (f : Slot → Slot) : State :=
  s.setStore sel.store ((s.store sel.store).modify sel.idx.toNat f)

/-- The timer a `TSEL` names. -/
def State.timer (s : State) : TSel → Timer
  | .itmr => s.fp.itmr
  | .slot sel => (s.slot sel).tmr

/-- Change the timer a `TSEL` names. -/
def State.mapTimer (s : State) (t : TSel) (f : Timer → Timer) : State :=
  match t with
  | .itmr => { s with fp := { s.fp with itmr := f s.fp.itmr } }
  | .slot sel => s.mapSlot sel fun sl => { sl with tmr := f sl.tmr }

/-! ### Field numbers (R97) -/

/-- `TMR_READ`'s field, zero-extended (R144). -/
def Timer.field (t : Timer) : TmrField → U32
  | .start => t.start
  | .dur => t.dur
  | .target => t.target
  | .active => boolCode t.active

/-- `MS_READ_INFO`'s field, zero-extended (R172). -/
def Slot.field (sl : Slot) : SlotField → U32
  | .len => byteCode sl.len
  | .rank => byteCode sl.rank
  | .valid => boolCode sl.valid
  | .txc => byteCode sl.txc

/-- `NAK_READ`'s field, zero-extended (R224). -/
def NakGuard.field (n : NakGuard) : NakField → U32
  | .cnt => byteCode n.cnt
  | .many => boolCode n.many

/-! ### Whitelists (R8) -/

/-- `wl_ok(WL, c, l)`: some entry has the command and a range that holds the length (R8). -/
def wlOk (wl : List WlEntry) (c : Byte) (l : Nat) : Bool :=
  wl.any fun e => e.cmd == c && decide (e.lo ≤ l) && decide (l ≤ e.hi)

/-- A received header is legal (R85, R197). -/
def headerOk (cfg : Config) (m c l : Byte) : Bool := m == magicRx && wlOk cfg.wlRx c l.toNat

end Sys2Proof.Machine
end

