-- ==== Sys2Proof/WellFormed.lean ====
section
/-! DEFINITION. Which instruction terms have an encoding, and which configurations the block may be
built with (R7, R8, I3). -/

namespace Sys2Proof

/-- A payload's length fits the 16 bits of `b[15:0]` (R88). -/
def payloadFits (data : List Byte) : Bool := data.length < 65536

/-- `SSEL` 0x7F is not a timer selector's slot: as `TSEL` it names the integrity timer (R92). -/
def TSel.wf : TSel → Bool
  | .itmr => true
  | .slot sel => !(sel.store == .inb && sel.idx == 127#7)

/-- The instruction has an encoding (R87 to R92). Every other operand field of `Instr` is exactly as
wide as its bits in the word. -/
def Instr.wf : Instr → Bool
  | .engTransmit _ data => payloadFits data
  | .cksCompute data => payloadFits data
  | .cksVerify data => payloadFits data
  | .tmrStart t _ => t.wf
  | .tmrStop t => t.wf
  | .tmrRestart t => t.wf
  | .tmrTimedout t => t.wf
  | .tmrRead t _ => t.wf
  | .engParse | .engCountTimeouts | .engHandleTimeouts | .engGetNewestRx | .engDeleteRx _
  | .engResetAll | .engRxLen _ | .engRxByte _ _ | .rxbPush _ | .rxbPop | .rxbPeek _ | .rxbCount
  | .rxbClear | .rxbOvf | .msGetFree _ | .msAppend _ _ | .msValidate _ _ | .msMarkRetx _ _
  | .msDelete _ | .msGetOldest _ | .msGetNewest _ | .msCountTimedout _ | .msOldestTimedout _
  | .msIncTx _ | .msResetDeadline _ | .msReadByte _ _ | .msReadInfo _ _ | .msDiscard _
  | .msClearAll _ | .fpParse _ | .fpReset | .fpRead | .nakRequest | .nakResetCounter
  | .nakResetState | .nakRead _ | .rxByte _ => true

/-! ### Well-formed configurations (R7, R8) -/

/-- R7: `FRAME_MAX <= RING_CAP <= 65535`. -/
def Config.ringOk (c : Config) : Bool := frameMax ≤ c.ringCap && c.ringCap ≤ 65535
/-- R7: `MAGIC_TX != MAGIC_RX`. -/
def Config.magicOk (c : Config) : Bool := c.magicTx != magicRx
/-- R7: `CMD_NAK != CMD_ACK`. -/
def Config.nakOk (c : Config) : Bool := c.cmdNak != cmdAck
/-- R8 (a): `minLength <= maxLength <= MAX_PAYLOAD` in every entry of either whitelist. -/
def Config.rangesOk (c : Config) : Bool :=
  (c.wlRx ++ c.wlTx).all fun e => e.lo ≤ e.hi && e.hi ≤ maxPayload
/-- R8 (b): no command byte in two entries of one whitelist. -/
def Config.uniqueOk (c : Config) : Bool :=
  decide ((c.wlRx.map (·.cmd)).Nodup) && decide ((c.wlTx.map (·.cmd)).Nodup)
/-- R8 (c): `WL_RX` holds `(CMD_ACK, 0, 0)` and `(CMD_NAK, 0, 0)`. -/
def Config.metaRxOk (c : Config) : Bool :=
  c.wlRx.contains ⟨cmdAck, 0, 0⟩ && c.wlRx.contains ⟨c.cmdNak, 0, 0⟩
/-- R8 (d): `WL_TX` holds neither `CMD_ACK` nor `CMD_NAK`. -/
def Config.metaTxOk (c : Config) : Bool :=
  c.wlTx.all fun e => e.cmd != cmdAck && e.cmd != c.cmdNak
/-- R8 (e): `MIN_FRAME + m <= SLOT_CAP <= 255` for every `maxLength` `m`. -/
def Config.slotCapOk (c : Config) : Bool :=
  (c.wlRx ++ c.wlTx).all (fun e => minFrame + e.hi ≤ c.slotCap) && c.slotCap ≤ 255
/-- R8 (f): `1 <= N_SLOTS <= 127`. -/
def Config.nSlotsOk (c : Config) : Bool := 1 ≤ c.nSlots && c.nSlots ≤ 127

/-- A well-formed configuration: all of R7's constraints and R8 (a) to (f). -/
def Config.wf (c : Config) : Bool :=
  c.ringOk && c.magicOk && c.nakOk && c.rangesOk && c.uniqueOk && c.metaRxOk && c.metaTxOk &&
    c.slotCapOk && c.nSlotsOk

end Sys2Proof
end

