-- ==== Sys2Proof/Machine/Ops.lean ====
section
/-! DEFINITION. The named operations of the leaf components, on their own records, and the shape every
transaction shares: memory, ByteRing, ReceiveBuffer, checksum, SoftwareTimer, MessageSlotStore,
NAKEscalation, transmit and hooks, response, the ILLEGAL response. -/

namespace Sys2Proof.Machine

/-! ### Byte arrays -/

/-- The byte at an address. -/
def Memory.read : Memory → Nat → Byte
  | [], _ => unwrittenByte
  | (k, v) :: m, a => if a = k then v else Memory.read m a

/-- Store a byte, keeping the canonical form. -/
def Memory.write : Memory → Nat → Byte → Memory
  | [], a, b => if b = unwrittenByte then [] else [(a, b)]
  | (k, v) :: m, a, b =>
    if a < k then (if b = unwrittenByte then (k, v) :: m else (a, b) :: (k, v) :: m)
    else if a = k then (if b = unwrittenByte then m else (a, b) :: m)
    else (k, v) :: Memory.write m a b

/-- The canonical form: addresses strictly rising, no entry equal to what an unlisted address reads as. -/
abbrev Memory.wf (m : Memory) : Prop :=
  m.Pairwise (fun x y => x.1 < y.1) ∧ ∀ c ∈ m, c.2 ≠ unwrittenByte

/-- `buf[0 .. n-1]`. -/
def Memory.bytes (m : Memory) (n : Nat) : List Byte := (List.range n).map m.read

/-! ### ByteRing (R110 to R114), `cap` being `RING_CAP` -/

/-- The physical index of logical offset `off` (R61). -/
def ringIndex (cap : Nat) (r : RxBuffer) (off : Nat) : Nat := (r.rd + off) % cap

/-- The byte at logical offset `off`, in range or not. -/
def ringByte (cap : Nat) (r : RxBuffer) (off : Nat) : Byte := r.mem.read (ringIndex cap r off)

/-- `Q(rxb)`, oldest byte first (R12, R25). -/
def contents (cap : Nat) (r : RxBuffer) : List Byte := (List.range r.cnt).map (ringByte cap r)

/-- `ring_push(b)` (R110); the Boolean is false for `FAIL`. -/
def ringPush (cap : Nat) (b : Byte) (r : RxBuffer) : Bool × RxBuffer :=
  if r.cnt = cap then (false, r)
  else (true, { r with mem := r.mem.write (ringIndex cap r r.cnt) b, cnt := r.cnt + 1 })

/-- `ring_pop()` (R111); `none` for `FAIL`. -/
def ringPop (cap : Nat) (r : RxBuffer) : Option Byte × RxBuffer :=
  if r.cnt = 0 then (none, r)
  else (some (r.mem.read r.rd), { r with rd := (r.rd + 1) % cap, cnt := r.cnt - 1 })

/-- `ring_peek(off)` (R112); `none` for `FAIL`. -/
def ringPeek (cap off : Nat) (r : RxBuffer) : Option Byte :=
  if r.cnt ≤ off then none else some (ringByte cap r off)

/-- `ring_clear()` (R113). -/
def ringClear (r : RxBuffer) : RxBuffer := { r with cnt := 0, rd := 0 }

/-- `ring_count()` (R114). -/
def ringCount (r : RxBuffer) : Nat := r.cnt

/-! ### ReceiveBuffer (R115 to R120) -/

/-- `rxb_push(b)` (R115). -/
def rxbPush (cap : Nat) (b : Byte) (r : RxBuffer) : Bool × RxBuffer :=
  ((ringPush cap b r).1,
    { (ringPush cap b r).2 with ovf := ovfAfterPush (ringPush cap b r).1 r.ovf })

/-- `rxb_pop()` (R116). -/
def rxbPop (cap : Nat) (r : RxBuffer) : Option Byte × RxBuffer := ringPop cap r

/-- `n` calls of `rxb_pop()`, their bytes dropped. -/
def rxbPopN (cap : Nat) : Nat → RxBuffer → RxBuffer
  | 0, r => r
  | n + 1, r => rxbPopN cap n (rxbPop cap r).2

/-- `rxb_peek(off)` (R117). -/
def rxbPeek (cap off : Nat) (r : RxBuffer) : Option Byte := ringPeek cap off r

/-- `rxb_clear()` (R119). -/
def rxbClear (r : RxBuffer) : RxBuffer := { ringClear r with ovf := false }

/-! ### ChecksumXOR (R130 to R132) -/

/-- `fold(s)` (R130). -/
def fold (s : List Byte) : Byte := s.foldl (· ^^^ ·) cksSeed

/-- `cks_verify(s)` (R132). -/
def cksVerify (s : List Byte) : Bool := fold s == 0#8

/-- A zero-length frame the engine sends (R84), its checksum by R82. -/
def metaFrame (cfg : Config) (cmd : Byte) : List Byte :=
  [cfg.magicTx, cmd, 0x00#8, fold [cfg.magicTx, cmd, 0x00#8]]

/-! ### SoftwareTimer (R140 to R142) -/

/-- `tmr_start(T, now, d)` (R140). -/
def tmrStart (now d : U32) (_ : Timer) : Timer := ⟨now, d, now + d, true⟩

/-- `tmr_stop(T)` (R141). -/
def tmrStop (t : Timer) : Timer := { t with active := false }

/-- `tmr_restart(T, now)` (R142). -/
def tmrRestart (now : U32) (t : Timer) : Timer :=
  { t with start := now, target := now + t.dur, active := true }

/-! ### MessageSlotStore (R156 to R170) -/

/-- `ms_get_free(S)` (R156): the lowest index that is not valid. -/
def msGetFree (v : Store) : Option Nat := v.findIdx? fun sl => !sl.valid

/-- `ms_append` on the slot itself (R157), `cap` being `SLOT_CAP`; false for `FAIL`. -/
def msAppend (cap : Nat) (b : Byte) (sl : Slot) : Bool × Slot :=
  if sl.len.toNat = cap then (false, sl)
  else (true, { sl with buf := sl.buf.write sl.len.toNat b, len := sl.len + 1#8 })

/-- Append each byte in turn, the results dropped (R240). -/
def msAppendEach (cap : Nat) : List Byte → Slot → Slot
  | [], sl => sl
  | b :: bs, sl => msAppendEach cap bs (msAppend cap b sl).2

/-- Append until one append fails (parser step 7, R199); false when one did. -/
def msAppendAll (cap : Nat) : List Byte → Slot → Bool × Slot
  | [], sl => (true, sl)
  | b :: bs, sl =>
    if (msAppend cap b sl).1 then msAppendAll cap bs (msAppend cap b sl).2
    else (false, (msAppend cap b sl).2)

/-- `ms_discard` on the slot itself (R158). -/
def msDiscard (sl : Slot) : Slot := { sl with len := 0#8 }

/-- `bump(S, i)` (R159): every other valid slot's rank goes up by one, saturating; slot `i`'s becomes 1. -/
def bump (i : Nat) (v : Store) : Store :=
  v.mapIdx fun j sl =>
    if j = i then { sl with rank := 1#8 }
    else if sl.valid then { sl with rank := sat8Inc sl.rank }
    else sl

/-- A bump for slot `i` would meet another valid slot already at rank 255 (R173, I7). -/
def meetsTop (i : Nat) (v : Store) : Bool :=
  (List.range v.length).any fun j =>
    decide (j ≠ i) && (slotAt v j).valid && decide ((slotAt v j).rank = 255#8)

/-- `ms_mark_retx(S, i, now, t)` (R161). -/
def msMarkRetx (i : Nat) (now t : U32) (v : Store) : Store :=
  (bump i v).modify i fun sl => { sl with valid := true, tmr := tmrStart now t sl.tmr }

/-- `ms_validate(S, i, now, t)` (R160). -/
def msValidate (i : Nat) (now t : U32) (v : Store) : Store :=
  (bump i v).modify i fun sl => { sl with valid := true, tmr := tmrStart now t sl.tmr, txc := 0#8 }

/-- The loop of R162 and R163: the lowest index among the valid slots that no other beats. -/
def scanValid (beats : BitVec 8 → BitVec 8 → Bool) : Store → Nat → Option (Nat × BitVec 8) → Option Nat
  | [], _, best => best.map (·.1)
  | sl :: rest, i, best =>
    scanValid beats rest (i + 1)
      (if sl.valid && (best.all fun b => beats sl.rank b.2) then some (i, sl.rank) else best)

/-- `ms_get_oldest(S)` (R162): maximum rank. -/
def msGetOldest (v : Store) : Option Nat := scanValid (fun a b => decide (b < a)) v 0 none

/-- `ms_get_newest(S)` (R163): minimum rank. -/
def msGetNewest (v : Store) : Option Nat := scanValid (fun a b => decide (a < b)) v 0 none

/-- What a freed slot becomes (R165, R166): `buf` and the timer's fields are kept. -/
def freed (sl : Slot) : Slot :=
  { sl with valid := false, rank := 0#8, len := 0#8, txc := 0#8, tmr := tmrStop sl.tmr }

/-- `ms_delete(S, i)` (R165). -/
def msDelete (i : Nat) (v : Store) : Store :=
  if (slotAt v i).valid then
    v.mapIdx fun j sl =>
      if j = i then freed sl
      else if sl.valid && decide ((slotAt v i).rank < sl.rank) then { sl with rank := sl.rank - 1#8 }
      else sl
  else v

/-- `ms_clear_all(S)` (R166). -/
def msClearAll (v : Store) : Store := v.map freed

/-- A valid slot whose deadline has passed (R167). -/
def Slot.overdue (now : U32) (sl : Slot) : Bool := sl.valid && sl.tmr.timedOut now

/-- `ms_count_timedout(S, now)` (R167). -/
def msCountTimedout (now : U32) (v : Store) : Nat := v.countP (Slot.overdue now)

/-- `ms_oldest_timedout(S, now)` (R168). -/
def msOldestTimedout (now : U32) (v : Store) : Bool :=
  match msGetOldest v with
  | none => false
  | some o => (slotAt v o).tmr.timedOut now

/-- `ms_inc_tx` on the slot itself (R169). -/
def msIncTx (sl : Slot) : Slot := { sl with txc := sat8Inc sl.txc }

/-- `ms_reset_deadline` on the slot itself (R170). -/
def msResetDeadline (now : U32) (sl : Slot) : Slot := { sl with tmr := tmrRestart now sl.tmr }

/-- `ms_read_byte` on the slot itself (R171); `none` for `FAIL`. -/
def msReadByte (off : Nat) (sl : Slot) : Option Byte :=
  if off < sl.len.toNat then some (sl.buf.read off) else none

/-! ### Output events (R66, R75) -/

/-- Append an event to the transaction's output trace. -/
def State.emit (s : State) (e : OutEvent) : State := { s with trace := s.trace ++ [e] }

/-- `transmit(bytes)` (R66): the burst goes to the trace. -/
def State.transmit (s : State) (bytes : List Byte) : State := s.emit (.tx bytes)

/-- The transport's answer to a burst, in `0 .. |bytes|` (R66; log entry 7). -/
def State.bytesSent (s : State) (bytes : List Byte) : Nat := min s.txAnswer bytes.length

/-- The stop-reception hook (R75). -/
def State.stopReception (s : State) : State := { s.emit .rxStop with eng := ⟨false⟩ }

/-- The start-reception hook (R75). -/
def State.startReception (s : State) : State := { s.emit .rxStart with eng := ⟨true⟩ }

/-! ### NAKEscalation (R220 to R223) -/

/-- `nak_request()` (R220). -/
def nakRequest (s : State) : State :=
  if nakTrips (sat8Inc s.nak.cnt) then { s with nak := ⟨sat8Inc s.nak.cnt, true⟩ }
  else { s with nak := ⟨sat8Inc s.nak.cnt, s.nak.many⟩ }.transmit (metaFrame s.cfg s.cfg.cmdNak)

/-- What `nak_request()` returns: true for `EMITTED` (R220). -/
def nakEmits (s : State) : Bool := !nakTrips (sat8Inc s.nak.cnt)

/-- `nak_reset_counter()` (R222). -/
def nakResetCounter (s : State) : State := { s with nak := { s.nak with cnt := 0#8 } }

/-- `nak_reset_state()` (R223). -/
def nakResetState (s : State) : State := { s with nak := { s.nak with many := false } }

/-! ### Responses (R89) -/

/-- Set the response. -/
def State.respond (s : State) (st : Status) (v : U32) : State := { s with rsp := some ⟨st.code, v⟩ }

/-- `OK, v`. -/
def State.ok (s : State) (v : U32) : State := s.respond .ok v

/-- `OK, v` or `FAIL, 0` for an operation that returns a byte. -/
def State.okByte (s : State) : Option Byte → State
  | some b => s.ok (byteCode b)
  | none => s.respond .fail 0#32

/-- `OK, i` or `FAIL, 0xFF` (`NONE`) for an operation that returns a slot index (R96). -/
def State.okIndex (s : State) : Option Nat → State
  | some i => s.ok (natCode i)
  | none => s.respond .fail noneCode

/-- `OK, 0` or `FAIL, 0`. -/
def State.okUnit (s : State) (accepted : Bool) : State :=
  if accepted then s.ok 0#32 else s.respond .fail 0#32

/-- The ILLEGAL response: status 0xFF, value 0, nothing else (R94, R95, R274). The block has no
exception besides it (R270). -/
def State.illegal (s : State) : State := s.respond .illegal 0#32

/-! ### Transactions -/

/-- What a step answers. -/
abbrev Result := Host.Outcome State Fault Refusal

/-- A transaction begins with no response and an empty output trace (R66, R89). -/
def State.fresh (s : State) : State := { s with rsp := none, trace := [] }

/-- One transaction (R64): the outputs of the one before are gone, then `body` runs to completion. A
block with an ill-formed configuration does not exist (R8, I3). -/
def transact (s : State) (body : State → State) : Result :=
  if s.cfg.wf then .next (body s.fresh)
  else .fault .illFormedConfiguration

/-- A transaction whose selector may name nothing: ILLEGAL by value, no state change (R95). -/
def transactIf (legal : Bool) (s : State) (body : State → State) : Result :=
  transact s fun s => if legal then body s else s.illegal

/-- A transaction that may bump ranks: where a bump it makes would meet rank 255, as `top` says, the model
stops before it (R173, I7; log entry 10). -/
def transactBump (top : State → Bool) (s : State) (body : State → State) : Result :=
  if s.cfg.wf && top s.fresh then .fault .rankSaturation else transact s body

/-- The same with a selector that may name nothing (R95). -/
def transactBumpIf (legal : Bool) (top : State → Bool) (s : State) (body : State → State) : Result :=
  transactBump (fun s => legal && top s) s fun s => if legal then body s else s.illegal

/-- A command word no row matches (R94). -/
def illegalCommand (s : State) : Result := transact s State.illegal

/-- Hardware reset (R300, R302): every element of the block takes its reset value; no response, empty
trace; the configuration and what the environment offers next stay. -/
def hardwareReset (s : State) : Result :=
  transact s fun s => State.resetOf s.cfg s.pending

end Sys2Proof.Machine
end

