-- ==== Sys2Proof/Machine/Checksum.lean ====
section
/-! DEFINITION. The ChecksumXOR instructions (41_checksum.md). -/

namespace Sys2Proof.Machine

/-- `CKS_COMPUTE` (R131). -/
def execCksCompute (data : List Byte) (s : State) : Result :=
  transact s fun s => s.ok (byteCode (fold data))

/-- `CKS_VERIFY` (R132). -/
def execCksVerify (data : List Byte) (s : State) : Result :=
  transact s fun s => s.ok (boolCode (cksVerify data))

end Sys2Proof.Machine
end

