-- ==== Sys2Proof/Machine/FrameParser.lean ====
section
/-! DEFINITION. The FrameParser (44_frameparser.md): the eight steps of R192 and its instructions. -/

namespace Sys2Proof.Machine

/-- Set the failure latch. -/
def State.setFail (s : State) (b : Bool) : State := { s with fp := { s.fp with fail := b } }

/-- `tmr_stop(fp.itmr)`. -/
def State.stopItmr (s : State) : State := { s with fp := { s.fp with itmr := tmrStop s.fp.itmr } }

/-- `rxb_clear()` on the block's one ReceiveBuffer. -/
def State.clearRxb (s : State) : State := { s with rxb := rxbClear s.rxb }

/-- Step 1, taken when the ring has overflowed (R193). The integrity timer is not touched. -/
def fpOverflow (s : State) : ParserOutcome × State :=
  ((latchOnDiscard s.fp.fail).2, s.clearRxb.setFail (latchOnDiscard s.fp.fail).1)

/-- Step 2's first test: start an inactive integrity timer when bytes are pending (R194). -/
def fpArm (s : State) : State :=
  if !s.fp.itmr.active && decide (0 < s.rxb.cnt) then
    { s with fp := { s.fp with itmr := tmrStart s.now tIntegrity s.fp.itmr } }
  else s

/-- Step 3, taken when the integrity timer has expired (R195). -/
def fpExpire (s : State) : ParserOutcome × State :=
  ((latchOnDiscard s.fp.fail).2, s.clearRxb.stopItmr.setFail (latchOnDiscard s.fp.fail).1)

/-- `DROP`, the tail of steps 5 and 7 (R201). -/
def fpDrop (s : State) : ParserOutcome × State :=
  ((latchOnDrop s.fp.fail).2,
    { s with rxb := (rxbPop s.cfg.ringCap s.rxb).2 }.setFail (latchOnDrop s.fp.fail).1)

/-- The header bytes `Q(rxb)[k]`, `k = 0, 1, 2`, of step 5 (R197). -/
def headerByte (s : State) (k : Nat) : Byte := ringByte s.cfg.ringCap s.rxb k

/-- Step 7's copy of the first `full` bytes of the ring into an emptied slot (R199). -/
def fpCopy (s : State) (full : Nat) (sl : Slot) : Bool × Slot :=
  msAppendAll s.cfg.slotCap ((contents s.cfg.ringCap s.rxb).take full) (msDiscard sl)

/-- Step 7's test: the copy was made whole and folds to zero (R199). -/
def fpCopyGood (s : State) (full : Nat) (sl : Slot) : Bool :=
  (fpCopy s full sl).1 && cksVerify ((fpCopy s full sl).2.buf.bytes full)

/-- Step 7 on a bad copy: the destination is emptied (R199). -/
def fpDiscardCopy (d full : Nat) (s : State) : State :=
  { s with inb := s.inb.modify d fun sl => msDiscard (fpCopy s full sl).2 }

/-- Step 8 on a good copy (R200). -/
def fpAccept (d full : Nat) (s : State) : State :=
  { (s.setFail false).stopItmr with
    rxb := rxbPopN s.cfg.ringCap full s.rxb
    inb := msValidate d s.now tAckWin (s.inb.modify d fun sl => (fpCopy s full sl).2) }

/-- Steps 7 and 8 (R199, R200). -/
def fpTake (d full : Nat) (s : State) : ParserOutcome × State :=
  if fpCopyGood s full (slotAt s.inb d) then (.ok, fpAccept d full s)
  else fpDrop (fpDiscardCopy d full s)

/-- Steps 5 to 8 (R197 to R200). The frame's whole length is exact, not truncated to 8 bits (R255). -/
def fpFrame (d : Nat) (s : State) : ParserOutcome × State :=
  if headerOk s.cfg (headerByte s 0) (headerByte s 1) (headerByte s 2) then
    if s.rxb.cnt < (headerByte s 2).toNat + minFrame then (.tooFew, s)
    else fpTake d ((headerByte s 2).toNat + minFrame) s
  else fpDrop s

/-- Steps 3 to 8, reached with bytes pending (R195 to R200). -/
def fpPending (d : Nat) (s : State) : ParserOutcome × State :=
  if s.fp.itmr.timedOut s.now then fpExpire s
  else if s.rxb.cnt < minFrame then (.tooFew, s)
  else fpFrame d s

/-- `fp_parse(now, d)` (R192), `d` being the index of the inbound destination slot. -/
def fpParse (d : Nat) (s : State) : ParserOutcome × State :=
  if s.rxb.ovf then fpOverflow s
  else if s.rxb.cnt = 0 then (.tooFew, fpArm s)
  else fpPending d (fpArm s)

/-- `fp_reset()` (R202). -/
def fpReset (s : State) : State := (s.setFail false).stopItmr.clearRxb

/-- The parser's one bump, in step 8, would meet rank 255 (R173). The steps before it write no rank. -/
def fpMeetsTop (d : Nat) (s : State) : Bool :=
  decide ((fpParse d s).1 = .ok) && meetsTop d s.inb

/-- `FP_PARSE` (R192, R173). -/
def execFpParse (d : BitVec 7) (s : State) : Result :=
  transactBumpIf (idxLegal s.cfg d) (fpMeetsTop d.toNat) s fun s => (fpParse d.toNat s).2.ok (fpParse d.toNat s).1.code

/-- `FP_RESET` (R202). -/
def execFpReset (s : State) : Result := transact s fun s => (fpReset s).ok 0#32

/-- `FP_READ` (R203). -/
def execFpRead (s : State) : Result := transact s fun s => s.ok (boolCode s.fp.fail)

end Sys2Proof.Machine
end

