-- ==== Sys2Proof/Machine/Engine.lean ====
section
/-! DEFINITION. The ProtocolEngine (46_engine.md). -/

namespace Sys2Proof.Machine

/-- `retry_slot`'s first line: the delivery failure is counted (R244). -/
def countFailure (i : Nat) (s : State) : State := { s with outb := s.outb.modify i msIncTx }

/-- The bytes of outbound slot `i`, `buf[0 .. len-1]`. -/
def frameOf (i : Nat) (s : State) : List Byte :=
  (slotAt s.outb i).buf.bytes (slotAt s.outb i).len.toNat

/-- `retry_slot`'s re-send and re-rank (R244); the transport's answer is ignored. -/
def resend (i : Nat) (s : State) : State :=
  { s.transmit (frameOf i s) with outb := msMarkRetx i s.now s.cfg.tTxDeadline s.outb }

/-- `retry_slot(i, now)` (R244): count, test, send; true for `FAILED`. -/
def retrySlot (i : Nat) (s : State) : Bool × State :=
  if retriesUsedUp (slotAt (countFailure i s).outb i).txc then (true, countFailure i s)
  else (false, resend i (countFailure i s))

/-- A re-send's bump would meet rank 255 (R173); a retry that fails bumps nothing. -/
def retryMeetsTop (i : Nat) (s : State) : Bool := !(retrySlot i s).1 && meetsTop i s.outb

/-- Free the oldest outbound slot, if there is one (R237). -/
def confirmOldest (s : State) : State :=
  match msGetOldest s.outb with
  | none => s
  | some o => { s with outb := msDelete o s.outb }

/-- Retry the oldest outbound slot, if there is one (R238). -/
def retryOldest (s : State) : EngineOutcome × State :=
  match msGetOldest s.outb with
  | none => (.nothing, s)
  | some o => (if (retrySlot o s).1 then .critical else .nothing, (retrySlot o s).2)

/-- Free inbound slot `d`, which held a meta-frame (R237, R238). -/
def freeInbound (d : Nat) (s : State) : State := { s with inb := msDelete d s.inb }

/-- The dispatch on the command byte of a clean frame in inbound slot `d` (R236 to R239). -/
def engDispatch (d : Nat) (s : State) : EngineOutcome × State :=
  if (slotAt s.inb d).buf.read 1 = cmdAck then (.nothing, confirmOldest (freeInbound d s))
  else if (slotAt s.inb d).buf.read 1 = s.cfg.cmdNak then retryOldest (freeInbound d s)
  else (.newMessage, s.transmit (metaFrame s.cfg cmdAck))

/-- The mapping of the parser's outcome (R234 to R236). -/
def engAfterParse (d : Nat) (r : ParserOutcome) (s : State) : EngineOutcome × State :=
  match r with
  | .tooFew | .byteDropped | .timeout => (.nothing, s)
  | .reqNak => (if (nakRequest s).nak.many then .critical else .nakSent, nakRequest s)
  | .ok => engDispatch d (nakResetCounter s)

/-- `eng_parse(now)` (R232, R233). -/
def engParse (s : State) : EngineOutcome × State :=
  match msGetFree s.inb with
  | none => (.critical, s)
  | some d => engAfterParse d (fpParse d s).1 (fpParse d s).2

/-- The dispatch's one bump, in the retry of R238, would meet rank 255 (R173). -/
def dispatchMeetsTop (d : Nat) (s : State) : Bool :=
  if (slotAt s.inb d).buf.read 1 = cmdAck then false
  else if (slotAt s.inb d).buf.read 1 = s.cfg.cmdNak then
    (msGetOldest s.outb).any fun o => retryMeetsTop o s
  else false

/-- One of `eng_parse`'s two bumps, the parser's and the dispatch's, would meet rank 255 (R173). -/
def engParseMeetsTop (s : State) : Bool :=
  (msGetFree s.inb).any fun d =>
    fpMeetsTop d s || decide ((fpParse d s).1 = .ok) && dispatchMeetsTop d (fpParse d s).2

/-- `ENG_PARSE` (R232, R173). -/
def execEngParse (s : State) : Result :=
  transactBump engParseMeetsTop s fun s => (engParse s).2.ok (engParse s).1.code

/-- The frame of `eng_transmit` before its checksum byte (R240). -/
def txHead (cfg : Config) (cmd : Byte) (data : List Byte) : List Byte :=
  cfg.magicTx :: cmd :: BitVec.ofNat 8 data.length :: data

/-- The slot with the frame staged in it: emptied, head and data appended, then the fold of
`buf[0 .. len+2]` (R240). -/
def stage (cfg : Config) (cmd : Byte) (data : List Byte) (sl : Slot) : Slot :=
  let head := msAppendEach cfg.slotCap (txHead cfg cmd data) (msDiscard sl)
  msAppendEach cfg.slotCap [fold (head.buf.bytes (data.length + 3))] head

/-- `eng_transmit`'s burst, `buf[0 .. len+3]` of the staged slot (R240). -/
def stagedFrame (cfg : Config) (cmd : Byte) (data : List Byte) (sl : Slot) : List Byte :=
  (stage cfg cmd data sl).buf.bytes (data.length + 4)

/-- `eng_transmit` once a free outbound slot `o` is found (R240). -/
def engSend (cmd : Byte) (data : List Byte) (o : Nat) (s : State) : Bool × State :=
  let s' := { s with outb := s.outb.modify o (stage s.cfg cmd data) }
  let burst := stagedFrame s.cfg cmd data (slotAt s.outb o)
  if s.bytesSent burst = data.length + 4 then
    (true, { s'.transmit burst with outb := msValidate o s.now s.cfg.tTxDeadline s'.outb })
  else (false, { s'.transmit burst with outb := s'.outb.modify o msDiscard })

/-- `eng_transmit(now, c, len, data)` (R240, R241): true for `E_SENT`, false for `E_ERROR`. -/
def engTransmit (cmd : Byte) (data : List Byte) (s : State) : Bool × State :=
  if txLenMax < data.length then (false, s)
  else if wlOk s.cfg.wlTx cmd data.length then
    match msGetFree s.outb with
    | none => (false, s)
    | some o => engSend cmd data o s
  else (false, s)

/-- `eng_transmit`'s one bump, made when the frame was sent whole, would meet rank 255 (R173). -/
def engTransmitMeetsTop (cmd : Byte) (data : List Byte) (s : State) : Bool :=
  (engTransmit cmd data s).1 && (msGetFree s.outb).any fun o => meetsTop o s.outb

/-- `ENG_TRANSMIT` (R240, R173). -/
def execEngTransmit (cmd : Byte) (data : List Byte) (s : State) : Result :=
  transactBump (engTransmitMeetsTop cmd data) s fun s => (engTransmit cmd data s).2.okUnit (engTransmit cmd data s).1

/-- `ENG_COUNT_TIMEOUTS` (R242). -/
def execEngCountTimeouts (s : State) : Result :=
  transact s fun s => s.ok (natCode (msCountTimedout s.now s.outb))

/-- One turn of the scan of R243: retry slot `i` if it is overdue when the scan reaches it. -/
def timeoutTurn (acc : Bool × State) (i : Nat) : Bool × State :=
  if (slotAt acc.2.outb i).overdue acc.2.now then
    (acc.1 || (retrySlot i acc.2).1, (retrySlot i acc.2).2)
  else acc

/-- `eng_handle_timeouts(now)` (R243): index order, every slot visited; true when some slot failed. -/
def handleTimeouts (s : State) : Bool × State :=
  (List.range s.cfg.nSlots).foldl timeoutTurn (false, s)

/-- The outcome of `eng_handle_timeouts` (R243). -/
def timeoutOutcome (failed : Bool) : EngineOutcome := if failed then .critical else .nothing

/-- The bump of the turn for slot `i`, if it makes one, would meet rank 255 (R173). -/
def turnMeetsTop (i : Nat) (s : State) : Bool :=
  (slotAt s.outb i).overdue s.now && retryMeetsTop i s

/-- Some turn's bump, in the state the turns before it leave, would meet rank 255 (R173). -/
def scanMeetsTop (s : State) : Bool :=
  (List.range s.cfg.nSlots).any fun i =>
    turnMeetsTop i ((List.range i).foldl timeoutTurn (false, s)).2

/-- `ENG_HANDLE_TIMEOUTS` (R243, R173). -/
def execEngHandleTimeouts (s : State) : Result :=
  transactBump scanMeetsTop s fun s => (handleTimeouts s).2.ok (timeoutOutcome (handleTimeouts s).1).code

/-- `ENG_GET_NEWEST_RX` (R247). -/
def execEngGetNewestRx (s : State) : Result :=
  transact s fun s => s.okIndex (msGetNewest s.inb)

/-- `ENG_DELETE_RX` (R248). -/
def execEngDeleteRx (i : BitVec 7) (s : State) : Result :=
  transactIf (idxLegal s.cfg i) s fun s => { s with inb := msDelete i.toNat s.inb }.ok 0#32

/-- `eng_reset_all()` (R252). -/
def resetAll (s : State) : State :=
  let s := s.stopReception
  let s := { s with inb := msClearAll s.inb }
  let s := { s with outb := msClearAll s.outb }
  (nakResetState (nakResetCounter (fpReset s))).startReception

/-- `ENG_RESET_ALL` (R252). -/
def execEngResetAll (s : State) : Result := transact s fun s => (resetAll s).ok 0#32

/-- `ENG_RX_LEN` (R249). -/
def execEngRxLen (i : BitVec 7) (s : State) : Result :=
  transactIf (idxLegal s.cfg i) s fun s => s.ok (byteCode (slotAt s.inb i.toNat).len)

/-- `ENG_RX_BYTE` (R250). -/
def execEngRxByte (i : BitVec 7) (off : U32) (s : State) : Result :=
  transactIf (idxLegal s.cfg i) s fun s => s.okByte (msReadByte off.toNat (slotAt s.inb i.toNat))

end Sys2Proof.Machine
end

