-- ==== Sys2Proof/Machine/NakEscalation.lean ====
section
/-! DEFINITION. The NAKEscalation instructions (45_nak.md). -/

namespace Sys2Proof.Machine

/-- `NAK_REQUEST` (R220). -/
def execNakRequest (s : State) : Result :=
  transact s fun s => (nakRequest s).ok (boolCode (nakEmits s))

/-- `NAK_RESET_COUNTER` (R222). -/
def execNakResetCounter (s : State) : Result := transact s fun s => (nakResetCounter s).ok 0#32

/-- `NAK_RESET_STATE` (R223). -/
def execNakResetState (s : State) : Result := transact s fun s => (nakResetState s).ok 0#32

/-- `NAK_READ` (R224). -/
def execNakRead (f : NakField) (s : State) : Result := transact s fun s => s.ok (s.nak.field f)

end Sys2Proof.Machine
end

