-- ==== Sys2Proof/Machine/ReceiveBuffer.lean ====
section
/-! DEFINITION. The ReceiveBuffer's instructions (40_bytering_rxbuf.md) and the RX byte event (R231). -/

namespace Sys2Proof.Machine

/-- `RXB_PUSH` (R115). -/
def execRxbPush (b : Byte) (s : State) : Result :=
  transact s fun s =>
    { s with rxb := (rxbPush s.cfg.ringCap b s.rxb).2 }.okUnit (rxbPush s.cfg.ringCap b s.rxb).1

/-- `RXB_POP` (R116). -/
def execRxbPop (s : State) : Result :=
  transact s fun s =>
    { s with rxb := (rxbPop s.cfg.ringCap s.rxb).2 }.okByte (rxbPop s.cfg.ringCap s.rxb).1

/-- `RXB_PEEK` (R117): the offset is compared with no truncation (R69). -/
def execRxbPeek (off : U32) (s : State) : Result :=
  transact s fun s => s.okByte (rxbPeek s.cfg.ringCap off.toNat s.rxb)

/-- `RXB_COUNT` (R118). -/
def execRxbCount (s : State) : Result :=
  transact s fun s => s.ok (natCode (ringCount s.rxb))

/-- `RXB_CLEAR` (R119). -/
def execRxbClear (s : State) : Result :=
  transact s fun s => { s with rxb := rxbClear s.rxb }.ok 0#32

/-- `RXB_OVF` (R120). -/
def execRxbOvf (s : State) : Result :=
  transact s fun s => s.ok (boolCode s.rxb.ovf)

/-- The timer half of the RX byte event: restart the integrity timer if it runs (R231). -/
def rxRestart (s : State) : State :=
  if s.fp.itmr.active then { s with fp := { s.fp with itmr := tmrRestart s.now s.fp.itmr } } else s

/-- The RX byte event (R231): one transaction (R73), no response, whatever `eng.rx_en` is (R42). -/
def execRxByte (b : Byte) (s : State) : Result :=
  transact s fun s =>
    { rxRestart s with rxb := (rxbPush s.cfg.ringCap b s.rxb).2 }

end Sys2Proof.Machine
end

