-- ==== Sys2Proof/Machine/SlotStore.lean ====
section
/-! DEFINITION. The MessageSlotStore instructions (43_slotstore.md). An index `>= N_SLOTS` answers
ILLEGAL (R155). -/

namespace Sys2Proof.Machine

/-- `MS_GET_FREE` (R156). -/
def execMsGetFree (st : StoreSel) (s : State) : Result :=
  transact s fun s => s.okIndex (msGetFree (s.store st))

/-- `MS_APPEND` (R157). -/
def execMsAppend (sel : SSel) (b : Byte) (s : State) : Result :=
  transactIf (idxLegal s.cfg sel.idx) s fun s =>
    (s.mapSlot sel fun sl => (msAppend s.cfg.slotCap b sl).2).okUnit
      (msAppend s.cfg.slotCap b (s.slot sel)).1

/-- `MS_VALIDATE` (R160, R173). -/
def execMsValidate (sel : SSel) (t : U32) (s : State) : Result :=
  transactBumpIf (idxLegal s.cfg sel.idx) (fun s => meetsTop sel.idx.toNat (s.store sel.store)) s fun s =>
    (s.setStore sel.store (msValidate sel.idx.toNat s.now t (s.store sel.store))).ok 0#32

/-- `MS_MARK_RETX` (R161, R173). -/
def execMsMarkRetx (sel : SSel) (t : U32) (s : State) : Result :=
  transactBumpIf (idxLegal s.cfg sel.idx) (fun s => meetsTop sel.idx.toNat (s.store sel.store)) s fun s =>
    (s.setStore sel.store (msMarkRetx sel.idx.toNat s.now t (s.store sel.store))).ok 0#32

/-- `MS_DELETE` (R165). -/
def execMsDelete (sel : SSel) (s : State) : Result :=
  transactIf (idxLegal s.cfg sel.idx) s fun s =>
    (s.setStore sel.store (msDelete sel.idx.toNat (s.store sel.store))).ok 0#32

/-- `MS_GET_OLDEST` (R162). -/
def execMsGetOldest (st : StoreSel) (s : State) : Result :=
  transact s fun s => s.okIndex (msGetOldest (s.store st))

/-- `MS_GET_NEWEST` (R163). -/
def execMsGetNewest (st : StoreSel) (s : State) : Result :=
  transact s fun s => s.okIndex (msGetNewest (s.store st))

/-- `MS_COUNT_TIMEDOUT` (R167). -/
def execMsCountTimedout (st : StoreSel) (s : State) : Result :=
  transact s fun s => s.ok (natCode (msCountTimedout s.now (s.store st)))

/-- `MS_OLDEST_TIMEDOUT` (R168). -/
def execMsOldestTimedout (st : StoreSel) (s : State) : Result :=
  transact s fun s => s.ok (boolCode (msOldestTimedout s.now (s.store st)))

/-- `MS_INC_TX` (R169). -/
def execMsIncTx (sel : SSel) (s : State) : Result :=
  transactIf (idxLegal s.cfg sel.idx) s fun s => (s.mapSlot sel msIncTx).ok 0#32

/-- `MS_RESET_DEADLINE` (R170). -/
def execMsResetDeadline (sel : SSel) (s : State) : Result :=
  transactIf (idxLegal s.cfg sel.idx) s fun s => (s.mapSlot sel (msResetDeadline s.now)).ok 0#32

/-- `MS_READ_BYTE` (R171). -/
def execMsReadByte (sel : SSel) (off : U32) (s : State) : Result :=
  transactIf (idxLegal s.cfg sel.idx) s fun s => s.okByte (msReadByte off.toNat (s.slot sel))

/-- `MS_READ_INFO` (R172). -/
def execMsReadInfo (sel : SSel) (f : SlotField) (s : State) : Result :=
  transactIf (idxLegal s.cfg sel.idx) s fun s => s.ok ((s.slot sel).field f)

/-- `MS_DISCARD` (R158). -/
def execMsDiscard (sel : SSel) (s : State) : Result :=
  transactIf (idxLegal s.cfg sel.idx) s fun s => (s.mapSlot sel msDiscard).ok 0#32

/-- `MS_CLEAR_ALL` (R166). -/
def execMsClearAll (st : StoreSel) (s : State) : Result :=
  transact s fun s => (s.setStore st (msClearAll (s.store st))).ok 0#32

end Sys2Proof.Machine
end

