-- ==== Sys2Proof/Machine/SoftwareTimer.lean ====
section
/-! DEFINITION. The SoftwareTimer instructions (42_timer.md). An illegal `TSEL` answers ILLEGAL (R95). -/

namespace Sys2Proof.Machine

/-- `TMR_START` (R140). -/
def execTmrStart (t : TSel) (d : U32) (s : State) : Result :=
  transactIf (tselLegal s.cfg t) s fun s => (s.mapTimer t (tmrStart s.now d)).ok 0#32

/-- `TMR_STOP` (R141). -/
def execTmrStop (t : TSel) (s : State) : Result :=
  transactIf (tselLegal s.cfg t) s fun s => (s.mapTimer t tmrStop).ok 0#32

/-- `TMR_RESTART` (R142). -/
def execTmrRestart (t : TSel) (s : State) : Result :=
  transactIf (tselLegal s.cfg t) s fun s => (s.mapTimer t (tmrRestart s.now)).ok 0#32

/-- `TMR_TIMEDOUT` (R143). -/
def execTmrTimedout (t : TSel) (s : State) : Result :=
  transactIf (tselLegal s.cfg t) s fun s => s.ok (boolCode ((s.timer t).timedOut s.now))

/-- `TMR_READ` (R144). -/
def execTmrRead (t : TSel) (f : TmrField) (s : State) : Result :=
  transactIf (tselLegal s.cfg t) s fun s => s.ok ((s.timer t).field f)

end Sys2Proof.Machine
end

