-- ==== Sys2Proof/Machine/Dispatch.lean ====
section
/-! DEFINITION. One arm per constructor of Instr, each one direct call of its meaning. -/

namespace Sys2Proof.Machine

def exec (i : Instr) (s : State) : Host.Outcome State Fault Refusal :=
  match i with
  | .engParse => Sys2Proof.Machine.execEngParse s
  | .engTransmit cmd data => Sys2Proof.Machine.execEngTransmit cmd data s
  | .engCountTimeouts => Sys2Proof.Machine.execEngCountTimeouts s
  | .engHandleTimeouts => Sys2Proof.Machine.execEngHandleTimeouts s
  | .engGetNewestRx => Sys2Proof.Machine.execEngGetNewestRx s
  | .engDeleteRx slot => Sys2Proof.Machine.execEngDeleteRx slot s
  | .engResetAll => Sys2Proof.Machine.execEngResetAll s
  | .engRxLen slot => Sys2Proof.Machine.execEngRxLen slot s
  | .engRxByte slot off => Sys2Proof.Machine.execEngRxByte slot off s
  | .rxbPush b => Sys2Proof.Machine.execRxbPush b s
  | .rxbPop => Sys2Proof.Machine.execRxbPop s
  | .rxbPeek off => Sys2Proof.Machine.execRxbPeek off s
  | .rxbCount => Sys2Proof.Machine.execRxbCount s
  | .rxbClear => Sys2Proof.Machine.execRxbClear s
  | .rxbOvf => Sys2Proof.Machine.execRxbOvf s
  | .cksCompute data => Sys2Proof.Machine.execCksCompute data s
  | .cksVerify data => Sys2Proof.Machine.execCksVerify data s
  | .tmrStart t d => Sys2Proof.Machine.execTmrStart t d s
  | .tmrStop t => Sys2Proof.Machine.execTmrStop t s
  | .tmrRestart t => Sys2Proof.Machine.execTmrRestart t s
  | .tmrTimedout t => Sys2Proof.Machine.execTmrTimedout t s
  | .tmrRead t f => Sys2Proof.Machine.execTmrRead t f s
  | .msGetFree st => Sys2Proof.Machine.execMsGetFree st s
  | .msAppend sel b => Sys2Proof.Machine.execMsAppend sel b s
  | .msValidate sel t => Sys2Proof.Machine.execMsValidate sel t s
  | .msMarkRetx sel t => Sys2Proof.Machine.execMsMarkRetx sel t s
  | .msDelete sel => Sys2Proof.Machine.execMsDelete sel s
  | .msGetOldest st => Sys2Proof.Machine.execMsGetOldest st s
  | .msGetNewest st => Sys2Proof.Machine.execMsGetNewest st s
  | .msCountTimedout st => Sys2Proof.Machine.execMsCountTimedout st s
  | .msOldestTimedout st => Sys2Proof.Machine.execMsOldestTimedout st s
  | .msIncTx sel => Sys2Proof.Machine.execMsIncTx sel s
  | .msResetDeadline sel => Sys2Proof.Machine.execMsResetDeadline sel s
  | .msReadByte sel off => Sys2Proof.Machine.execMsReadByte sel off s
  | .msReadInfo sel f => Sys2Proof.Machine.execMsReadInfo sel f s
  | .msDiscard sel => Sys2Proof.Machine.execMsDiscard sel s
  | .msClearAll st => Sys2Proof.Machine.execMsClearAll st s
  | .fpParse d => Sys2Proof.Machine.execFpParse d s
  | .fpReset => Sys2Proof.Machine.execFpReset s
  | .fpRead => Sys2Proof.Machine.execFpRead s
  | .nakRequest => Sys2Proof.Machine.execNakRequest s
  | .nakResetCounter => Sys2Proof.Machine.execNakResetCounter s
  | .nakResetState => Sys2Proof.Machine.execNakResetState s
  | .nakRead f => Sys2Proof.Machine.execNakRead f s
  | .rxByte b => Sys2Proof.Machine.execRxByte b s

end Sys2Proof.Machine
end

