-- ==== Sys2Proof/Decode.lean ====
section
/-! DEFINITION. Decoding and encoding of command transactions and RX byte events (R87 to R101). -/

namespace Sys2Proof

/-- Why an offer is no operation of the block. -/
inductive Reject where
  /-- R94: the opcode is not in the map. -/
  | unknownOpcode (op : Byte)
  /-- R94: a listed opcode with a must-be-zero bit set. -/
  | mustBeZero (op : Byte)
  /-- R88: the transaction does not carry exactly the payload bytes its word calls for. -/
  | payloadLength (want have_ : Nat)
deriving DecidableEq, Repr

/-- Why a byte stream (R101) holds no command transaction at its front. -/
inductive StreamReject where
  /-- The stream ends before the command word or its payload does. -/
  | truncated
  /-- The transaction is rejected. -/
  | rejected (r : Reject)
deriving DecidableEq, Repr

/-- The formats of R91. -/
inductive Format where
  | f0 | ftx | fpay | fidx | fidxb | fb8 | fb32 | ffld1 | ft | ftb32 | ftfld | fstore | fs | fsb8
  | fsb32 | fsfld
deriving DecidableEq, Repr

/-- The masks of R91: a 1 at every opcode bit and every must-be-zero bit. -/
def Format.mask : Format → CmdWord
  | .f0     => 0xFFFFFFFFFFFF#48
  | .ftx    => 0xFF00FFFF0000#48
  | .fpay   => 0xFFFFFFFF0000#48
  | .fidx   => 0xFF80FFFFFFFF#48
  | .fidxb  => 0xFF8000000000#48
  | .fb8    => 0xFFFFFFFFFF00#48
  | .fb32   => 0xFFFF00000000#48
  | .ffld1  => 0xFFFFFFFFFFFE#48
  | .ft     => 0xFF00FFFFFFFF#48
  | .ftb32  => 0xFF0000000000#48
  | .ftfld  => 0xFF00FFFFFFFC#48
  | .fstore => 0xFF7FFFFFFFFF#48
  | .fs     => 0xFF00FFFFFFFF#48
  | .fsb8   => 0xFF00FFFFFF00#48
  | .fsb32  => 0xFF0000000000#48
  | .fsfld  => 0xFF00FFFFFFFC#48

/-! ### The fields of a command word (R87) -/

/-- `op = W[47:40]`. -/
def CmdWord.op (w : CmdWord) : Byte := w.extractLsb' 40 8
/-- `a = W[39:32]`. -/
def CmdWord.a (w : CmdWord) : Byte := w.extractLsb' 32 8
/-- `b = W[31:0]`. -/
def CmdWord.b (w : CmdWord) : U32 := w.extractLsb' 0 32
/-- `b[7:0]`. -/
def CmdWord.b8 (w : CmdWord) : Byte := w.extractLsb' 0 8
/-- `b[15:0]`, the payload count of R88. -/
def CmdWord.n (w : CmdWord) : BitVec 16 := w.extractLsb' 0 16
/-- `a[6:0]`. -/
def CmdWord.idx (w : CmdWord) : BitVec 7 := w.extractLsb' 32 7
/-- `b[1:0]`. -/
def CmdWord.f2 (w : CmdWord) : BitVec 2 := w.extractLsb' 0 2
/-- `b[0]`. -/
def CmdWord.f1 (w : CmdWord) : Bool := w.getLsbD 0

/-- The word matches the row: `(W and mask) = match`, the match being the opcode over zeros (R90, R91). -/
def CmdWord.fits (w : CmdWord) (f : Format) : Bool :=
  w &&& f.mask == w.op ++ (0#40 : BitVec 40)

/-! ### Selectors and field numbers (R63, R92, R97) -/

/-- The store selector bit `a[7]`. -/
def StoreSel.ofBit : Bool → StoreSel
  | false => .inb
  | true => .outb

/-- The bit of a store selector. -/
def StoreSel.bit : StoreSel → Bool
  | .inb => false
  | .outb => true

/-- `SSEL` from its 8 bits. -/
def SSel.ofByte (v : Byte) : SSel := ⟨StoreSel.ofBit (v.getLsbD 7), v.extractLsb' 0 7⟩

/-- The 8 bits of an `SSEL`. -/
def SSel.byte (s : SSel) : Byte := BitVec.ofBool s.store.bit ++ s.idx

/-- `TSEL` from its 8 bits: 0x7F is the integrity timer, any other value an `SSEL`. -/
def TSel.ofByte (v : Byte) : TSel := if v = 0x7F#8 then .itmr else .slot (SSel.ofByte v)

/-- The 8 bits of a `TSEL`. -/
def TSel.byte : TSel → Byte
  | .itmr => 0x7F#8
  | .slot sel => sel.byte

/-- Field numbers of `TMR_READ` (R97). -/
def TmrField.ofBits (v : BitVec 2) : TmrField :=
  if v = 0#2 then .start else if v = 1#2 then .dur else if v = 2#2 then .target else .active

/-- The number of a timer field. -/
def TmrField.bits : TmrField → BitVec 2
  | .start => 0#2
  | .dur => 1#2
  | .target => 2#2
  | .active => 3#2

/-- Field numbers of `MS_READ_INFO` (R97). -/
def SlotField.ofBits (v : BitVec 2) : SlotField :=
  if v = 0#2 then .len else if v = 1#2 then .rank else if v = 2#2 then .valid else .txc

/-- The number of a slot field. -/
def SlotField.bits : SlotField → BitVec 2
  | .len => 0#2
  | .rank => 1#2
  | .valid => 2#2
  | .txc => 3#2

/-- Field numbers of `NAK_READ` (R97). -/
def NakField.ofBit : Bool → NakField
  | false => .cnt
  | true => .many

/-- The number of a NAK field. -/
def NakField.bit : NakField → Bool
  | .cnt => false
  | .many => true

/-! ### The decoder (R90, R94) -/

/-- The row with this format gives `i` where the word matches it; a must-be-zero bit that is set makes
the word illegal (R94). -/
def CmdWord.row (w : CmdWord) (f : Format) (i : Instr) : Except Reject Instr :=
  if w.fits f then .ok i else .error (.mustBeZero w.op)

/-- The opcode map of R90, the payload being what follows the word. -/
def decodeMap (w : CmdWord) (payload : List Byte) : Except Reject Instr :=
  match w.op.toNat with
  | 0x01 => w.row .f0 .engParse
  | 0x02 => w.row .ftx (.engTransmit w.a payload)
  | 0x03 => w.row .f0 .engCountTimeouts
  | 0x04 => w.row .f0 .engHandleTimeouts
  | 0x05 => w.row .f0 .engGetNewestRx
  | 0x06 => w.row .fidx (.engDeleteRx w.idx)
  | 0x07 => w.row .f0 .engResetAll
  | 0x08 => w.row .fidx (.engRxLen w.idx)
  | 0x09 => w.row .fidxb (.engRxByte w.idx w.b)
  | 0x10 => w.row .fb8 (.rxbPush w.b8)
  | 0x11 => w.row .f0 .rxbPop
  | 0x12 => w.row .fb32 (.rxbPeek w.b)
  | 0x13 => w.row .f0 .rxbCount
  | 0x14 => w.row .f0 .rxbClear
  | 0x15 => w.row .f0 .rxbOvf
  | 0x20 => w.row .fpay (.cksCompute payload)
  | 0x21 => w.row .fpay (.cksVerify payload)
  | 0x30 => w.row .ftb32 (.tmrStart (TSel.ofByte w.a) w.b)
  | 0x31 => w.row .ft (.tmrStop (TSel.ofByte w.a))
  | 0x32 => w.row .ft (.tmrRestart (TSel.ofByte w.a))
  | 0x33 => w.row .ft (.tmrTimedout (TSel.ofByte w.a))
  | 0x34 => w.row .ftfld (.tmrRead (TSel.ofByte w.a) (TmrField.ofBits w.f2))
  | 0x40 => w.row .fstore (.msGetFree (StoreSel.ofBit (w.a.getLsbD 7)))
  | 0x41 => w.row .fsb8 (.msAppend (SSel.ofByte w.a) w.b8)
  | 0x42 => w.row .fsb32 (.msValidate (SSel.ofByte w.a) w.b)
  | 0x43 => w.row .fsb32 (.msMarkRetx (SSel.ofByte w.a) w.b)
  | 0x44 => w.row .fs (.msDelete (SSel.ofByte w.a))
  | 0x45 => w.row .fstore (.msGetOldest (StoreSel.ofBit (w.a.getLsbD 7)))
  | 0x46 => w.row .fstore (.msGetNewest (StoreSel.ofBit (w.a.getLsbD 7)))
  | 0x47 => w.row .fstore (.msCountTimedout (StoreSel.ofBit (w.a.getLsbD 7)))
  | 0x48 => w.row .fstore (.msOldestTimedout (StoreSel.ofBit (w.a.getLsbD 7)))
  | 0x49 => w.row .fs (.msIncTx (SSel.ofByte w.a))
  | 0x4A => w.row .fs (.msResetDeadline (SSel.ofByte w.a))
  | 0x4B => w.row .fsb32 (.msReadByte (SSel.ofByte w.a) w.b)
  | 0x4C => w.row .fsfld (.msReadInfo (SSel.ofByte w.a) (SlotField.ofBits w.f2))
  | 0x4D => w.row .fs (.msDiscard (SSel.ofByte w.a))
  | 0x4E => w.row .fstore (.msClearAll (StoreSel.ofBit (w.a.getLsbD 7)))
  | 0x80 => w.row .fidx (.fpParse w.idx)
  | 0x81 => w.row .f0 .fpReset
  | 0x82 => w.row .f0 .fpRead
  | 0x90 => w.row .f0 .nakRequest
  | 0x91 => w.row .f0 .nakResetCounter
  | 0x92 => w.row .f0 .nakResetState
  | 0x93 => w.row .ffld1 (.nakRead (NakField.ofBit w.f1))
  | _ => .error (.unknownOpcode w.op)

/-- How many payload bytes follow the word (R88, R94): `b[15:0]` for a legal word of one of the three
payload opcodes, none for any other word. -/
def payloadCount (w : CmdWord) : Nat :=
  match w.op.toNat with
  | 0x02 => if w.fits .ftx then w.n.toNat else 0
  | 0x20 => if w.fits .fpay then w.n.toNat else 0
  | 0x21 => if w.fits .fpay then w.n.toNat else 0
  | _ => 0

/-- A command transaction: exactly the payload bytes the word calls for must stand behind it (R88). -/
def decodeCommand (w : CmdWord) (payload : List Byte) : Except Reject Instr :=
  if payload.length = payloadCount w then decodeMap w payload
  else .error (.payloadLength (payloadCount w) payload.length)

/-- What an offer at one of the two ports asks the block to do. Every received byte is legal (R98). -/
def decode : Offer → Except Reject Instr
  | .command w payload => decodeCommand w payload
  | .rxByte b => .ok (.rxByte b)

/-! ### The encoder -/

/-- A command word from its three fields (R87). -/
def mkWord (op a : Byte) (b : U32) : CmdWord := op ++ a ++ b

/-- A 7-bit inbound index in `a[6:0]` (formats FIDX and FIDXB). -/
def idxByte (i : BitVec 7) : Byte := i.setWidth 8

/-- A store bit in `a[7]` (format FSTORE). -/
def storeByte (st : StoreSel) : Byte := BitVec.ofBool st.bit ++ 0#7

/-- A command without payload. -/
def plainCommand (op a : Byte) (b : U32) : Offer := .command (mkWord op a b) []

/-- A command followed by its payload, its length in `b[15:0]` (R88). -/
def payloadCommand (op a : Byte) (data : List Byte) : Offer :=
  .command (mkWord op a ((BitVec.ofNat 16 data.length).setWidth 32)) data

/-- The encoding of an instruction: its word by R90 and R91 with its payload, or its data byte. -/
def encode : Instr → Offer
  | .engParse => plainCommand 0x01#8 0#8 0#32
  | .engTransmit cmd data => payloadCommand 0x02#8 cmd data
  | .engCountTimeouts => plainCommand 0x03#8 0#8 0#32
  | .engHandleTimeouts => plainCommand 0x04#8 0#8 0#32
  | .engGetNewestRx => plainCommand 0x05#8 0#8 0#32
  | .engDeleteRx i => plainCommand 0x06#8 (idxByte i) 0#32
  | .engResetAll => plainCommand 0x07#8 0#8 0#32
  | .engRxLen i => plainCommand 0x08#8 (idxByte i) 0#32
  | .engRxByte i off => plainCommand 0x09#8 (idxByte i) off
  | .rxbPush b => plainCommand 0x10#8 0#8 (b.setWidth 32)
  | .rxbPop => plainCommand 0x11#8 0#8 0#32
  | .rxbPeek off => plainCommand 0x12#8 0#8 off
  | .rxbCount => plainCommand 0x13#8 0#8 0#32
  | .rxbClear => plainCommand 0x14#8 0#8 0#32
  | .rxbOvf => plainCommand 0x15#8 0#8 0#32
  | .cksCompute data => payloadCommand 0x20#8 0#8 data
  | .cksVerify data => payloadCommand 0x21#8 0#8 data
  | .tmrStart t d => plainCommand 0x30#8 t.byte d
  | .tmrStop t => plainCommand 0x31#8 t.byte 0#32
  | .tmrRestart t => plainCommand 0x32#8 t.byte 0#32
  | .tmrTimedout t => plainCommand 0x33#8 t.byte 0#32
  | .tmrRead t f => plainCommand 0x34#8 t.byte (f.bits.setWidth 32)
  | .msGetFree st => plainCommand 0x40#8 (storeByte st) 0#32
  | .msAppend sel b => plainCommand 0x41#8 sel.byte (b.setWidth 32)
  | .msValidate sel t => plainCommand 0x42#8 sel.byte t
  | .msMarkRetx sel t => plainCommand 0x43#8 sel.byte t
  | .msDelete sel => plainCommand 0x44#8 sel.byte 0#32
  | .msGetOldest st => plainCommand 0x45#8 (storeByte st) 0#32
  | .msGetNewest st => plainCommand 0x46#8 (storeByte st) 0#32
  | .msCountTimedout st => plainCommand 0x47#8 (storeByte st) 0#32
  | .msOldestTimedout st => plainCommand 0x48#8 (storeByte st) 0#32
  | .msIncTx sel => plainCommand 0x49#8 sel.byte 0#32
  | .msResetDeadline sel => plainCommand 0x4A#8 sel.byte 0#32
  | .msReadByte sel off => plainCommand 0x4B#8 sel.byte off
  | .msReadInfo sel f => plainCommand 0x4C#8 sel.byte (f.bits.setWidth 32)
  | .msDiscard sel => plainCommand 0x4D#8 sel.byte 0#32
  | .msClearAll st => plainCommand 0x4E#8 (storeByte st) 0#32
  | .fpParse d => plainCommand 0x80#8 (idxByte d) 0#32
  | .fpReset => plainCommand 0x81#8 0#8 0#32
  | .fpRead => plainCommand 0x82#8 0#8 0#32
  | .nakRequest => plainCommand 0x90#8 0#8 0#32
  | .nakResetCounter => plainCommand 0x91#8 0#8 0#32
  | .nakResetState => plainCommand 0x92#8 0#8 0#32
  | .nakRead f => plainCommand 0x93#8 0#8 ((BitVec.ofBool f.bit).setWidth 32)
  | .rxByte b => .rxByte b

/-! ### Byte-wide carriage (R101) -/

/-- The six bytes of a command word, most significant first. -/
def wordBytes (w : CmdWord) : List Byte :=
  [w.extractLsb' 40 8, w.extractLsb' 32 8, w.extractLsb' 24 8, w.extractLsb' 16 8,
    w.extractLsb' 8 8, w.extractLsb' 0 8]

/-- A command word from its six bytes, most significant first. -/
def bytesWord (b5 b4 b3 b2 b1 b0 : Byte) : CmdWord := b5 ++ b4 ++ b3 ++ b2 ++ b1 ++ b0

/-- An offer as bytes: the command word, then the payload; or the one received byte. -/
def Offer.bytes : Offer → List Byte
  | .command w payload => wordBytes w ++ payload
  | .rxByte b => [b]

/-- Read one command transaction from a byte stream (R101): the instruction and the rest of the
stream. Only the payload the word calls for is consumed (R94). -/
def decodeBytes : List Byte → Except StreamReject (Instr × List Byte)
  | b5 :: b4 :: b3 :: b2 :: b1 :: b0 :: rest =>
    let w := bytesWord b5 b4 b3 b2 b1 b0
    if rest.length < payloadCount w then .error .truncated
    else
      match decodeCommand w (rest.take (payloadCount w)) with
      | .ok i => .ok (i, rest.drop (payloadCount w))
      | .error r => .error (.rejected r)
  | _ => .error .truncated

/-! ### Table words (the host's numbering: bit 0 is the least significant bit of the one 48-bit word) -/

/-- What the table word `w` of `nbits` bits is offered as: 48 bits at the command port, with the
payload bytes the word calls for all zero; 8 bits at the RX byte port. -/
def tableOffer (nbits w : Nat) : Option Offer :=
  if nbits = 48 then
    some (.command (BitVec.ofNat 48 w) (List.replicate (payloadCount (BitVec.ofNat 48 w)) 0#8))
  else if nbits = 8 then some (.rxByte (BitVec.ofNat 8 w))
  else none

/-- The instruction the decoder reads from a table word. -/
def decodeTableWord (nbits w : Nat) : Option Instr :=
  (tableOffer nbits w).bind fun o => (decode o).toOption

end Sys2Proof
end

