-- ==== Sys2Proof/Machine/Fetch.lean ====
section
/-! DEFINITION. Taking the next transaction from what the environment offers (R64 to R67; log entries 4
to 7). -/

namespace Sys2Proof.Machine

/-- The transaction's inputs are sampled once, at its start (R65, R66); what comes later stays. -/
def State.sample (s : State) (now : U32) (txAnswer : Nat) (rest : List Transaction) : State :=
  { s with now := now, txAnswer := txAnswer, pending := rest }

/-- An offer that decodes to no instruction: an illegal word answers ILLEGAL and changes no state (R94);
a transaction without exactly its payload is no transaction of the spec (R88; log entry 11). -/
def rejected : Reject → State → Result
  | .unknownOpcode _, s => illegalCommand s
  | .mustBeZero _, s => illegalCommand s
  | .payloadLength want have_, _ => .refused (.payloadLength want have_)

/-- The deterministic harness's answer, "everything sent" (R66): no burst is longer than `SLOT_CAP`,
which is at most 255 (R8). -/
def txAll : Nat := 255

/-- The transactions that put a table word where the next step looks for one. -/
def wordTransactions (now : U32) (nbits w : Nat) : List Transaction :=
  match tableOffer nbits w with
  | some o => [.offer now txAll o]
  | none => []

end Sys2Proof.Machine
end

