-- ==== Sys2Proof/Machine/Step.lean ====
section
/-! DEFINITION. One step: the next transaction the environment offers (R64). -/

namespace Sys2Proof.Machine

/-- One step. The block changes state only in transactions, so with nothing offered it stays as it is
(R64). An offer is decoded and its instruction run on the sampled inputs. -/
def step (s : State) : Host.Outcome State Fault Refusal :=
  match s.pending with
  | [] => .next s
  | .hardwareReset :: rest => hardwareReset { s with pending := rest }
  | .offer now txAnswer o :: rest =>
    match decode o with
    | .ok i => exec i (s.sample now txAnswer rest)
    | .error e => rejected e (s.sample now txAnswer rest)

/-- Place a table word as the next transaction: the command word with an all-zero payload of the length it
calls for, or the received byte; the time as last sampled, the burst taken whole (log entry 5). -/
def State.withFetchWord (s : State) (nbits w : Nat) : State :=
  { s with pending := wordTransactions s.now nbits w ++ s.pending }

end Sys2Proof.Machine
end

