-- ==== Sys2Proof/Safety.lean ====
section
/-! DEFINITION. The terms claims are stated in: the invariant of the machine, the views of its state that the
rules speak of, and the opcode table. -/

namespace Sys2Proof

/-! ### The opcode table -/

/-- Group 0x0_ of R90: (match, mask). -/
def engineRows : List (CmdWord × CmdWord) :=
  [(0x010000000000#48, 0xFFFFFFFFFFFF#48),
   (0x020000000000#48, 0xFF00FFFF0000#48),
   (0x030000000000#48, 0xFFFFFFFFFFFF#48),
   (0x040000000000#48, 0xFFFFFFFFFFFF#48),
   (0x050000000000#48, 0xFFFFFFFFFFFF#48),
   (0x060000000000#48, 0xFF80FFFFFFFF#48),
   (0x070000000000#48, 0xFFFFFFFFFFFF#48),
   (0x080000000000#48, 0xFF80FFFFFFFF#48),
   (0x090000000000#48, 0xFF8000000000#48)]

/-- Group 0x1_ of R90: (match, mask). -/
def rxBufferRows : List (CmdWord × CmdWord) :=
  [(0x100000000000#48, 0xFFFFFFFFFF00#48),
   (0x110000000000#48, 0xFFFFFFFFFFFF#48),
   (0x120000000000#48, 0xFFFF00000000#48),
   (0x130000000000#48, 0xFFFFFFFFFFFF#48),
   (0x140000000000#48, 0xFFFFFFFFFFFF#48),
   (0x150000000000#48, 0xFFFFFFFFFFFF#48)]

/-- Group 0x2_ of R90: (match, mask). -/
def checksumRows : List (CmdWord × CmdWord) :=
  [(0x200000000000#48, 0xFFFFFFFF0000#48),
   (0x210000000000#48, 0xFFFFFFFF0000#48)]

/-- Group 0x3_ of R90: (match, mask). -/
def timerRows : List (CmdWord × CmdWord) :=
  [(0x300000000000#48, 0xFF0000000000#48),
   (0x310000000000#48, 0xFF00FFFFFFFF#48),
   (0x320000000000#48, 0xFF00FFFFFFFF#48),
   (0x330000000000#48, 0xFF00FFFFFFFF#48),
   (0x340000000000#48, 0xFF00FFFFFFFC#48)]

/-- Group 0x4_ of R90: (match, mask). -/
def storeRows : List (CmdWord × CmdWord) :=
  [(0x400000000000#48, 0xFF7FFFFFFFFF#48),
   (0x410000000000#48, 0xFF00FFFFFF00#48),
   (0x420000000000#48, 0xFF0000000000#48),
   (0x430000000000#48, 0xFF0000000000#48),
   (0x440000000000#48, 0xFF00FFFFFFFF#48),
   (0x450000000000#48, 0xFF7FFFFFFFFF#48),
   (0x460000000000#48, 0xFF7FFFFFFFFF#48),
   (0x470000000000#48, 0xFF7FFFFFFFFF#48),
   (0x480000000000#48, 0xFF7FFFFFFFFF#48),
   (0x490000000000#48, 0xFF00FFFFFFFF#48),
   (0x4A0000000000#48, 0xFF00FFFFFFFF#48),
   (0x4B0000000000#48, 0xFF0000000000#48),
   (0x4C0000000000#48, 0xFF00FFFFFFFC#48),
   (0x4D0000000000#48, 0xFF00FFFFFFFF#48),
   (0x4E0000000000#48, 0xFF7FFFFFFFFF#48)]

/-- Group 0x8_ of R90: (match, mask). -/
def parserRows : List (CmdWord × CmdWord) :=
  [(0x800000000000#48, 0xFF80FFFFFFFF#48),
   (0x810000000000#48, 0xFFFFFFFFFFFF#48),
   (0x820000000000#48, 0xFFFFFFFFFFFF#48)]

/-- Group 0x9_ of R90: (match, mask). -/
def nakRows : List (CmdWord × CmdWord) :=
  [(0x900000000000#48, 0xFFFFFFFFFFFF#48),
   (0x910000000000#48, 0xFFFFFFFFFFFF#48),
   (0x920000000000#48, 0xFFFFFFFFFFFF#48),
   (0x930000000000#48, 0xFFFFFFFFFFFE#48)]

/-- The opcode map of R90 with the masks of R91, as `opcode_table.json` lists them. -/
def opcodeRows : List (CmdWord × CmdWord) :=
  engineRows ++ rxBufferRows ++ checksumRows ++ timerRows ++
     storeRows ++ parserRows ++ nakRows

/-- The word matches one row (R90): it is a legal command word. -/
def CmdWord.Legal (w : CmdWord) : Prop := ∃ r ∈ opcodeRows, w &&& r.2 = r.1

/-- The selector of an instruction names something in a block built with `cfg` (R95). -/
def Instr.selectorLegal (cfg : Config) : Instr → Bool
  | .engDeleteRx i | .engRxLen i | .engRxByte i _ | .fpParse i => decide (i.toNat < cfg.nSlots)
  | .tmrStart t _ | .tmrStop t | .tmrRestart t | .tmrTimedout t | .tmrRead t _ =>
    match t with
    | .itmr => true
    | .slot sel => decide (sel.idx.toNat < cfg.nSlots)
  | .msAppend sel _ | .msValidate sel _ | .msMarkRetx sel _ | .msDelete sel | .msIncTx sel
  | .msResetDeadline sel | .msReadByte sel _ | .msReadInfo sel _ | .msDiscard sel =>
    decide (sel.idx.toNat < cfg.nSlots)
  | .engParse | .engTransmit _ _ | .engCountTimeouts | .engHandleTimeouts | .engGetNewestRx
  | .engResetAll | .rxbPush _ | .rxbPop | .rxbPeek _ | .rxbCount | .rxbClear | .rxbOvf | .cksCompute _
  | .cksVerify _ | .msGetFree _ | .msGetOldest _ | .msGetNewest _ | .msCountTimedout _
  | .msOldestTimedout _ | .msClearAll _ | .fpReset | .fpRead | .nakRequest | .nakResetCounter
  | .nakResetState | .nakRead _ | .rxByte _ => true

/-- The operations whose result or effect may depend on `now` (R261). -/
def Instr.readsNow : Instr → Bool
  | .tmrStart _ _ | .tmrRestart _ | .tmrTimedout _ | .msValidate _ _ | .msMarkRetx _ _
  | .msCountTimedout _ | .msOldestTimedout _ | .msResetDeadline _ | .fpParse _ | .engParse
  | .engTransmit _ _ | .engCountTimeouts | .engHandleTimeouts | .rxByte _ => true
  | .engGetNewestRx | .engDeleteRx _ | .engResetAll | .engRxLen _ | .engRxByte _ _ | .rxbPush _
  | .rxbPop | .rxbPeek _ | .rxbCount | .rxbClear | .rxbOvf | .cksCompute _ | .cksVerify _ | .tmrStop _
  | .tmrRead _ _ | .msGetFree _ | .msAppend _ _ | .msDelete _ | .msGetOldest _ | .msGetNewest _
  | .msIncTx _ | .msReadByte _ _ | .msReadInfo _ _ | .msDiscard _ | .msClearAll _ | .fpReset | .fpRead
  | .nakRequest | .nakResetCounter | .nakResetState | .nakRead _ => false

/-- The operations that only read (R70, R287). -/
def Instr.readOnly : Instr → Bool
  | .engCountTimeouts | .engGetNewestRx | .engRxLen _ | .engRxByte _ _ | .rxbPeek _ | .rxbCount | .rxbOvf
  | .cksCompute _ | .cksVerify _ | .tmrTimedout _ | .tmrRead _ _ | .msGetFree _ | .msGetOldest _
  | .msGetNewest _ | .msCountTimedout _ | .msOldestTimedout _ | .msReadByte _ _ | .msReadInfo _ _
  | .fpRead | .nakRead _ => true
  | .engParse | .engTransmit _ _ | .engHandleTimeouts | .engDeleteRx _ | .engResetAll | .rxbPush _
  | .rxbPop | .rxbClear | .tmrStart _ _ | .tmrStop _ | .tmrRestart _ | .msAppend _ _ | .msValidate _ _
  | .msMarkRetx _ _ | .msDelete _ | .msIncTx _ | .msResetDeadline _ | .msDiscard _ | .msClearAll _
  | .fpParse _ | .fpReset | .nakRequest | .nakResetCounter | .nakResetState | .rxByte _ => false

/-- The operations that may bump ranks (R159): those that validate a slot or mark it re-sent. -/
def Instr.bumps : Instr → Bool
  | .msValidate _ _ | .msMarkRetx _ _ | .fpParse _ | .engParse | .engTransmit _ _ | .engHandleTimeouts => true
  | .engCountTimeouts | .engGetNewestRx | .engDeleteRx _ | .engResetAll | .engRxLen _ | .engRxByte _ _
  | .rxbPush _ | .rxbPop | .rxbPeek _ | .rxbCount | .rxbClear | .rxbOvf | .cksCompute _ | .cksVerify _
  | .tmrStart _ _ | .tmrStop _ | .tmrRestart _ | .tmrTimedout _ | .tmrRead _ _ | .msGetFree _ | .msAppend _ _
  | .msDelete _ | .msGetOldest _ | .msGetNewest _ | .msCountTimedout _ | .msOldestTimedout _ | .msIncTx _
  | .msResetDeadline _ | .msReadByte _ _ | .msReadInfo _ _ | .msDiscard _ | .msClearAll _ | .fpReset | .fpRead
  | .nakRequest | .nakResetCounter | .nakResetState | .nakRead _ | .rxByte _ => false

namespace Machine

/-! ### The invariant -/

/-- R145. -/
abbrev Timer.Inv (t : Timer) : Prop := t.target = t.start + t.dur

/-- R22 to R24: the ring's indices are in range, its array is in canonical form and inside `RING_CAP`. -/
abbrev RxBuffer.Inv (cfg : Config) (r : RxBuffer) : Prop :=
  r.rd < cfg.ringCap ∧ r.cnt ≤ cfg.ringCap ∧ r.mem.wf ∧ ∀ c ∈ r.mem, c.1 < cfg.ringCap

/-- R33 to R38, and R39 (a): the buffer is in canonical form and inside `SLOT_CAP`, `len` is at most
`SLOT_CAP`, exactly the valid slots have a rank other than 0, the timer keeps R145. -/
abbrev Slot.Inv (cfg : Config) (sl : Slot) : Prop :=
  sl.buf.wf ∧ (∀ c ∈ sl.buf, c.1 < cfg.slotCap) ∧ sl.len.toNat ≤ cfg.slotCap ∧
    (sl.valid = true ↔ sl.rank ≠ 0#8) ∧ sl.tmr.Inv

/-- R32: a store has `N_SLOTS` slots. -/
abbrev Store.Inv (cfg : Config) (v : Store) : Prop := v.length = cfg.nSlots ∧ ∀ sl ∈ v, sl.Inv cfg

/-- The invariant of the machine: it holds at reset and every step keeps it. -/
abbrev State.Inv (s : State) : Prop :=
  s.cfg.wf = true ∧ s.rxb.Inv s.cfg ∧ s.fp.itmr.Inv ∧ Store.Inv s.cfg s.inb ∧ Store.Inv s.cfg s.outb

/-! ### Ranks (R39) -/

/-- The ranks of the valid slots, in index order. -/
def validRanks (v : Store) : List (BitVec 8) := (v.filter (·.valid)).map (·.rank)

/-- R39 (b): valid slots have pairwise different ranks. -/
abbrev RanksDistinct (v : Store) : Prop := (validRanks v).Nodup

/-- R39 (d): the ranks of the `n` valid slots are exactly `1 .. n`. -/
abbrev RanksDense (v : Store) : Prop :=
  ((validRanks v).map (·.toNat)).Perm (List.range' 1 (validRanks v).length)

/-- No valid slot's rank saturates within `n` bumps. -/
abbrev RankHeadroom (n : Nat) (v : Store) : Prop :=
  ∀ sl ∈ v, sl.valid = true → sl.rank.toNat + n ≤ 255

/-- The model-level error condition of R173 and I7 (log entry 10): a bump for slot `i` meets another valid slot
already at rank 255. The model stops there. -/
abbrev BumpMeetsTop (i : Nat) (v : Store) : Prop :=
  ∃ j, j ≠ i ∧ (slotAt v j).valid = true ∧ (slotAt v j).rank = 255#8

/-- A slot one bump later (R159). -/
def Slot.aged (sl : Slot) : Slot :=
  if sl.valid then { sl with rank := if sl.rank = 255#8 then 255#8 else sl.rank + 1#8 } else sl

/-- Slot `o` is the answer of `ms_get_oldest` (R162): valid, of maximum rank, lowest index on a tie. -/
def IsOldest (v : Store) (o : Nat) : Prop :=
  (slotAt v o).valid = true ∧ ∀ j, (slotAt v j).valid = true →
    (slotAt v j).rank < (slotAt v o).rank ∨ ((slotAt v j).rank = (slotAt v o).rank ∧ o ≤ j)

/-- Slot `o` is the answer of `ms_get_newest` (R163): valid, of minimum rank, lowest index on a tie. -/
def IsNewest (v : Store) (o : Nat) : Prop :=
  (slotAt v o).valid = true ∧ ∀ j, (slotAt v j).valid = true →
    (slotAt v o).rank < (slotAt v j).rank ∨ ((slotAt v j).rank = (slotAt v o).rank ∧ o ≤ j)

/-- Slot `d` is the answer of `ms_get_free` (R156): the lowest index of the store that is not valid. -/
def IsFirstFree (v : Store) (d : Nat) : Prop :=
  d < v.length ∧ (slotAt v d).valid = false ∧ ∀ j, j < d → (slotAt v j).valid = true

/-- `w` is the store `v` with slot `i` changed to `sl` and nothing else. -/
def ChangedAt (v w : Store) (i : Nat) (sl : Slot) : Prop :=
  w.length = v.length ∧ slotAt w i = sl ∧ ∀ j, j ≠ i → slotAt w j = slotAt v j

/-- `w` is `v` after a bump for slot `i` (R159), slot `i` itself having become `sl`. -/
def BumpedTo (v w : Store) (i : Nat) (sl : Slot) : Prop :=
  w.length = v.length ∧ slotAt w i = sl ∧ ∀ j, j ≠ i → slotAt w j = (slotAt v j).aged

/-- `w` is `v` after the valid slot `i` was freed (R165): every valid slot older than it moves down one
rank, nothing else changes. -/
def DeletedFrom (v w : Store) (i : Nat) : Prop :=
  w.length = v.length ∧
  slotAt w i = { slotAt v i with
    valid := false, rank := 0#8, len := 0#8, txc := 0#8,
    tmr := { (slotAt v i).tmr with active := false } } ∧
  ∀ j, j ≠ i → slotAt w j =
    if (slotAt v j).valid = true ∧ (slotAt v i).rank < (slotAt v j).rank then
      { slotAt v j with rank := (slotAt v j).rank - 1#8 }
    else slotAt v j

/-! ### Views the rules speak of -/

/-- `Q(rxb)`. -/
def State.q (s : State) : List Byte := contents s.cfg.ringCap s.rxb

/-- The integrity timer as step 2 of the parser leaves it when bytes are pending (R194). -/
def State.armedItmr (s : State) : Timer :=
  if s.fp.itmr.active then s.fp.itmr else ⟨s.now, tIntegrity, s.now + tIntegrity, true⟩

/-- A timer started at `now` for `d` ticks (R140). -/
def Timer.started (now d : U32) : Timer := ⟨now, d, now + d, true⟩

/-- Some entry of the whitelist admits the command with this length (R8). -/
def WlAdmits (wl : List WlEntry) (c : Byte) (l : Nat) : Prop :=
  ∃ e ∈ wl, e.cmd = c ∧ e.lo ≤ l ∧ l ≤ e.hi

/-- The xor of the bytes and the seed 0xAA (R130). -/
def xorFold (s : List Byte) : Byte := s.foldr (· ^^^ ·) 0xAA#8

/-- A received frame the parser must accept (R80, R81, R85, R132): header legal, all bytes there, fold zero. -/
def LegalFrame (cfg : Config) (f : List Byte) : Prop :=
  ∃ c l tail, f = magicRx :: c :: l :: tail ∧ tail.length = l.toNat + 1 ∧
    WlAdmits cfg.wlRx c l.toNat ∧ xorFold f = 0#8

/-- The bytes that stand before the checksum, with the checksum of R82 behind them. -/
def withChecksum (s : List Byte) : List Byte := s ++ [xorFold s]

/-- The response `OK, v`. -/
def okRsp (v : U32) : Option Response := some ⟨0x00#8, v⟩
/-- The response `FAIL, v`. -/
def failRsp (v : U32) : Option Response := some ⟨0x01#8, v⟩
/-- The response `ILLEGAL, 0`. -/
def illegalRsp : Option Response := some ⟨0xFF#8, 0#32⟩

/-- `sat8(v + 1)` (R10), on the number. -/
def satSucc (v : BitVec 8) : BitVec 8 := BitVec.ofNat 8 (min 255 (v.toNat + 1))

/-- `w` is the store `v` with every slot freed (R166): buffers and the timers' fields are kept. -/
def ClearedFrom (v w : Store) : Prop :=
  w.length = v.length ∧ ∀ j, j < v.length → slotAt w j = { slotAt v j with
    valid := false, rank := 0#8, len := 0#8, txc := 0#8,
    tmr := { (slotAt v j).tmr with active := false } }

/-- The slot holds exactly the bytes `f`, and its bytes beyond them are those of `old`. -/
def Slot.Holds (sl old : Slot) (f : List Byte) : Prop :=
  sl.len.toNat = f.length ∧ sl.buf.bytes f.length = f ∧
    ∀ a, f.length ≤ a → sl.buf.read a = old.buf.read a

/-- A slot just validated (R160): valid, newest, no failure counted, its deadline running from `now`. -/
def Slot.JustValidated (sl : Slot) (now d : U32) : Prop :=
  sl.valid = true ∧ sl.rank = 1#8 ∧ sl.txc = 0#8 ∧ sl.tmr = Timer.started now d

/-- The command `i`, on the integrity timer or on a slot's timer, completes: it changes that timer by `f`
and nothing else, and answers `OK, 0`. -/
def WritesTimer (s : State) (i : TSel → Instr) (f : Timer → Timer) : Prop :=
  exec (i .itmr) s = .next { s with
    fp := { s.fp with itmr := f s.fp.itmr }, rsp := okRsp 0#32, trace := [] } ∧
  ∀ sel : SSel, sel.idx.toNat < s.cfg.nSlots → ∃ v,
    exec (i (.slot sel)) s = .next { s.setStore sel.store v with rsp := okRsp 0#32, trace := [] } ∧
    ChangedAt (s.store sel.store) v sel.idx.toNat { s.slot sel with tmr := f (s.slot sel).tmr }

/-- The command `i` on a slot completes: it changes that slot by `f` and nothing else, and answers `OK, 0`. -/
def WritesSlot (s : State) (i : SSel → Instr) (f : Slot → Slot) : Prop :=
  ∀ sel : SSel, sel.idx.toNat < s.cfg.nSlots → ∃ v,
    exec (i sel) s = .next { s.setStore sel.store v with rsp := okRsp 0#32, trace := [] } ∧
    ChangedAt (s.store sel.store) v sel.idx.toNat (f (s.slot sel))

/-- The instruction completes with the response `r` and changes nothing else; its output trace is empty. -/
def Answers (s : State) (i : Instr) (r : Option Response) : Prop :=
  exec i s = .next { s with rsp := r, trace := [] }

/-- The command word of an instruction without payload, by its three fields (R87, R90). -/
def EncodedAs (i : Instr) (op a : Byte) (b : U32) : Prop := encode i = .command (op ++ a ++ b) []

/-! ### What no operation can observe (R25, R33, I4) -/

/-- Two slots that differ at most in buffer bytes at or beyond `len`. -/
def Slot.Alike (a b : Slot) : Prop :=
  a.len = b.len ∧ a.rank = b.rank ∧ a.valid = b.valid ∧ a.txc = b.txc ∧ a.tmr = b.tmr ∧
    ∀ k, k < a.len.toNat → a.buf.read k = b.buf.read k

/-- Two states that differ at most in what no operation may observe: where the ring's live window lies,
ring bytes outside it, and slot bytes at or beyond `len`. -/
def State.Alike (s t : State) : Prop :=
  s.q = t.q ∧ List.Forall₂ Slot.Alike s.inb t.inb ∧ List.Forall₂ Slot.Alike s.outb t.outb ∧
  s.rxb.ovf = t.rxb.ovf ∧ s.cfg = t.cfg ∧ s.fp = t.fp ∧ s.nak = t.nak ∧ s.eng = t.eng ∧
  s.now = t.now ∧ s.txAnswer = t.txAnswer ∧ s.rsp = t.rsp ∧ s.trace = t.trace ∧ s.pending = t.pending

/-! ### The FIFO law's abstract queue (R121) -/

/-- A push or a pop of the ReceiveBuffer. -/
inductive RingOp where
  | push (b : Byte)
  | pop
deriving DecidableEq, Repr

/-- What a push or a pop answers: whether the byte was accepted, or the byte taken, if any. -/
inductive RingAnswer where
  | pushed (accepted : Bool)
  | popped (b : Option Byte)
deriving DecidableEq, Repr

/-- A sequence of operations on the ring: the answers and the ring after them. -/
def runRing (cap : Nat) : List RingOp → RxBuffer → List RingAnswer × RxBuffer
  | [], r => ([], r)
  | .push b :: ops, r =>
    (.pushed (rxbPush cap b r).1 :: (runRing cap ops (rxbPush cap b r).2).1,
      (runRing cap ops (rxbPush cap b r).2).2)
  | .pop :: ops, r =>
    (.popped (rxbPop cap r).1 :: (runRing cap ops (rxbPop cap r).2).1,
      (runRing cap ops (rxbPop cap r).2).2)

/-- The same sequence on a queue of at most `cap` bytes. -/
def runQueue (cap : Nat) : List RingOp → List Byte → List RingAnswer × List Byte
  | [], q => ([], q)
  | .push b :: ops, q =>
    if q.length < cap then
      (.pushed true :: (runQueue cap ops (q ++ [b])).1, (runQueue cap ops (q ++ [b])).2)
    else (.pushed false :: (runQueue cap ops q).1, (runQueue cap ops q).2)
  | .pop :: ops, q =>
    (.popped q.head? :: (runQueue cap ops q.tail).1, (runQueue cap ops q.tail).2)

/-- Whether a push of the sequence was rejected. -/
def someRejected (l : List RingAnswer) : Bool := l.any (· == .pushed false)

end Machine

end Sys2Proof
end

