-- ==== Sys2Proof/Certificates/Slice0/Obligations.lean ====
section
/-! DEFINITION. The statements for the provers. Each holds for every configuration the state may carry; where
one needs a well-formed configuration or the machine's invariant it says so. -/

open Sys2Proof Sys2Proof.Machine

/-! ### Encoding (R87 to R101) -/

/-- R87 to R92: decoding the encoding of any well-formed instruction gives it back. -/
def Obligations.DecodeOfEncodeIsIdentity : Prop :=
  ∀ i : Instr, i.wf = true → decode (encode i) = .ok i

/-- R90, R91: a word has one meaning; a command transaction that decodes is the encoding of what it decodes
to, so no bit of a legal word is ignored, and the instruction is well formed. -/
def Obligations.DecodedCommandIsItsEncoding : Prop :=
  ∀ (w : CmdWord) (payload : List Byte) (i : Instr), decodeCommand w payload = .ok i →
    encode i = .command w payload ∧ i.wf = true

/-- R101, R88: carried over a byte-wide channel, six bytes most significant first and then the payload, a
command decodes to itself and exactly its bytes are consumed. -/
def Obligations.CarriedCommandDecodes : Prop :=
  ∀ (i : Instr) (w : CmdWord) (payload rest : List Byte), i.wf = true → encode i = .command w payload →
    decodeBytes ([w.extractLsb' 40 8, w.extractLsb' 32 8, w.extractLsb' 24 8, w.extractLsb' 16 8,
      w.extractLsb' 8 8, w.extractLsb' 0 8] ++ payload ++ rest) = .ok (i, rest)

/-- R90: the decoder accepts a command word, with some payload, exactly when it matches a row of the opcode
map. -/
def Obligations.LegalWordsAreTheOpcodeMap : Prop :=
  ∀ w : CmdWord, w.Legal ↔ ∃ payload i, decodeCommand w payload = .ok i

/-- R94: a command word that matches no row answers ILLEGAL with value 0 and an empty output trace, and the
step changes nothing but the sampled inputs. -/
def Obligations.IllegalWordChangesNothing : Prop :=
  ∀ (s : State) (now : U32) (txAnswer : Nat) (w : CmdWord) (rest : List Transaction),
    s.cfg.wf = true → s.pending = .offer now txAnswer (.command w []) :: rest → ¬ w.Legal →
    step s = .next { s with
      now := now, txAnswer := txAnswer, pending := rest, rsp := illegalRsp, trace := [] }

/-- R95: a legal word whose selector names nothing answers ILLEGAL and changes no state; no other operand
value is illegal. -/
def Obligations.IllegalSelectorChangesNothing : Prop :=
  ∀ (s : State) (i : Instr), s.cfg.wf = true →
    (i.selectorLegal s.cfg = false → Answers s i illegalRsp) ∧
    (i.selectorLegal s.cfg = true → ∀ t, exec i s = .next t → ∀ r, t.rsp = some r → r.status ≠ 0xFF#8)

/-- R90, R91, R98: words of every group, written out from the spec's tables and vectors, decode to the
instructions they stand for (a sanity statement on fixed words). -/
def Obligations.SpecWordsDecode : Prop :=
  decode (.command 0x010000000000#48 []) = .ok .engParse ∧
  decode (.command 0x027000000001#48 [0x11#8]) = .ok (.engTransmit 0x70#8 [0x11#8]) ∧
  decode (.command 0x1200FFFFFFFF#48 []) = .ok (.rxbPeek 0xFFFFFFFF#32) ∧
  decode (.command 0x210000000001#48 [0xAA#8]) = .ok (.cksVerify [0xAA#8]) ∧
  decode (.command 0x307F00001000#48 []) = .ok (.tmrStart .itmr 0x1000#32) ∧
  decode (.command 0x348000000002#48 []) = .ok (.tmrRead (.slot ⟨.outb, 0#7⟩) .target) ∧
  decode (.command 0x4282000003E8#48 []) = .ok (.msValidate ⟨.outb, 2#7⟩ 1000#32) ∧
  decode (.command 0x4C8100000003#48 []) = .ok (.msReadInfo ⟨.outb, 1#7⟩ .txc) ∧
  decode (.command 0x800000000000#48 []) = .ok (.fpParse 0#7) ∧
  decode (.command 0x930000000001#48 []) = .ok (.nakRead .many) ∧
  decode (.rxByte 0xF8#8) = .ok (.rxByte 0xF8#8)

/-! ### Steps and reset (R64, R300) -/

/-- R64, R65: when what is offered next decodes to an instruction, the step is `exec` of it on the sampled
time and transport answer, what comes later still pending; with nothing offered the block stays as it is
(log entry 4: the model's list of offers). -/
def Obligations.StepRunsTheDecodedInstruction : Prop :=
  (∀ (s : State) (now : U32) (txAnswer : Nat) (o : Offer) (rest : List Transaction) (i : Instr),
    s.pending = .offer now txAnswer o :: rest → decode o = .ok i →
    step s = exec i { s with now := now, txAnswer := txAnswer, pending := rest }) ∧
  ∀ s : State, s.pending = [] → step s = .next s

/-- R300, R301: hardware reset gives every element of the block its reset value whatever it was, with no
response and an empty output trace; the configuration is the same before and after. (Unwritten bytes read 0
and the input latches take 0 by log entries 6, 7 and 9: the model's choices.) -/
def Obligations.HardwareResetGivesResetState : Prop :=
  ∀ (s : State) (rest : List Transaction), s.cfg.wf = true → s.pending = .hardwareReset :: rest →
    ∃ t, step s = .next t ∧ t.cfg = s.cfg ∧ t.pending = rest ∧ t.rsp = none ∧ t.trace = [] ∧
      t.rxb.rd = 0 ∧ t.rxb.cnt = 0 ∧ t.rxb.ovf = false ∧ t.fp = ⟨false, ⟨0#32, 0#32, 0#32, false⟩⟩ ∧
      t.nak = ⟨0#8, false⟩ ∧ t.eng = ⟨false⟩ ∧
      ∀ st, (t.store st).length = s.cfg.nSlots ∧ ∀ sl ∈ t.store st,
        sl.len = 0#8 ∧ sl.rank = 0#8 ∧ sl.valid = false ∧ sl.txc = 0#8 ∧
          sl.tmr = ⟨0#32, 0#32, 0#32, false⟩

/-- R301: the initial state has every reset value the spec gives. (That it is built with `REFCFG` is the
model's choice, log entry 2.) -/
def Obligations.ResetStateHasResetValues : Prop :=
  State.reset.q = [] ∧ State.reset.rxb.rd = 0 ∧ State.reset.rxb.ovf = false ∧
  State.reset.fp = ⟨false, ⟨0#32, 0#32, 0#32, false⟩⟩ ∧ State.reset.nak = ⟨0#8, false⟩ ∧
  State.reset.eng = ⟨false⟩ ∧
  ∀ st, (State.reset.store st).length = 5 ∧ ∀ sl ∈ State.reset.store st,
    sl.len = 0#8 ∧ sl.rank = 0#8 ∧ sl.valid = false ∧ sl.txc = 0#8 ∧ sl.tmr = ⟨0#32, 0#32, 0#32, false⟩

/-! ### Whole-machine rules -/

/-- The invariant holds at reset, and the ranks of either store are distinct and dense there. -/
def Obligations.ResetSatisfiesInvariant : Prop :=
  State.reset.Inv ∧ ∀ st, RanksDistinct (State.reset.store st) ∧ RanksDense (State.reset.store st)

/-- From every state with the invariant, a step gives a state with the invariant: indices in range, byte arrays
canonical and inside their capacity, `target = start + dur` in every timer (R145), exactly the valid slots
ranked (R39 a), `N_SLOTS` slots in either store. -/
def Obligations.EveryStepKeepsInvariant : Prop :=
  ∀ s t : State, s.Inv → step s = .next t → t.Inv

/-- R39 (b), R173: from every state with the invariant, whatever the ranks, a step that gives a next state keeps the
ranks of the valid slots of either store pairwise different. (A step whose bump would meet rank 255 gives none.) -/
def Obligations.EveryStepKeepsRanksDistinct : Prop :=
  ∀ s t : State, s.Inv → (∀ st, RanksDistinct (s.store st)) → step s = .next t →
    ∀ st, RanksDistinct (t.store st)

/-- R25, R33, I4: two states that differ at most in where the ring's live window lies, in ring bytes outside
it and in slot bytes at or beyond `len` take the same steps: same responses, same output traces, and the
states after differ at most in that again. -/
def Obligations.HiddenBytesAreNeverObserved : Prop :=
  ∀ s t s' : State, s.Inv → t.Inv → s.Alike t → step s = .next s' →
    ∃ t', step t = .next t' ∧ s'.Alike t'

/-- R74, R304: no step changes the configuration. Each takes one transaction from what is offered, a hardware reset
too, and an empty list stays empty: the list of offers is the model's choice, log entries 4 and 13. -/
def Obligations.NoStepChangesConfiguration : Prop :=
  ∀ s t : State, step s = .next t → t.cfg = s.cfg ∧ t.pending = s.pending.tail

/-- R11, R260: every operation of a block that exists answers a next state, but where a bump would meet rank 255: there
the model stops (R173, log entry 10), which only the operations that bump can do, and never with valid ranks of at
most `255 - N_SLOTS`. With an ill-formed configuration every operation stops (log entry 3, from R8 and I3: the
model's own stop). -/
def Obligations.EveryOperationIsTotal : Prop :=
  ∀ (i : Instr) (s : State),
    (s.cfg.wf = true → (∃ t, exec i s = .next t) ∨ (i.bumps = true ∧ exec i s = .fault .rankSaturation)) ∧
    (s.cfg.wf = true → (∀ st, RankHeadroom s.cfg.nSlots (s.store st)) → ∃ t, exec i s = .next t) ∧
    (s.cfg.wf = false → exec i s = .fault .illFormedConfiguration)

/-- R261: the effect and the result of every operation not listed there are independent of `now`. -/
def Obligations.OtherOperationsIgnoreNow : Prop :=
  ∀ (i : Instr) (s t : State) (n : U32), i.readsNow = false → exec i s = .next t →
    exec i { s with now := n } = .next { t with now := n }

/-- R262: which operations emit output events, and how many. -/
def Obligations.OutputEventsOnlyWhereListed : Prop :=
  ∀ (i : Instr) (s t : State), exec i s = .next t →
    (i = .engResetAll → t.trace = [.rxStop, .rxStart]) ∧
    (i = .engHandleTimeouts → t.trace.length ≤ s.cfg.nSlots ∧ ∀ e ∈ t.trace, ∃ bytes, e = .tx bytes) ∧
    ((i = .nakRequest ∨ i = .engParse ∨ ∃ cmd data, i = .engTransmit cmd data) →
      t.trace = [] ∨ ∃ bytes, t.trace = [.tx bytes]) ∧
    (i ≠ .engResetAll → i ≠ .engHandleTimeouts → i ≠ .nakRequest → i ≠ .engParse →
      (∀ cmd data, i ≠ .engTransmit cmd data) → t.trace = [])

/-- R70: the reading operations change no state, and issued again at the same `now` they answer the same. -/
def Obligations.ReadsChangeNothing : Prop :=
  ∀ (i : Instr) (s t : State), i.readOnly = true → exec i s = .next t →
    t = { s with rsp := t.rsp, trace := [] } ∧ exec i t = .next t

/-- R44 with R26, R41, R42: which operations may clear the overflow latch, set it, clear or set the "too many"
flag, and change the reception-enable level. -/
def Obligations.StickyFlagsChangeOnlyWhereListed : Prop :=
  ∀ (i : Instr) (s t : State), exec i s = .next t →
    (s.rxb.ovf = true → t.rxb.ovf = false →
      i = .rxbClear ∨ i = .fpReset ∨ i = .engParse ∨ i = .engResetAll ∨ ∃ d, i = .fpParse d) ∧
    (s.rxb.ovf = false → t.rxb.ovf = true →
      s.rxb.cnt = s.cfg.ringCap ∧ ∃ b, i = .rxbPush b ∨ i = .rxByte b) ∧
    (s.nak.many = true → t.nak.many = false → i = .nakResetState ∨ i = .engResetAll) ∧
    (s.nak.many = false → t.nak.many = true → i = .nakRequest ∨ i = .engParse) ∧
    (t.eng ≠ s.eng → i = .engResetAll)

/-! ### ByteRing and ReceiveBuffer -/

/-- R115 with R110: a push appends to the ring when there is room, storing at `(rd + cnt) mod RING_CAP` and
nowhere else; when the ring is full the byte is lost, nothing is overwritten and the latch is set. -/
def Obligations.RxbPushAppendsOrLatches : Prop :=
  (∀ b : Byte, EncodedAs (.rxbPush b) 0x10#8 0#8 (b.setWidth 32)) ∧
  ∀ (s : State) (b : Byte), s.Inv →
    (s.rxb.cnt < s.cfg.ringCap → ∃ r,
      exec (.rxbPush b) s = .next { s with rxb := r, rsp := okRsp 0#32, trace := [] } ∧
      contents s.cfg.ringCap r = s.q ++ [b] ∧
      r.rd = s.rxb.rd ∧ r.cnt = s.rxb.cnt + 1 ∧ r.ovf = s.rxb.ovf ∧
      r.mem.read (ringIndex s.cfg.ringCap s.rxb s.rxb.cnt) = b ∧
      ∀ a, a ≠ ringIndex s.cfg.ringCap s.rxb s.rxb.cnt → r.mem.read a = s.rxb.mem.read a) ∧
    (s.rxb.cnt = s.cfg.ringCap →
      exec (.rxbPush b) s = .next { s with
        rxb := { s.rxb with ovf := true }, rsp := failRsp 0#32, trace := [] })

/-- R116 with R111: a pop removes and answers the oldest byte, the overflow latch untouched; an empty ring
answers FAIL and stays as it is. -/
def Obligations.RxbPopTakesTheOldest : Prop :=
  EncodedAs .rxbPop 0x11#8 0#8 0#32 ∧
  ∀ s : State, s.Inv →
    (∀ b q, s.q = b :: q → ∃ r,
      exec .rxbPop s = .next { s with rxb := r, rsp := okRsp (b.setWidth 32), trace := [] } ∧
      contents s.cfg.ringCap r = q ∧ r.rd = (s.rxb.rd + 1) % s.cfg.ringCap ∧ r.ovf = s.rxb.ovf ∧
      ∀ a, r.mem.read a = s.rxb.mem.read a) ∧
    (s.q = [] → Answers s .rxbPop (failRsp 0#32))

/-- R117 with R112: a peek answers the byte at its offset from the oldest, FAIL for every offset at or beyond
the occupancy, and writes nothing. -/
def Obligations.RxbPeekReadsAtOffset : Prop :=
  (∀ off : U32, EncodedAs (.rxbPeek off) 0x12#8 0#8 off) ∧
  ∀ (s : State) (off : U32), s.Inv →
    (∀ b, s.q[off.toNat]? = some b → Answers s (.rxbPeek off) (okRsp (b.setWidth 32))) ∧
    (s.q.length ≤ off.toNat → Answers s (.rxbPeek off) (failRsp 0#32))

/-- R231: the RX byte event restarts a running integrity timer, keeping its duration, and pushes the byte, in
one transaction; a rejected byte sets the latch and the timer is restarted all the same; no response. -/
def Obligations.RxByteRestartsAndPushes : Prop :=
  ∀ (s : State) (b : Byte) (tm : Timer), s.Inv →
    (s.fp.itmr.active = true → tm = ⟨s.now, s.fp.itmr.dur, s.now + s.fp.itmr.dur, true⟩) →
    (s.fp.itmr.active = false → tm = s.fp.itmr) →
    (s.rxb.cnt < s.cfg.ringCap → ∃ r,
      exec (.rxByte b) s = .next { s with
        rxb := r, fp := { s.fp with itmr := tm }, rsp := none, trace := [] } ∧
      contents s.cfg.ringCap r = s.q ++ [b] ∧
      r.rd = s.rxb.rd ∧ r.cnt = s.rxb.cnt + 1 ∧ r.ovf = s.rxb.ovf ∧
      r.mem.read (ringIndex s.cfg.ringCap s.rxb s.rxb.cnt) = b ∧
      ∀ a, a ≠ ringIndex s.cfg.ringCap s.rxb s.rxb.cnt → r.mem.read a = s.rxb.mem.read a) ∧
    (s.rxb.cnt = s.cfg.ringCap →
      exec (.rxByte b) s = .next { s with
        rxb := { s.rxb with ovf := true }, fp := { s.fp with itmr := tm }, rsp := none, trace := [] })

/-- R121, R122, R25: for any sequence of pushes and pops, from any ring whose indices are in range and whose array
is in canonical form, the circular buffer answers exactly as a bounded FIFO queue and holds its bytes afterwards, and
the overflow latch is set exactly when it was set before or some push was rejected. -/
def Obligations.RingIsABoundedFifo : Prop :=
  ∀ (cap : Nat) (ops : List RingOp) (r : RxBuffer), r.rd < cap → r.cnt ≤ cap → r.mem.wf →
    (runRing cap ops r).1 = (runQueue cap ops (contents cap r)).1 ∧
    contents cap (runRing cap ops r).2 = (runQueue cap ops (contents cap r)).2 ∧
    (runRing cap ops r).2.ovf = (r.ovf || someRejected (runRing cap ops r).1)

/-! ### ChecksumXOR -/

/-- R131, R132: `CKS_COMPUTE` answers the xor of the payload bytes and the seed, `CKS_VERIFY` whether it is 0;
neither writes any state. -/
def Obligations.ChecksumCommandsAnswerTheFold : Prop :=
  (∀ data : List Byte, data.length < 65536 →
    encode (.cksCompute data) = .command (0x20#8 ++ 0#8 ++ BitVec.ofNat 32 data.length) data ∧
    encode (.cksVerify data) = .command (0x21#8 ++ 0#8 ++ BitVec.ofNat 32 data.length) data) ∧
  ∀ (s : State) (data : List Byte), s.cfg.wf = true →
    Answers s (.cksCompute data) (okRsp ((xorFold data).setWidth 32)) ∧
    (xorFold data = 0#8 → Answers s (.cksVerify data) (okRsp 1#32)) ∧
    (xorFold data ≠ 0#8 → Answers s (.cksVerify data) (okRsp 0#32))

/-- R130: the fold's arithmetic law. -/
def Obligations.FoldIsOrderBlind : Prop :=
  ∀ (s t : List Byte) (c : Byte),
    fold s = xorFold s ∧ fold [] = 0xAA#8 ∧ fold (s ++ t) = fold s ^^^ fold t ^^^ 0xAA#8 ∧
    fold (s ++ [c]) = fold s ^^^ c ∧ (s.Perm t → fold s = fold t)

/-- R133, R134: the fold behind its own bytes folds to zero; changing one byte of a sequence that folds to zero
is always detected, and flipping bit `k` leaves the fold `2^k`. -/
def Obligations.SingleByteChangeIsDetected : Prop :=
  ∀ (s : List Byte) (i : Nat) (b c : Byte),
    cksVerify (s ++ [fold s]) = true ∧
    (cksVerify s = true → s[i]? = some b →
      (c ≠ b → cksVerify (s.set i c) = false) ∧
      ∀ k, k < 8 → fold (s.set i (b ^^^ (1#8 <<< k))) = 1#8 <<< k)

/-! ### SoftwareTimer -/

/-- R140, R141, R142: start sets all four fields from `now` and the duration, stop clears only `active`,
restart reuses the last duration and activates; the frame is the rest of the state. -/
def Obligations.TimerCommandsWriteOneTimer : Prop :=
  (∀ (t : TSel) (d : U32), EncodedAs (.tmrStart t d) 0x30#8 t.byte d ∧
    EncodedAs (.tmrStop t) 0x31#8 t.byte 0#32 ∧ EncodedAs (.tmrRestart t) 0x32#8 t.byte 0#32) ∧
  ∀ (s : State) (d : U32), s.Inv →
    WritesTimer s (.tmrStart · d) (fun _ => ⟨s.now, d, s.now + d, true⟩) ∧
    WritesTimer s .tmrStop (fun t => ⟨t.start, t.dur, t.target, false⟩) ∧
    WritesTimer s .tmrRestart (fun t => ⟨s.now, t.dur, s.now + t.dur, true⟩)

/-- R143, R145, R146: a timer is timed out exactly when it is active and more than its duration has gone by,
modulo 2^32, since its start; both ends of the arc are not timed out. -/
def Obligations.TimedOutIsOffTheArc : Prop :=
  (∀ t : TSel, EncodedAs (.tmrTimedout t) 0x33#8 t.byte 0#32) ∧
  ∀ (s : State) (t : TSel), s.Inv → (Instr.tmrTimedout t).selectorLegal s.cfg = true →
    ((s.timer t).active = true ∧ (s.timer t).dur < s.now - (s.timer t).start →
      Answers s (.tmrTimedout t) (okRsp 1#32)) ∧
    (((s.timer t).active = false ∨ s.now - (s.timer t).start ≤ (s.timer t).dur) →
      Answers s (.tmrTimedout t) (okRsp 0#32))

/-- R146: an active timer is not timed out for exactly `dur + 1` values of `now`. -/
def Obligations.ArcHasDurPlusOneInstants : Prop :=
  ∀ t : Timer, t.Inv → t.active = true →
    Set.ncard {now : U32 | t.timedOut now = false} = t.dur.toNat + 1

/-! ### MessageSlotStore -/

/-- R156: the lowest index that is not valid, or NONE; nothing is reserved. -/
def Obligations.GetFreeAnswersFirstFree : Prop :=
  (∀ st, EncodedAs (.msGetFree st) 0x40#8 (SSel.mk st 0#7).byte 0#32) ∧
  ∀ (s : State) (st : StoreSel), s.cfg.wf = true →
    (∀ d, IsFirstFree (s.store st) d → Answers s (.msGetFree st) (okRsp (BitVec.ofNat 32 d))) ∧
    ((∀ sl ∈ s.store st, sl.valid = true) → Answers s (.msGetFree st) (failRsp 0xFF#32))

/-- R157: an append stores the byte at `len` and nowhere else and grows `len` by one; a full buffer answers
FAIL and nothing is written. -/
def Obligations.AppendStoresAtLen : Prop :=
  (∀ (sel : SSel) (b : Byte), EncodedAs (.msAppend sel b) 0x41#8 sel.byte (b.setWidth 32)) ∧
  ∀ (s : State) (sel : SSel) (b : Byte), s.Inv → sel.idx.toNat < s.cfg.nSlots →
    ((s.slot sel).len.toNat < s.cfg.slotCap → ∃ v m,
      exec (.msAppend sel b) s = .next { s.setStore sel.store v with rsp := okRsp 0#32, trace := [] } ∧
      ChangedAt (s.store sel.store) v sel.idx.toNat
        { s.slot sel with buf := m, len := BitVec.ofNat 8 ((s.slot sel).len.toNat + 1) } ∧
      m.read (s.slot sel).len.toNat = b ∧
      ∀ a, a ≠ (s.slot sel).len.toNat → m.read a = (s.slot sel).buf.read a) ∧
    ((s.slot sel).len.toNat = s.cfg.slotCap → Answers s (.msAppend sel b) (failRsp 0#32))

/-- R159, R160, R161: validating or marking a slot ranks it 1, moves every other valid slot one rank up, makes it valid
and starts its deadline; validating also clears its transmission count, marking keeps it; `len` and `buf` stay. The
bump itself saturates at 255. That the model stops where one of these commands would bump a valid slot already at 255
is its reading of R173, log entry 10. -/
def Obligations.ValidateAndMarkRankNewest : Prop :=
  (∀ (sel : SSel) (d : U32), EncodedAs (.msValidate sel d) 0x42#8 sel.byte d ∧
    EncodedAs (.msMarkRetx sel d) 0x43#8 sel.byte d) ∧
  (∀ (v : Store) (i : Nat), i < v.length → BumpedTo v (bump i v) i { slotAt v i with rank := 1#8 }) ∧
  ∀ (s : State) (sel : SSel) (d : U32), s.Inv → sel.idx.toNat < s.cfg.nSlots →
    (¬ BumpMeetsTop sel.idx.toNat (s.store sel.store) → ∃ v w,
      exec (.msValidate sel d) s = .next { s.setStore sel.store v with rsp := okRsp 0#32, trace := [] } ∧
      BumpedTo (s.store sel.store) v sel.idx.toNat { s.slot sel with
        rank := 1#8, valid := true, txc := 0#8, tmr := ⟨s.now, d, s.now + d, true⟩ } ∧
      exec (.msMarkRetx sel d) s = .next { s.setStore sel.store w with rsp := okRsp 0#32, trace := [] } ∧
      BumpedTo (s.store sel.store) w sel.idx.toNat { s.slot sel with
        rank := 1#8, valid := true, tmr := ⟨s.now, d, s.now + d, true⟩ }) ∧
    (BumpMeetsTop sel.idx.toNat (s.store sel.store) →
      exec (.msValidate sel d) s = .fault .rankSaturation ∧
      exec (.msMarkRetx sel d) s = .fault .rankSaturation)

/-- R165: deleting a valid slot frees it and moves every older valid slot one rank down; deleting a free slot
does nothing at all. `ENG_DELETE_RX` (R248) does this on the inbound store. -/
def Obligations.DeleteFreesAndClosesTheHole : Prop :=
  (∀ sel : SSel, EncodedAs (.msDelete sel) 0x44#8 sel.byte 0#32 ∧
    EncodedAs (.engDeleteRx sel.idx) 0x06#8 (sel.idx.setWidth 8) 0#32) ∧
  ∀ (s : State) (sel : SSel), s.Inv → sel.idx.toNat < s.cfg.nSlots →
    ((s.slot sel).valid = true → ∃ v,
      exec (.msDelete sel) s = .next { s.setStore sel.store v with rsp := okRsp 0#32, trace := [] } ∧
      DeletedFrom (s.store sel.store) v sel.idx.toNat) ∧
    ((s.slot sel).valid = false → Answers s (.msDelete sel) (okRsp 0#32)) ∧
    ((s.slot ⟨.inb, sel.idx⟩).valid = true → ∃ v,
      exec (.engDeleteRx sel.idx) s = .next { s with inb := v, rsp := okRsp 0#32, trace := [] } ∧
      DeletedFrom s.inb v sel.idx.toNat) ∧
    ((s.slot ⟨.inb, sel.idx⟩).valid = false → Answers s (.engDeleteRx sel.idx) (okRsp 0#32))

/-- R162, R163, R247: the valid slot of maximum and of minimum rank, the lowest index on a tie, NONE for a store
with no valid slot; `ENG_GET_NEWEST_RX` is the newest of the inbound store. -/
def Obligations.OldestAndNewestByRank : Prop :=
  (∀ st, EncodedAs (.msGetOldest st) 0x45#8 (SSel.mk st 0#7).byte 0#32 ∧
    EncodedAs (.msGetNewest st) 0x46#8 (SSel.mk st 0#7).byte 0#32 ∧
    EncodedAs .engGetNewestRx 0x05#8 0#8 0#32) ∧
  ∀ (s : State) (st : StoreSel), s.cfg.wf = true →
    (∀ o, IsOldest (s.store st) o → Answers s (.msGetOldest st) (okRsp (BitVec.ofNat 32 o))) ∧
    (∀ o, IsNewest (s.store st) o → Answers s (.msGetNewest st) (okRsp (BitVec.ofNat 32 o))) ∧
    ((∀ sl ∈ s.store st, sl.valid = false) →
      Answers s (.msGetOldest st) (failRsp 0xFF#32) ∧ Answers s (.msGetNewest st) (failRsp 0xFF#32)) ∧
    (∀ o, IsNewest s.inb o → Answers s .engGetNewestRx (okRsp (BitVec.ofNat 32 o))) ∧
    ((∀ sl ∈ s.inb, sl.valid = false) → Answers s .engGetNewestRx (failRsp 0xFF#32))

/-- R167, R168, R242: how many valid slots are past their deadline, and whether the oldest is; false for a store
with no valid slot; `ENG_COUNT_TIMEOUTS` counts the outbound store. -/
def Obligations.TimeoutQueriesCountOverdueSlots : Prop :=
  (∀ st, EncodedAs (.msCountTimedout st) 0x47#8 (SSel.mk st 0#7).byte 0#32 ∧
    EncodedAs (.msOldestTimedout st) 0x48#8 (SSel.mk st 0#7).byte 0#32 ∧
    EncodedAs .engCountTimeouts 0x03#8 0#8 0#32) ∧
  ∀ (s : State) (st : StoreSel) (late : Store → Nat → Bool), s.Inv →
    (∀ v j, late v j = ((slotAt v j).valid && (slotAt v j).tmr.timedOut s.now)) →
    Answers s (.msCountTimedout st)
      (okRsp (BitVec.ofNat 32 ((List.range s.cfg.nSlots).filter (late (s.store st))).length)) ∧
    Answers s .engCountTimeouts
      (okRsp (BitVec.ofNat 32 ((List.range s.cfg.nSlots).filter (late s.outb)).length)) ∧
    (∀ o, IsOldest (s.store st) o → Answers s (.msOldestTimedout st)
      (okRsp (if late (s.store st) o then 1#32 else 0#32))) ∧
    ((∀ sl ∈ s.store st, sl.valid = false) → Answers s (.msOldestTimedout st) (okRsp 0#32))

/-- R158, R169, R170: discard empties the slot, the transmission count goes up by one and stays at 255, the
deadline restarts with the timer's last duration; each changes that and nothing else. -/
def Obligations.SlotCommandsChangeOneField : Prop :=
  (∀ sel : SSel, EncodedAs (.msIncTx sel) 0x49#8 sel.byte 0#32 ∧
    EncodedAs (.msResetDeadline sel) 0x4A#8 sel.byte 0#32 ∧ EncodedAs (.msDiscard sel) 0x4D#8 sel.byte 0#32) ∧
  ∀ s : State, s.Inv →
    WritesSlot s .msDiscard (fun sl => { sl with len := 0#8 }) ∧
    WritesSlot s .msIncTx (fun sl => { sl with txc := satSucc sl.txc }) ∧
    WritesSlot s .msResetDeadline (fun sl =>
      { sl with tmr := ⟨s.now, sl.tmr.dur, s.now + sl.tmr.dur, true⟩ })

/-- R118, R120, R144, R171, R172, R203, R224, R249, R250: what each read of a state element answers. -/
def Obligations.ReadsAnswerTheElement : Prop :=
  ∀ (s : State) (t : TSel) (sel : SSel) (off : U32), s.Inv →
    (Instr.tmrStop t).selectorLegal s.cfg = true → sel.idx.toNat < s.cfg.nSlots →
    Answers s .rxbCount (okRsp (BitVec.ofNat 32 s.q.length)) ∧
    Answers s .rxbOvf (okRsp (if s.rxb.ovf then 1#32 else 0#32)) ∧
    Answers s .fpRead (okRsp (if s.fp.fail then 1#32 else 0#32)) ∧
    Answers s (.nakRead .cnt) (okRsp (s.nak.cnt.setWidth 32)) ∧
    Answers s (.nakRead .many) (okRsp (if s.nak.many then 1#32 else 0#32)) ∧
    Answers s (.tmrRead t .start) (okRsp (s.timer t).start) ∧
    Answers s (.tmrRead t .dur) (okRsp (s.timer t).dur) ∧
    Answers s (.tmrRead t .target) (okRsp (s.timer t).target) ∧
    Answers s (.tmrRead t .active) (okRsp (if (s.timer t).active then 1#32 else 0#32)) ∧
    Answers s (.msReadInfo sel .len) (okRsp ((s.slot sel).len.setWidth 32)) ∧
    Answers s (.msReadInfo sel .rank) (okRsp ((s.slot sel).rank.setWidth 32)) ∧
    Answers s (.msReadInfo sel .valid) (okRsp (if (s.slot sel).valid then 1#32 else 0#32)) ∧
    Answers s (.msReadInfo sel .txc) (okRsp ((s.slot sel).txc.setWidth 32)) ∧
    Answers s (.engRxLen sel.idx) (okRsp ((s.slot ⟨.inb, sel.idx⟩).len.setWidth 32)) ∧
    (∀ b, ((s.slot sel).buf.bytes (s.slot sel).len.toNat)[off.toNat]? = some b →
      Answers s (.msReadByte sel off) (okRsp (b.setWidth 32))) ∧
    ((s.slot sel).len.toNat ≤ off.toNat → Answers s (.msReadByte sel off) (failRsp 0#32)) ∧
    (∀ b, ((s.slot ⟨.inb, sel.idx⟩).buf.bytes (s.slot ⟨.inb, sel.idx⟩).len.toNat)[off.toNat]? = some b →
      Answers s (.engRxByte sel.idx off) (okRsp (b.setWidth 32))) ∧
    ((s.slot ⟨.inb, sel.idx⟩).len.toNat ≤ off.toNat →
      Answers s (.engRxByte sel.idx off) (failRsp 0#32))

/-- R39 (c) and its last sentences: after a validate or a mark exactly one valid slot has rank 1; short of
saturation a bump keeps the order of the other valid slots, and a deletion keeps the order of those whose
ranks differ from the deleted one's. -/
def Obligations.RankOrderIsKept : Prop :=
  ∀ (v : Store) (i j k : Nat) (now d : U32), i < v.length →
    (∀ sl ∈ v, sl.valid = true ↔ sl.rank ≠ 0#8) →
    (validRanks (msValidate i now d v)).count 1#8 = 1 ∧
    (validRanks (msMarkRetx i now d v)).count 1#8 = 1 ∧
    (j ≠ i → k ≠ i → (slotAt v j).valid = true → (slotAt v k).valid = true →
      ((slotAt v j).rank ≠ 255#8 → (slotAt v k).rank ≠ 255#8 →
        ((slotAt (bump i v) j).rank < (slotAt (bump i v) k).rank ↔
          (slotAt v j).rank < (slotAt v k).rank)) ∧
      ((slotAt v j).rank ≠ (slotAt v i).rank → (slotAt v k).rank ≠ (slotAt v i).rank →
        ((slotAt (msDelete i v) j).rank < (slotAt (msDelete i v) k).rank ↔
          (slotAt v j).rank < (slotAt v k).rank)))

/-- R39 (d): dense ranks stay dense when any valid slot is deleted, when a free slot is validated, and when the
oldest slot is marked. -/
def Obligations.DenseRanksStayDense : Prop :=
  ∀ (v : Store) (i : Nat) (now d : U32), v.length ≤ 127 → RanksDense v →
    ((slotAt v i).valid = true → RanksDense (msDelete i v)) ∧
    (i < v.length → (slotAt v i).valid = false → RanksDense (msValidate i now d v)) ∧
    (IsOldest v i → RanksDense (msMarkRetx i now d v))

/-! ### FrameParser -/

/-- R193, R195, with the order of R277: an overflowed ring, or a pending one whose integrity timer has expired, is
emptied; the failure latch toggles and chooses between a NAK request and a bare timeout. Only the expiry stops
the timer. -/
def Obligations.ParserDiscardsTheRing : Prop :=
  ∀ (s : State) (d : BitVec 7), s.cfg.wf = true → d.toNat < s.cfg.nSlots →
    (s.rxb.ovf = true → exec (.fpParse d) s = .next { s with
      rxb := { s.rxb with rd := 0, cnt := 0, ovf := false }, fp := { s.fp with fail := !s.fp.fail },
      rsp := okRsp (if s.fp.fail then 4#32 else 2#32), trace := [] }) ∧
    (s.rxb.ovf = false → s.q ≠ [] → s.fp.itmr.timedOut s.now = true →
      exec (.fpParse d) s = .next { s with
        rxb := { s.rxb with rd := 0, cnt := 0, ovf := false },
        fp := ⟨!s.fp.fail, { s.fp.itmr with active := false }⟩,
        rsp := okRsp (if s.fp.fail then 4#32 else 2#32), trace := [] })

/-- R194, R196, R198: with nothing pending, with fewer than four bytes, or with a legal header whose frame has not
fully arrived, the parser answers P_TOO_FEW; it has started an inactive integrity timer if bytes are pending,
and changes nothing else. -/
def Obligations.ParserWaitsForMoreBytes : Prop :=
  ∀ (s : State) (d : BitVec 7), s.Inv → d.toNat < s.cfg.nSlots → s.rxb.ovf = false →
    (s.q = [] → Answers s (.fpParse d) (okRsp 1#32)) ∧
    (s.q ≠ [] → s.armedItmr.timedOut s.now = false →
      (s.q.length < 4 ∨ ∃ c l rest, s.q = magicRx :: c :: l :: rest ∧
        WlAdmits s.cfg.wlRx c l.toNat ∧ s.q.length < l.toNat + 4) →
      exec (.fpParse d) s = .next { s with
        fp := { s.fp with itmr := s.armedItmr }, rsp := okRsp 1#32, trace := [] })

/-- R197, R199, R201: a bad header, or a whole candidate frame that does not fold to zero, drops exactly one byte;
the first failure of a burst sets the latch and requests a NAK, a later one reports the drop. A bad checksum
leaves the destination emptied, its bytes beyond the copy as they were. -/
def Obligations.ParserDropsOneByte : Prop :=
  ∀ (s : State) (d : BitVec 7) (m c l x : Byte) (rest : List Byte), s.Inv → d.toNat < s.cfg.nSlots →
    s.rxb.ovf = false → s.armedItmr.timedOut s.now = false → s.q = m :: c :: l :: x :: rest →
    (¬ (m = magicRx ∧ WlAdmits s.cfg.wlRx c l.toNat) → ∃ r,
      exec (.fpParse d) s = .next { s with
        rxb := r, fp := ⟨true, s.armedItmr⟩,
        rsp := okRsp (if s.fp.fail then 3#32 else 2#32), trace := [] } ∧
      contents s.cfg.ringCap r = c :: l :: x :: rest ∧ r.ovf = false ∧
      ∀ a, r.mem.read a = s.rxb.mem.read a) ∧
    (m = magicRx → WlAdmits s.cfg.wlRx c l.toNat → l.toNat + 4 ≤ s.q.length →
      xorFold (s.q.take (l.toNat + 4)) ≠ 0#8 → ∃ r v buf,
      exec (.fpParse d) s = .next { s with
        rxb := r, fp := ⟨true, s.armedItmr⟩, inb := v,
        rsp := okRsp (if s.fp.fail then 3#32 else 2#32), trace := [] } ∧
      contents s.cfg.ringCap r = c :: l :: x :: rest ∧ r.ovf = false ∧
      (∀ a, r.mem.read a = s.rxb.mem.read a) ∧
      ChangedAt s.inb v d.toNat { slotAt s.inb d.toNat with buf := buf, len := 0#8 } ∧
      ∀ a, l.toNat + 4 ≤ a → buf.read a = (slotAt s.inb d.toNat).buf.read a)

/-- R200: a whole legal frame at the front of the ring is consumed, exactly its bytes; the destination holds it,
newest, with the acknowledgement window running; the latch is clear and the integrity timer stopped. That
the model stops where another valid inbound slot is already at rank 255 is its reading of R173, log entry 10. -/
def Obligations.ParserAcceptsALegalFrame : Prop :=
  ∀ (s : State) (d : BitVec 7) (f rest : List Byte), s.Inv → d.toNat < s.cfg.nSlots →
    s.rxb.ovf = false → s.armedItmr.timedOut s.now = false → LegalFrame s.cfg f → s.q = f ++ rest →
    (¬ BumpMeetsTop d.toNat s.inb → ∃ r v sl,
      exec (.fpParse d) s = .next { s with
        rxb := r, fp := ⟨false, { s.armedItmr with active := false }⟩, inb := v,
        rsp := okRsp 0#32, trace := [] } ∧
      contents s.cfg.ringCap r = rest ∧ r.ovf = false ∧ (∀ a, r.mem.read a = s.rxb.mem.read a) ∧
      BumpedTo s.inb v d.toNat sl ∧ sl.Holds (slotAt s.inb d.toNat) f ∧ sl.JustValidated s.now 1000#32) ∧
    (BumpMeetsTop d.toNat s.inb → exec (.fpParse d) s = .fault .rankSaturation)

/-- R204: every return of P_REQ_NAK leaves the latch set, every return of P_TIMEOUT or P_OK leaves it clear, the
other two leave it as it was. -/
def Obligations.FailureLatchFollowsTheOutcome : Prop :=
  ∀ (s t : State) (d : BitVec 7), s.cfg.wf = true → d.toNat < s.cfg.nSlots →
    exec (.fpParse d) s = .next t →
    (t.rsp = okRsp 2#32 ∧ t.fp.fail = true) ∨
    ((t.rsp = okRsp 0#32 ∨ t.rsp = okRsp 4#32) ∧ t.fp.fail = false) ∨
    ((t.rsp = okRsp 1#32 ∨ t.rsp = okRsp 3#32) ∧ t.fp.fail = s.fp.fail)

/-- R207: the four bytes 02 50 00 F8 alone in an idle ReceiveBuffer are accepted (short of a saturating bump, log entry
10); with any one of them changed the outcome is a NAK request, or a dropped byte while already recovering, and no
slot of either store becomes valid. -/
def Obligations.NoFalseAccept : Prop :=
  ∀ (s : State) (d : BitVec 7) (k : Nat) (b : Byte), s.Inv → d.toNat < s.cfg.nSlots →
    s.rxb.ovf = false → s.fp.itmr.active = false → k < 4 →
    s.q = [0x02#8, 0x50#8, 0x00#8, 0xF8#8].set k b →
    ([0x02#8, 0x50#8, 0x00#8, 0xF8#8][k]? = some b →
      (¬ BumpMeetsTop d.toNat s.inb → ∃ t, exec (.fpParse d) s = .next t ∧ t.rsp = okRsp 0#32) ∧
      (BumpMeetsTop d.toNat s.inb → exec (.fpParse d) s = .fault .rankSaturation)) ∧
    ([0x02#8, 0x50#8, 0x00#8, 0xF8#8][k]? ≠ some b →
      ∃ t, exec (.fpParse d) s = .next t ∧ t.rsp = okRsp (if s.fp.fail then 3#32 else 2#32) ∧
        (∀ j, (slotAt t.inb j).valid = (slotAt s.inb j).valid) ∧ t.outb = s.outb)

/-! ### Partial resets and NAKEscalation -/

/-- R119, R166, R202, R222, R223: what each partial reset clears, and that it clears nothing else. -/
def Obligations.PartialResetsClearTheirPart : Prop :=
  (∀ st, EncodedAs .rxbClear 0x14#8 0#8 0#32 ∧ EncodedAs .fpReset 0x81#8 0#8 0#32 ∧
    EncodedAs .nakResetCounter 0x91#8 0#8 0#32 ∧ EncodedAs .nakResetState 0x92#8 0#8 0#32 ∧
    EncodedAs (.msClearAll st) 0x4E#8 (SSel.mk st 0#7).byte 0#32) ∧
  ∀ (s : State) (st : StoreSel), s.cfg.wf = true →
    exec .rxbClear s = .next { s with
      rxb := { s.rxb with rd := 0, cnt := 0, ovf := false }, rsp := okRsp 0#32, trace := [] } ∧
    exec .fpReset s = .next { s with
      rxb := { s.rxb with rd := 0, cnt := 0, ovf := false },
      fp := ⟨false, { s.fp.itmr with active := false }⟩, rsp := okRsp 0#32, trace := [] } ∧
    exec .nakResetCounter s = .next { s with
      nak := { s.nak with cnt := 0#8 }, rsp := okRsp 0#32, trace := [] } ∧
    exec .nakResetState s = .next { s with
      nak := { s.nak with many := false }, rsp := okRsp 0#32, trace := [] } ∧
    ∃ v, exec (.msClearAll st) s = .next { s.setStore st v with rsp := okRsp 0#32, trace := [] } ∧
      ClearedFrom (s.store st) v

/-- R220, R221: the counter goes up by one, staying at 255; below 3 the four-byte NAK frame is emitted and the
"too many" flag stays as it was, at or above 3 nothing is emitted and the flag is set. -/
def Obligations.NakRequestEmitsBelowThree : Prop :=
  EncodedAs .nakRequest 0x90#8 0#8 0#32 ∧
  ∀ s : State, s.cfg.wf = true →
    ((satSucc s.nak.cnt).toNat < 3 → exec .nakRequest s = .next { s with
      nak := { s.nak with cnt := satSucc s.nak.cnt }, rsp := okRsp 1#32,
      trace := [.tx (withChecksum [s.cfg.magicTx, s.cfg.cmdNak, 0x00#8])] }) ∧
    (3 ≤ (satSucc s.nak.cnt).toNat → exec .nakRequest s = .next { s with
      nak := ⟨satSucc s.nak.cnt, true⟩, rsp := okRsp 0#32, trace := [] })

/-! ### ProtocolEngine -/

/-- R233: with no free inbound slot the engine answers E_CRITICAL at once and no state changes. -/
def Obligations.NoFreeInboundSlotIsCritical : Prop :=
  ∀ s : State, s.cfg.wf = true → (∀ sl ∈ s.inb, sl.valid = true) → Answers s .engParse (okRsp 3#32)

/-- R234, R235: with a free inbound slot the engine runs the parser into the first one; too few bytes, a dropped
byte and a bare timeout become E_NOTHING; a NAK request goes to the guard, and the outcome is E_CRITICAL exactly
when "too many" is set after it. -/
def Obligations.EngineMapsParserOutcomes : Prop :=
  ∀ (s u : State) (d : Nat), s.Inv → IsFirstFree s.inb d →
    exec (.fpParse (BitVec.ofNat 7 d)) s = .next u →
    ((u.rsp = okRsp 1#32 ∨ u.rsp = okRsp 3#32 ∨ u.rsp = okRsp 4#32) →
      exec .engParse s = .next { u with rsp := okRsp 0#32 }) ∧
    (u.rsp = okRsp 2#32 → (satSucc s.nak.cnt).toNat < 3 → exec .engParse s = .next { u with
      nak := { s.nak with cnt := satSucc s.nak.cnt },
      rsp := okRsp (if s.nak.many then 3#32 else 1#32),
      trace := [.tx (withChecksum [s.cfg.magicTx, s.cfg.cmdNak, 0x00#8])] }) ∧
    (u.rsp = okRsp 2#32 → 3 ≤ (satSucc s.nak.cnt).toNat → exec .engParse s = .next { u with
      nak := ⟨satSucc s.nak.cnt, true⟩, rsp := okRsp 3#32 })

/-- R236, R237: the acknowledgement frame at the front of the ring is consumed, the NAK counter cleared, the inbound
slot it passed through freed again with the other inbound slots as they were, and the oldest outbound slot freed;
E_NOTHING, nothing emitted. (Where another inbound slot is at rank 255 the model stops: see
`CleanFrameStopsAtTheTop`.) -/
def Obligations.AckFreesTheOldestOutbound : Prop :=
  ∀ (s : State) (d : Nat) (rest : List Byte), s.Inv → s.rxb.ovf = false →
    s.armedItmr.timedOut s.now = false → IsFirstFree s.inb d → ¬ BumpMeetsTop d s.inb →
    s.q = [0x02#8, 0x50#8, 0x00#8, 0xF8#8] ++ rest → ∃ r v w buf,
      exec .engParse s = .next { s with
        rxb := r, fp := ⟨false, { s.armedItmr with active := false }⟩, inb := v, outb := w,
        nak := { s.nak with cnt := 0#8 }, rsp := okRsp 0#32, trace := [] } ∧
      contents s.cfg.ringCap r = rest ∧ r.ovf = false ∧ (∀ a, r.mem.read a = s.rxb.mem.read a) ∧
      ChangedAt s.inb v d
        ⟨buf, 0#8, 0#8, false, 0#8, ⟨s.now, 1000#32, s.now + 1000#32, false⟩⟩ ∧
      (∀ a, 4 ≤ a → buf.read a = (slotAt s.inb d).buf.read a) ∧
      ((∀ sl ∈ s.outb, sl.valid = false) → w = s.outb) ∧
      ∀ o, IsOldest s.outb o → DeletedFrom s.outb w o

/-- R238, R244: a negative acknowledgement counts a failure of the oldest outbound message; at the third the slot is
left as it is and the outcome is E_CRITICAL, before that its bytes are sent again, it becomes the newest and its
deadline restarts. With no valid outbound slot nothing happens. R173: where the re-send's bump would meet rank 255 the
model stops (log entry 10; for the inbound bump see `CleanFrameStopsAtTheTop`). -/
def Obligations.NakFrameRetriesTheOldestOutbound : Prop :=
  ∀ (s : State) (d : Nat) (rest : List Byte), s.Inv → s.rxb.ovf = false →
    s.armedItmr.timedOut s.now = false → IsFirstFree s.inb d → ¬ BumpMeetsTop d s.inb →
    s.q = withChecksum [0x02#8, s.cfg.cmdNak, 0x00#8] ++ rest →
    (∀ o, IsOldest s.outb o → (satSucc (slotAt s.outb o).txc).toNat < 3 → BumpMeetsTop o s.outb →
      exec .engParse s = .fault .rankSaturation) ∧
    ((∀ o, IsOldest s.outb o → (satSucc (slotAt s.outb o).txc).toNat < 3 → ¬ BumpMeetsTop o s.outb) →
      ∃ r v w buf code tr,
      exec .engParse s = .next { s with
        rxb := r, fp := ⟨false, { s.armedItmr with active := false }⟩, inb := v, outb := w,
        nak := { s.nak with cnt := 0#8 }, rsp := okRsp code, trace := tr } ∧
      contents s.cfg.ringCap r = rest ∧ r.ovf = false ∧ (∀ a, r.mem.read a = s.rxb.mem.read a) ∧
      ChangedAt s.inb v d
        ⟨buf, 0#8, 0#8, false, 0#8, ⟨s.now, 1000#32, s.now + 1000#32, false⟩⟩ ∧
      (∀ a, 4 ≤ a → buf.read a = (slotAt s.inb d).buf.read a) ∧
      ((∀ sl ∈ s.outb, sl.valid = false) → w = s.outb ∧ code = 0#32 ∧ tr = []) ∧
      ∀ o, IsOldest s.outb o →
        (3 ≤ (satSucc (slotAt s.outb o).txc).toNat → code = 3#32 ∧ tr = [] ∧
          ChangedAt s.outb w o { slotAt s.outb o with txc := satSucc (slotAt s.outb o).txc }) ∧
        ((satSucc (slotAt s.outb o).txc).toNat < 3 → code = 0#32 ∧
          tr = [.tx ((slotAt s.outb o).buf.bytes (slotAt s.outb o).len.toNat)] ∧
          BumpedTo s.outb w o { slotAt s.outb o with
            rank := 1#8, txc := satSucc (slotAt s.outb o).txc,
            tmr := ⟨s.now, s.cfg.tTxDeadline, s.now + s.cfg.tTxDeadline, true⟩ }))

/-- R236, R239: a legal frame of any other command is acknowledged at once, stays in the first free inbound slot as
the newest message, and is surfaced as E_NEW_MESSAGE. (Where another inbound slot is at rank 255 the model stops: see
`CleanFrameStopsAtTheTop`.) -/
def Obligations.ApplicationFrameIsAckedAndSurfaced : Prop :=
  ∀ (s : State) (d : Nat) (m c : Byte) (f rest : List Byte), s.Inv → s.rxb.ovf = false →
    s.armedItmr.timedOut s.now = false → IsFirstFree s.inb d → LegalFrame s.cfg (m :: c :: f) →
    c ≠ 0x50#8 → c ≠ s.cfg.cmdNak → ¬ BumpMeetsTop d s.inb → s.q = (m :: c :: f) ++ rest → ∃ r v sl,
      exec .engParse s = .next { s with
        rxb := r, fp := ⟨false, { s.armedItmr with active := false }⟩, inb := v,
        nak := { s.nak with cnt := 0#8 }, rsp := okRsp 2#32,
        trace := [.tx (withChecksum [s.cfg.magicTx, 0x50#8, 0x00#8])] } ∧
      contents s.cfg.ringCap r = rest ∧ r.ovf = false ∧ (∀ a, r.mem.read a = s.rxb.mem.read a) ∧
      BumpedTo s.inb v d sl ∧ sl.Holds (slotAt s.inb d) (m :: c :: f) ∧ sl.JustValidated s.now 1000#32

/-- R173: where a legal frame of any command is at the front and the bump for the first free inbound slot would meet a
valid slot already at rank 255, the model stops (log entry 10). -/
def Obligations.CleanFrameStopsAtTheTop : Prop :=
  ∀ (s : State) (d : Nat) (f rest : List Byte), s.Inv → s.rxb.ovf = false →
    s.armedItmr.timedOut s.now = false → IsFirstFree s.inb d → BumpMeetsTop d s.inb →
    LegalFrame s.cfg f → s.q = f ++ rest → exec .engParse s = .fault .rankSaturation

/-- R240, R241: `ENG_TRANSMIT` refuses a long payload, a command or length outside the whitelist and a full outbound
store with no state change; otherwise it stages the frame in the first free slot and hands it to the transport,
and registers it only if every byte was taken. The transport's answer is the
number `txAnswer` by log entry 7, the model's choice. That the model stops where registering the frame would meet a
valid slot already at rank 255 is its reading of R173, log entry 10. -/
def Obligations.TransmitSendsAndRegisters : Prop :=
  (∀ (cmd : Byte) (data : List Byte), data.length < 65536 →
    encode (.engTransmit cmd data) = .command (0x02#8 ++ cmd ++ BitVec.ofNat 32 data.length) data) ∧
  ∀ (s : State) (cmd : Byte) (data frame : List Byte), s.Inv →
    frame = withChecksum (s.cfg.magicTx :: cmd :: BitVec.ofNat 8 data.length :: data) →
    ((255 < data.length ∨ ¬ WlAdmits s.cfg.wlTx cmd data.length ∨ ∀ sl ∈ s.outb, sl.valid = true) →
      Answers s (.engTransmit cmd data) (failRsp 0#32)) ∧
    ∀ o, WlAdmits s.cfg.wlTx cmd data.length → IsFirstFree s.outb o →
      (data.length + 4 ≤ s.txAnswer → ¬ BumpMeetsTop o s.outb → ∃ w sl,
        exec (.engTransmit cmd data) s = .next { s with
          outb := w, rsp := okRsp 0#32, trace := [.tx frame] } ∧
        BumpedTo s.outb w o sl ∧ sl.Holds (slotAt s.outb o) frame ∧
        sl.JustValidated s.now s.cfg.tTxDeadline) ∧
      (data.length + 4 ≤ s.txAnswer → BumpMeetsTop o s.outb →
        exec (.engTransmit cmd data) s = .fault .rankSaturation) ∧
      (s.txAnswer < data.length + 4 → ∃ w buf,
        exec (.engTransmit cmd data) s = .next { s with
          outb := w, rsp := failRsp 0#32, trace := [.tx frame] } ∧
        ChangedAt s.outb w o { slotAt s.outb o with buf := buf, len := 0#8 } ∧
        ∀ a, data.length + 4 ≤ a → buf.read a = (slotAt s.outb o).buf.read a)

/-- R243, R244, with R159, R161: one scan retries exactly the outbound slots overdue at entry: each counts a failure;
those below three failures are sent again, in index order, with a new deadline; those at three are left with their
timer. Of the slots sent again the last is ranked 1, the one before it 2, and so on; every other valid slot ages by
as many ranks as slots were sent again. The answer is E_CRITICAL exactly when some slot failed. Nothing else changes.
`older j` is how often slot `j` is bumped before it is ranked anew, if it is: a bump meets rank 255 exactly where
some valid slot's rank and `older` exceed 255 together. That the model stops there is its reading of R173, log
entry 10. -/
def Obligations.TimeoutScanRetriesOverdueSlots : Prop :=
  EncodedAs .engHandleTimeouts 0x04#8 0#8 0#32 ∧
  ∀ (s : State) (late spent again : Nat → Bool) (older : Nat → Nat), s.Inv →
    (∀ j, late j = ((slotAt s.outb j).valid && (slotAt s.outb j).tmr.timedOut s.now)) →
    (∀ j, spent j = decide (3 ≤ (satSucc (slotAt s.outb j).txc).toNat)) →
    (∀ j, again j = (late j && !spent j)) →
    (∀ j, older j = ((List.range (if again j then j else s.cfg.nSlots)).filter again).length) →
    ((∃ j, (slotAt s.outb j).valid = true ∧ 255 < (slotAt s.outb j).rank.toNat + older j) →
      exec .engHandleTimeouts s = .fault .rankSaturation) ∧
    ((∀ j, (slotAt s.outb j).valid = true → (slotAt s.outb j).rank.toNat + older j ≤ 255) → ∃ w,
      exec .engHandleTimeouts s = .next { s with
        outb := w,
        rsp := okRsp (if (List.range s.cfg.nSlots).any (fun j => late j && spent j) then 3#32 else 0#32),
        trace := ((List.range s.cfg.nSlots).filter again).map fun j =>
          .tx ((slotAt s.outb j).buf.bytes (slotAt s.outb j).len.toNat) } ∧
      w.length = s.outb.length ∧
      ∀ j, slotAt w j = { slotAt s.outb j with
        rank :=
          if again j then
            BitVec.ofNat 8 (1 + ((List.range s.cfg.nSlots).filter fun k => decide (j < k) && again k).length)
          else if (slotAt s.outb j).valid then BitVec.ofNat 8 ((slotAt s.outb j).rank.toNat + older j)
          else (slotAt s.outb j).rank
        txc := if late j then satSucc (slotAt s.outb j).txc else (slotAt s.outb j).txc
        tmr := if again j then ⟨s.now, s.cfg.tTxDeadline, s.now + s.cfg.tTxDeadline, true⟩
          else (slotAt s.outb j).tmr })

/-- R280, R253: `ENG_PARSE` answers E_CRITICAL in exactly these cases: no free inbound slot; a NAK request after which
"too many" is set; an inbound negative acknowledgement that is the third failure, or a later one, of the oldest
outbound message. -/
def Obligations.ParseIsCriticalExactlyWhenListed : Prop :=
  ∀ s t : State, s.Inv → exec .engParse s = .next t →
    (t.rsp = okRsp 3#32 ↔
      (∀ sl ∈ s.inb, sl.valid = true) ∨
      ∃ d, IsFirstFree s.inb d ∧
        (((fpParse d s).1 = .reqNak ∧ (s.nak.many = true ∨ 2 ≤ s.nak.cnt.toNat)) ∨
          ((fpParse d s).1 = .ok ∧ s.q[1]? = some s.cfg.cmdNak ∧
            ∃ o, IsOldest s.outb o ∧ 2 ≤ (slotAt s.outb o).txc.toNat)))

/-- R252, R302: the full reset frees every slot of both stores, empties the ring, clears the latches, stops the
integrity timer, resets the NAK guard, and turns reception off and on again; timer fields and bytes stay. -/
def Obligations.ResetAllDiscardsInFlightState : Prop :=
  EncodedAs .engResetAll 0x07#8 0#8 0#32 ∧
  ∀ s : State, s.cfg.wf = true → ∃ v w,
    exec .engResetAll s = .next { s with
      rxb := { s.rxb with rd := 0, cnt := 0, ovf := false },
      fp := ⟨false, { s.fp.itmr with active := false }⟩, inb := v, outb := w, nak := ⟨0#8, false⟩,
      eng := ⟨true⟩, rsp := okRsp 0#32, trace := [.rxStop, .rxStart] } ∧
    ClearedFrom s.inb v ∧ ClearedFrom s.outb w
end

