-- ==== Sys2Proof/Laws/Checksum.lean ====
section
/-! SUPPORT. The fold, byte by byte. -/

namespace Sys2Proof.Machine

theorem foldl_xor_eq (s : List Byte) (a : Byte) :
    s.foldl (· ^^^ ·) a = s.foldr (· ^^^ ·) a := by
  induction s generalizing a with
  | nil => rfl
  | cons b s ih =>
    rw [List.foldl_cons, List.foldr_cons, ih]
    clear ih
    induction s with
    | nil => exact BitVec.xor_comm _ _
    | cons c s ih => rw [List.foldr_cons, List.foldr_cons, ih, ← BitVec.xor_assoc, ← BitVec.xor_assoc, BitVec.xor_comm c b]

/-- The machine's left fold is the xor of the bytes and the seed. -/
theorem fold_eq_xorFold (s : List Byte) : fold s = xorFold s := foldl_xor_eq s _

theorem cksVerify_iff (s : List Byte) : cksVerify s = true ↔ xorFold s = 0#8 := by
  rw [← fold_eq_xorFold]; simp [cksVerify]

@[simp] theorem xorFold_nil : xorFold [] = 0xAA#8 := rfl
@[simp] theorem xorFold_cons (b : Byte) (s : List Byte) : xorFold (b :: s) = b ^^^ xorFold s := rfl

theorem fold_append (s t : List Byte) : fold (s ++ t) = t.foldl (· ^^^ ·) (fold s) := List.foldl_append

/-- The meta-frames the engine sends end in the checksum of R82. -/
theorem metaFrame_eq (cfg : Config) (cmd : Byte) :
    metaFrame cfg cmd = withChecksum [cfg.magicTx, cmd, 0x00#8] := by
  simp [metaFrame, withChecksum, fold_eq_xorFold]

end Sys2Proof.Machine
end

