-- ==== Sys2Proof/Laws/Config.lean ====
section
/-! SUPPORT. What a well-formed configuration gives (R7, R8), and the whitelist lookups. -/

namespace Sys2Proof.Machine

theorem wlOk_iff {wl : List WlEntry} {c : Byte} {l : Nat} : wlOk wl c l = true ↔ WlAdmits wl c l := by
  simp [wlOk, WlAdmits, List.any_eq_true, and_assoc]

theorem headerOk_iff {cfg : Config} {m c l : Byte} :
    headerOk cfg m c l = true ↔ m = magicRx ∧ WlAdmits cfg.wlRx c l.toNat := by
  simp [headerOk, wlOk_iff]

theorem wf_parts {cfg : Config} (h : cfg.wf = true) :
    cfg.ringOk = true ∧ cfg.magicOk = true ∧ cfg.nakOk = true ∧ cfg.rangesOk = true ∧ cfg.uniqueOk = true ∧
      cfg.metaRxOk = true ∧ cfg.metaTxOk = true ∧ cfg.slotCapOk = true ∧ cfg.nSlotsOk = true := by
  simpa [Config.wf, and_assoc] using h

theorem wf_ringCap {cfg : Config} (h : cfg.wf = true) : 36 ≤ cfg.ringCap ∧ cfg.ringCap ≤ 65535 := by
  have := (wf_parts h).1
  simpa [Config.ringOk, frameMax] using this

theorem wf_nSlots {cfg : Config} (h : cfg.wf = true) : 1 ≤ cfg.nSlots ∧ cfg.nSlots ≤ 127 := by
  have := (wf_parts h).2.2.2.2.2.2.2.2
  simpa [Config.nSlotsOk] using this

theorem wf_slotCap {cfg : Config} (h : cfg.wf = true) : cfg.slotCap ≤ 255 := by
  have := (wf_parts h).2.2.2.2.2.2.2.1
  simp only [Config.slotCapOk, Bool.and_eq_true, decide_eq_true_eq] at this
  exact this.2

theorem wf_cmdNak {cfg : Config} (h : cfg.wf = true) : cfg.cmdNak ≠ cmdAck := by
  have := (wf_parts h).2.2.1
  simpa [Config.nakOk] using this

/-- An admitted length is at most `MAX_PAYLOAD`, and its frame fits a slot (R8 a, e). -/
theorem admitted_fits {cfg : Config} (h : cfg.wf = true) {c : Byte} {l : Nat}
    (hl : WlAdmits cfg.wlRx c l ∨ WlAdmits cfg.wlTx c l) : l ≤ 32 ∧ l + 4 ≤ cfg.slotCap := by
  have h1 := (wf_parts h).2.2.2.1
  have h2 := (wf_parts h).2.2.2.2.2.2.2.1
  simp only [Config.rangesOk, Config.slotCapOk, Bool.and_eq_true, List.all_eq_true, decide_eq_true_eq,
    List.mem_append] at h1 h2
  obtain ⟨e, he, -, -, hle⟩ : ∃ e, (e ∈ cfg.wlRx ∨ e ∈ cfg.wlTx) ∧ e.cmd = c ∧ e.lo ≤ l ∧ l ≤ e.hi := by
    rcases hl with ⟨e, he, h⟩ | ⟨e, he, h⟩
    · exact ⟨e, .inl he, h⟩
    · exact ⟨e, .inr he, h⟩
  have h3 := h1 e he
  have h4 := h2.1 e he
  simp only [maxPayload, minFrame] at h3 h4
  omega

/-- A command of `WL_RX` that has the entry `(c, 0, 0)` is admitted with length 0 only (R8 b, c). -/
theorem meta_admits {cfg : Config} (h : cfg.wf = true) {c : Byte} (hc : c = cmdAck ∨ c = cfg.cmdNak)
    {l : Nat} : WlAdmits cfg.wlRx c l ↔ l = 0 := by
  have h1 := (wf_parts h).2.2.2.2.1
  have h2 := (wf_parts h).2.2.2.2.2.1
  simp only [Config.uniqueOk, Config.metaRxOk, Bool.and_eq_true, decide_eq_true_eq, List.contains_iff_mem]
    at h1 h2
  have hm : (⟨c, 0, 0⟩ : WlEntry) ∈ cfg.wlRx := by rcases hc with rfl | rfl <;> tauto
  constructor
  · rintro ⟨e, he, rfl, hlo, hhi⟩
    have := List.inj_on_of_nodup_map h1.1 he hm rfl
    rw [this] at hhi
    simpa using hhi
  · rintro rfl
    exact ⟨_, hm, rfl, by simp, by simp⟩

/-- `WL_TX` admits no meta-frame (R8 d). -/
theorem meta_not_sent {cfg : Config} (h : cfg.wf = true) {c : Byte} {l : Nat}
    (ha : WlAdmits cfg.wlTx c l) : c ≠ cmdAck ∧ c ≠ cfg.cmdNak := by
  have h1 := (wf_parts h).2.2.2.2.2.2.1
  simp only [Config.metaTxOk, List.all_eq_true, Bool.and_eq_true, bne_iff_ne] at h1
  obtain ⟨e, he, rfl, -⟩ := ha
  exact h1 e he

/-- The reference configuration is well formed (R9). -/
theorem ref_wf : Config.ref.wf = true := by decide

end Sys2Proof.Machine
end

