-- ==== Sys2Proof/Laws/Encoding.lean ====
section
/-! SUPPORT. The fields of a command word put together from its three fields, and when it is legal. -/

namespace Sys2Proof

theorem extract_op (o a : Byte) (b : U32) :
    ((o ++ a) ++ b : BitVec (8 + 8 + 32)).extractLsb' 40 8 = o := by
  apply BitVec.eq_of_getLsbD_eq
  intro k hk
  rw [BitVec.getLsbD_extractLsb', BitVec.getLsbD_append, BitVec.getLsbD_append]
  simp [hk, show ¬ 40 + k < 32 by omega, show ¬ 40 + k - 32 < 8 by omega,
    show 40 + k - 32 - 8 = k by omega]

theorem extract_a (o a : Byte) (b : U32) :
    ((o ++ a) ++ b : BitVec (8 + 8 + 32)).extractLsb' 32 8 = a := by
  apply BitVec.eq_of_getLsbD_eq
  intro k hk
  rw [BitVec.getLsbD_extractLsb', BitVec.getLsbD_append, BitVec.getLsbD_append]
  simp [hk, show ¬ 32 + k < 32 by omega, show 32 + k - 32 = k by omega]

theorem extract_b (o a : Byte) (b : U32) :
    ((o ++ a) ++ b : BitVec (8 + 8 + 32)).extractLsb' 0 32 = b := by
  apply BitVec.eq_of_getLsbD_eq
  intro k hk
  rw [BitVec.getLsbD_extractLsb', BitVec.getLsbD_append]
  simp [hk]

/-- The opcode field of a word put together (R87). -/
@[simp] theorem CmdWord.op_mkWord (o a : Byte) (b : U32) : CmdWord.op (mkWord o a b) = o := extract_op o a b

/-- The operand field `a` of a word put together (R87). -/
@[simp] theorem CmdWord.a_mkWord (o a : Byte) (b : U32) : CmdWord.a (mkWord o a b) = a := extract_a o a b

/-- The operand field `b` of a word put together (R87). -/
@[simp] theorem CmdWord.b_mkWord (o a : Byte) (b : U32) : CmdWord.b (mkWord o a b) = b := extract_b o a b

/-- A mask over the whole opcode acts field by field. -/
theorem mkWord_and (o a ma : Byte) (b mb : U32) :
    mkWord o a b &&& mkWord 0xFF#8 ma mb = mkWord o (a &&& ma) (b &&& mb) := by
  have h : o &&& 0xFF#8 = o := by revert o; decide
  unfold mkWord
  rw [BitVec.and_append, BitVec.and_append, h]

/-- A word is legal when a row has its opcode and its must-be-zero bits are zero (R90, R91). -/
theorem legal_of_row {o a : Byte} {b : U32} (ma : Byte) (mb : U32)
    (hr : (mkWord o 0#8 0#32, mkWord 0xFF#8 ma mb) ∈ opcodeRows) (ha : a &&& ma = 0#8)
    (hb : b &&& mb = 0#32) : (mkWord o a b).Legal :=
  ⟨_, hr, by rw [mkWord_and, ha, hb]⟩

/-- A payload count leaves the upper half of `b` zero (format FTX and FPAY). -/
theorem count_and (n : BitVec 16) : n.setWidth 32 &&& 0xFFFF0000#32 = 0#32 := by
  apply BitVec.eq_of_getLsbD_eq
  intro k hk
  rw [BitVec.getLsbD_and, BitVec.getLsbD_setWidth]
  by_cases h : k < 16
  · interval_cases k <;> simp
  · simp [BitVec.getLsbD_of_ge n k (by omega)]

/-- A byte operand leaves the upper 24 bits of `b` zero (format FB8 and FSB8). -/
theorem byte_and (v : Byte) : v.setWidth 32 &&& 0xFFFFFF00#32 = 0#32 := by revert v; decide

/-- An inbound index leaves `a[7]` zero (format FIDX and FIDXB). -/
theorem idxByte_and (i : BitVec 7) : idxByte i &&& 0x80#8 = 0#8 := by revert i; decide

/-- A store bit leaves `a[6:0]` zero (format FSTORE). -/
theorem storeByte_and (st : StoreSel) : storeByte st &&& 0x7F#8 = 0#8 := by cases st <;> rfl

/-- The payload count the word carries for a payload that fits (R88). -/
theorem count_toNat {data : List Byte} (h : payloadFits data = true) (o a : Byte) :
    (CmdWord.n (mkWord o a ((BitVec.ofNat 16 data.length).setWidth 32))).toNat = data.length := by
  have hl : data.length < 65536 := by simpa [payloadFits] using h
  have hn : CmdWord.n (mkWord o a ((BitVec.ofNat 16 data.length).setWidth 32)) =
      (CmdWord.b (mkWord o a ((BitVec.ofNat 16 data.length).setWidth 32))).extractLsb' 0 16 := by
    apply BitVec.eq_of_getLsbD_eq
    intro k hk
    simp only [CmdWord.n, CmdWord.b, BitVec.getLsbD_extractLsb', hk, show 0 + k < 32 by omega]
    simp
  rw [hn, CmdWord.b_mkWord]
  simp [BitVec.extractLsb'_toNat]
  omega

end Sys2Proof
end

