-- ==== Sys2Proof/Laws/Memory.lean ====
section
/-! SUPPORT. Byte arrays: a read after a write, the canonical form, and the bytes a window holds. -/

namespace Sys2Proof.Machine

@[simp] theorem Memory.read_nil (a : Nat) : Memory.read [] a = unwrittenByte := rfl

theorem Memory.read_cons (k : Nat) (v : Byte) (m : Memory) (a : Nat) :
    Memory.read ((k, v) :: m) a = if a = k then v else Memory.read m a := rfl

/-- Below every listed address a byte array reads as unwritten. -/
theorem Memory.read_below (m : Memory) (a : Nat) (h : ∀ c ∈ m, a < c.1) :
    m.read a = unwrittenByte := by
  induction m with
  | nil => rfl
  | cons c m ih =>
    have hc := h c (by simp)
    rw [Memory.read_cons, if_neg (by omega)]
    exact ih fun d hd => h d (by simp [hd])

@[simp] theorem Memory.wf_nil : Memory.wf [] := by simp [Memory.wf]

theorem Memory.wf_cons {k : Nat} {v : Byte} {m : Memory} :
    Memory.wf ((k, v) :: m) ↔ (∀ c ∈ m, k < c.1) ∧ v ≠ unwrittenByte ∧ m.wf := by
  simp only [Memory.wf, List.pairwise_cons, List.forall_mem_cons]
  tauto

/-- The addresses a write leaves listed were listed before or are the one written to. -/
theorem Memory.mem_write {m : Memory} {a : Nat} {b : Byte} {c : Host.Cell} (h : c ∈ m.write a b) :
    c ∈ m ∨ c.1 = a := by
  induction m with
  | nil =>
    unfold Memory.write at h; split at h <;> simp at h
    exact .inr (by rw [h])
  | cons d m ih =>
    obtain ⟨k, v⟩ := d
    unfold Memory.write at h
    split at h
    · split at h
      · exact .inl h
      · rcases List.mem_cons.1 h with h | h
        · exact .inr (by rw [h])
        · exact .inl h
    · split at h
      · split at h
        · exact .inl (List.mem_cons_of_mem _ h)
        · rcases List.mem_cons.1 h with h | h
          · exact .inr (by rw [h])
          · exact .inl (List.mem_cons_of_mem _ h)
      · rcases List.mem_cons.1 h with h | h
        · exact .inl (by simp [h])
        · exact (ih h).imp (List.mem_cons_of_mem _) id

/-- A write keeps the canonical form. -/
theorem Memory.wf_write {m : Memory} (h : m.wf) (a : Nat) (b : Byte) : (m.write a b).wf := by
  induction m with
  | nil =>
    unfold Memory.write; split
    · exact Memory.wf_nil
    · exact Memory.wf_cons.2 ⟨by simp, ‹_›, Memory.wf_nil⟩
  | cons d m ih =>
    obtain ⟨k, v⟩ := d
    obtain ⟨hk, hv, hm⟩ := Memory.wf_cons.1 h
    unfold Memory.write
    split
    · split
      · exact h
      · refine Memory.wf_cons.2 ⟨fun c hc => ?_, ‹_›, h⟩
        rcases List.mem_cons.1 hc with rfl | hc
        · assumption
        · have := hk c hc; omega
    · split
      · split
        · exact hm
        · exact Memory.wf_cons.2 ⟨fun c hc => by have := hk c hc; omega, ‹_›, hm⟩
      · refine Memory.wf_cons.2 ⟨fun c hc => ?_, hv, ih hm⟩
        rcases Memory.mem_write hc with hc | hc
        · exact hk c hc
        · omega

/-- A write inside the capacity lists nothing outside it. -/
theorem Memory.bound_write {m : Memory} {n : Nat} (h : ∀ c ∈ m, c.1 < n) {a : Nat} (ha : a < n) (b : Byte) :
    ∀ c ∈ m.write a b, c.1 < n := fun c hc => by
  rcases Memory.mem_write hc with hc | hc
  · exact h c hc
  · omega

/-- A read after a write gives the value written at that address, and what it gave before elsewhere. -/
theorem Memory.read_write {m : Memory} (h : m.wf) (a : Nat) (b : Byte) (k : Nat) :
    (m.write a b).read k = if k = a then b else m.read k := by
  induction m with
  | nil =>
    unfold Memory.write; split <;> simp [Memory.read, *]
  | cons d m ih =>
    obtain ⟨j, v⟩ := d
    obtain ⟨hk, hv, hm⟩ := Memory.wf_cons.1 h
    unfold Memory.write
    split
    · rename_i hlt
      split
      · rename_i hb
        by_cases hka : k = a
        · subst hka
          rw [if_pos rfl, hb]
          refine Memory.read_below _ _ fun c hc => ?_
          rcases List.mem_cons.1 hc with rfl | hc
          · exact hlt
          · have := hk c hc; omega
        · rw [if_neg hka]
      · rw [Memory.read_cons]
    · split
      · rename_i haj
        subst haj
        split
        · rename_i hb
          by_cases hka : k = a
          · subst hka
            rw [if_pos rfl, hb]
            exact Memory.read_below _ _ hk
          · rw [if_neg hka, Memory.read_cons, if_neg hka]
        · rw [Memory.read_cons, Memory.read_cons]; split <;> rfl
      · rw [Memory.read_cons, Memory.read_cons, ih hm]
        split <;> rename_i hkj
        · rw [if_neg]; omega
        · rfl

/-- Byte arrays in canonical form that read alike are equal. -/
theorem Memory.ext_of_wf {m n : Memory} (hm : m.wf) (hn : n.wf) (h : ∀ a, m.read a = n.read a) : m = n := by
  induction m generalizing n with
  | nil =>
    cases n with
    | nil => rfl
    | cons d n =>
      obtain ⟨k, v⟩ := d
      obtain ⟨-, hv, -⟩ := Memory.wf_cons.1 hn
      have := h k
      rw [Memory.read_cons, if_pos rfl] at this
      exact absurd this.symm hv
  | cons c m ih =>
    obtain ⟨j, u⟩ := c
    obtain ⟨hj, hu, hm'⟩ := Memory.wf_cons.1 hm
    cases n with
    | nil =>
      have := h j
      rw [Memory.read_cons, if_pos rfl] at this
      exact absurd this hu
    | cons d n =>
      obtain ⟨k, v⟩ := d
      obtain ⟨hk, hv, hn'⟩ := Memory.wf_cons.1 hn
      have hjk : j = k := by
        rcases Nat.lt_trichotomy j k with hlt | he | hlt
        · have := h j
          rw [Memory.read_cons, if_pos rfl, Memory.read_below _ _ (fun c hc => ?_)] at this
          · exact absurd this hu
          · rcases List.mem_cons.1 hc with rfl | hc
            · exact hlt
            · have := hk c hc; omega
        · exact he
        · have := h k
          rw [Memory.read_cons k, if_pos rfl, Memory.read_below _ _ (fun c hc => ?_)] at this
          · exact absurd this.symm hv
          · rcases List.mem_cons.1 hc with rfl | hc
            · exact hlt
            · have := hj c hc; omega
      subst hjk
      have huv : u = v := by simpa [Memory.read_cons] using h j
      subst huv
      refine congrArg _ (ih hm' hn' fun a => ?_)
      by_cases ha : a = j
      · subst ha
        rw [Memory.read_below _ _ hj, Memory.read_below _ _ hk]
      · simpa [Memory.read_cons, ha] using h a

@[simp] theorem Memory.length_bytes (m : Memory) (n : Nat) : (m.bytes n).length = n := by
  simp [Memory.bytes]

theorem Memory.getElem?_bytes (m : Memory) (n k : Nat) :
    (m.bytes n)[k]? = if k < n then some (m.read k) else none := by
  unfold Memory.bytes
  split <;> simp_all

theorem Memory.bytes_succ (m : Memory) (n : Nat) : m.bytes (n + 1) = m.bytes n ++ [m.read n] := by
  simp [Memory.bytes, List.range_succ]

/-- Arrays that read alike below `n` hold the same first `n` bytes. -/
theorem Memory.bytes_congr {m m' : Memory} {n : Nat} (h : ∀ a, a < n → m.read a = m'.read a) :
    m.bytes n = m'.bytes n := by
  unfold Memory.bytes
  exact List.map_congr_left fun a ha => h a (List.mem_range.1 ha)

end Sys2Proof.Machine
end

