-- ==== Sys2Proof/Laws/Ring.lean ====
section
/-! SUPPORT. The ByteRing and the ReceiveBuffer: each operation as what it does to `Q(rxb)` and to the
invariant. -/

namespace Sys2Proof.Machine

@[simp] theorem length_contents (cap : Nat) (r : RxBuffer) : (contents cap r).length = r.cnt := by
  simp [contents]

theorem getElem?_contents (cap : Nat) (r : RxBuffer) (k : Nat) :
    (contents cap r)[k]? = if k < r.cnt then some (ringByte cap r k) else none := by
  unfold contents
  split <;> simp_all

theorem contents_eq_nil {cap : Nat} {r : RxBuffer} : contents cap r = [] ↔ r.cnt = 0 := by
  rw [← List.length_eq_zero_iff, length_contents]

/-- Different logical offsets below the capacity lie at different physical indices. -/
theorem ringIndex_inj {cap : Nat} {r : RxBuffer} {j k : Nat} (hj : j < cap) (hk : k < cap)
    (h : ringIndex cap r j = ringIndex cap r k) : j = k := by
  unfold ringIndex at h
  have h' : j % cap = k % cap := Nat.ModEq.add_left_cancel' r.rd h
  rwa [Nat.mod_eq_of_lt hj, Nat.mod_eq_of_lt hk] at h'

theorem ringIndex_lt {cap : Nat} {r : RxBuffer} (h : r.rd < cap) (k : Nat) : ringIndex cap r k < cap :=
  Nat.mod_lt _ (by omega)

/-! ### Push -/

/-- A push into a full ring (R115). -/
theorem rxbPush_full {cap : Nat} {r : RxBuffer} (h : r.cnt = cap) (b : Byte) :
    rxbPush cap b r = (false, { r with ovf := true }) := by
  simp [rxbPush, ringPush, h, ovfAfterPush]

/-- A push with room (R115). -/
theorem rxbPush_room {cap : Nat} {r : RxBuffer} (h : r.cnt ≠ cap) (b : Byte) :
    rxbPush cap b r =
      (true, { r with mem := r.mem.write (ringIndex cap r r.cnt) b, cnt := r.cnt + 1 }) := by
  simp [rxbPush, ringPush, h, ovfAfterPush]

/-- The ring's contents after a push with room. -/
theorem contents_push {cap : Nat} {r : RxBuffer} (hm : r.mem.wf) (hc : r.cnt < cap) (b : Byte) :
    contents cap (rxbPush cap b r).2 = contents cap r ++ [b] := by
  rw [rxbPush_room (by omega)]
  unfold contents
  rw [List.range_succ, List.map_append]
  refine congrArg₂ _ (List.map_congr_left fun k hk => ?_) ?_
  · have hk := List.mem_range.1 hk
    show Memory.read (r.mem.write _ b) (ringIndex cap r k) = _
    rw [Memory.read_write hm, if_neg]
    · rfl
    · intro he
      have := ringIndex_inj (by omega) hc he
      omega
  · show [Memory.read (r.mem.write _ b) (ringIndex cap r r.cnt)] = _
    rw [Memory.read_write hm, if_pos rfl]

theorem rxbPush_inv {cfg : Config} {r : RxBuffer} (h : r.Inv cfg) (b : Byte) :
    (rxbPush cfg.ringCap b r).2.Inv cfg := by
  obtain ⟨h1, h2, h3, h4⟩ := h
  by_cases hc : r.cnt = cfg.ringCap
  · rw [rxbPush_full hc]; exact ⟨h1, h2, h3, h4⟩
  · rw [rxbPush_room hc]
    exact ⟨h1, by show r.cnt + 1 ≤ _; omega, Memory.wf_write h3 _ _,
      Memory.bound_write h4 (ringIndex_lt h1 _) _⟩

/-! ### Pop, peek, clear -/

/-- A pop from an empty ring (R116). -/
theorem rxbPop_empty {cap : Nat} {r : RxBuffer} (h : r.cnt = 0) : rxbPop cap r = (none, r) := by
  simp [rxbPop, ringPop, h]

/-- A pop from a ring that holds something (R116). -/
theorem rxbPop_some {cap : Nat} {r : RxBuffer} (h : r.cnt ≠ 0) :
    rxbPop cap r = (some (r.mem.read r.rd), { r with rd := (r.rd + 1) % cap, cnt := r.cnt - 1 }) := by
  simp [rxbPop, ringPop, h]

@[simp] theorem rxbPop_mem (cap : Nat) (r : RxBuffer) : (rxbPop cap r).2.mem = r.mem := by
  unfold rxbPop ringPop; split <;> rfl

@[simp] theorem rxbPop_ovf (cap : Nat) (r : RxBuffer) : (rxbPop cap r).2.ovf = r.ovf := by
  unfold rxbPop ringPop; split <;> rfl

/-- The ring's contents after a pop. -/
theorem contents_pop {cap : Nat} (r : RxBuffer) :
    contents cap (rxbPop cap r).2 = (contents cap r).tail := by
  by_cases h : r.cnt = 0
  · rw [rxbPop_empty h, contents_eq_nil.2 h]; rfl
  · rw [rxbPop_some h]
    obtain ⟨n, hn⟩ : ∃ n, r.cnt = n + 1 := ⟨r.cnt - 1, by omega⟩
    unfold contents
    simp only [hn, Nat.add_sub_cancel]
    rw [List.range_succ_eq_map, List.map_cons, List.tail_cons, List.map_map]
    refine List.map_congr_left fun k _ => ?_
    show Memory.read r.mem (((r.rd + 1) % cap + k) % cap) = Memory.read r.mem ((r.rd + (k + 1)) % cap)
    rw [Nat.mod_add_mod, Nat.add_assoc, Nat.add_comm 1 k]

/-- What a pop answers. -/
theorem rxbPop_answer {cap : Nat} {r : RxBuffer} (h : r.rd < cap) :
    (rxbPop cap r).1 = (contents cap r).head? := by
  by_cases hc : r.cnt = 0
  · rw [rxbPop_empty hc, contents_eq_nil.2 hc]; rfl
  · rw [rxbPop_some hc, List.head?_eq_getElem?, getElem?_contents, if_pos (by omega)]
    simp [ringByte, ringIndex, Nat.mod_eq_of_lt h]

theorem rxbPop_inv {cfg : Config} {r : RxBuffer} (h : r.Inv cfg) : (rxbPop cfg.ringCap r).2.Inv cfg := by
  obtain ⟨h1, h2, h3, h4⟩ := h
  by_cases hc : r.cnt = 0
  · rw [rxbPop_empty hc]; exact ⟨h1, h2, h3, h4⟩
  · rw [rxbPop_some hc]
    exact ⟨Nat.mod_lt _ (by omega), by show r.cnt - 1 ≤ _; omega, h3, h4⟩

theorem rxbPopN_inv {cfg : Config} (n : Nat) {r : RxBuffer} (h : r.Inv cfg) :
    (rxbPopN cfg.ringCap n r).Inv cfg := by
  induction n generalizing r with
  | zero => exact h
  | succ n ih => exact ih (rxbPop_inv h)

@[simp] theorem rxbPopN_mem (cap n : Nat) (r : RxBuffer) : (rxbPopN cap n r).mem = r.mem := by
  induction n generalizing r with
  | zero => rfl
  | succ n ih => simp [rxbPopN, ih]

@[simp] theorem rxbPopN_ovf (cap n : Nat) (r : RxBuffer) : (rxbPopN cap n r).ovf = r.ovf := by
  induction n generalizing r with
  | zero => rfl
  | succ n ih => simp [rxbPopN, ih]

/-- `n` pops take the first `n` bytes. -/
theorem contents_popN (cap n : Nat) (r : RxBuffer) :
    contents cap (rxbPopN cap n r) = (contents cap r).drop n := by
  induction n generalizing r with
  | zero => rfl
  | succ n ih => rw [rxbPopN, ih, contents_pop, List.drop_tail]

/-- A peek answers the byte at its offset in `Q(rxb)`. -/
theorem rxbPeek_eq (cap off : Nat) (r : RxBuffer) : rxbPeek cap off r = (contents cap r)[off]? := by
  rw [getElem?_contents]
  unfold rxbPeek ringPeek
  by_cases h : r.cnt ≤ off
  · rw [if_pos h, if_neg (by omega)]
  · rw [if_neg h, if_pos (by omega)]

@[simp] theorem contents_clear (cap : Nat) (r : RxBuffer) : contents cap (rxbClear r) = [] := rfl

theorem rxbClear_inv {cfg : Config} {r : RxBuffer} (h : r.Inv cfg) : (rxbClear r).Inv cfg :=
  ⟨by show 0 < _; exact Nat.lt_of_le_of_lt (Nat.zero_le _) h.1, Nat.zero_le _, h.2.2.1, h.2.2.2⟩

end Sys2Proof.Machine
end

