-- ==== Sys2Proof/Laws/Timer.lean ====
section
/-! SUPPORT. SoftwareTimers: the invariant of R145 and what "timed out" means under it. -/

namespace Sys2Proof.Machine

@[simp] theorem Timer.reset_inv : Timer.reset.Inv := by decide
@[simp] theorem tmrStart_inv (now d : U32) (t : Timer) : (tmrStart now d t).Inv := rfl
@[simp] theorem tmrRestart_inv (now : U32) (t : Timer) : (tmrRestart now t).Inv := rfl
theorem tmrStop_inv {t : Timer} (h : t.Inv) : (tmrStop t).Inv := h

/-- Under R145 the span of a timer's arc is its duration. -/
theorem Timer.span_eq {t : Timer} (h : t.Inv) : t.target - t.start = t.dur := by
  rw [h]; exact BitVec.eq_of_toNat_eq (by simp)

/-- R143 under R145. -/
theorem Timer.timedOut_eq {t : Timer} (h : t.Inv) (now : U32) :
    t.timedOut now = (t.active && decide (t.dur < now - t.start)) := by
  unfold Timer.timedOut
  rw [Timer.span_eq h]
  congr 1
  rw [← decide_not]
  exact decide_eq_decide.2 BitVec.not_le

theorem Timer.timedOut_of_inactive {t : Timer} (h : t.active = false) (now : U32) :
    t.timedOut now = false := by simp [Timer.timedOut, h]

/-- A timer started at `now` is not timed out at `now`. -/
@[simp] theorem tmrStart_not_timedOut (now d : U32) (t : Timer) : (tmrStart now d t).timedOut now = false := by
  simp [Timer.timedOut, tmrStart, BitVec.le_def]

end Sys2Proof.Machine
end

