-- ==== Sys2Proof/Laws/Store.lean ====
section
/-! SUPPORT. The MessageSlotStore: each operation slot by slot, the scans by what they find, and the
invariant. -/

namespace Sys2Proof.Machine

/-! ### Slots by index -/

@[simp] theorem Slot.reset_valid : Slot.reset.valid = false := rfl

theorem slotAt_of_le {v : Store} {i : Nat} (h : v.length ≤ i) : slotAt v i = Slot.reset := by
  simp [slotAt, h]

theorem slotAt_of_lt {v : Store} {i : Nat} (h : i < v.length) : slotAt v i = v[i] := by
  simp [slotAt, h]

theorem slotAt_mem {v : Store} {i : Nat} (h : i < v.length) : slotAt v i ∈ v := by
  rw [slotAt_of_lt h]; exact List.getElem_mem h

theorem lt_of_slotAt_valid {v : Store} {i : Nat} (h : (slotAt v i).valid = true) : i < v.length := by
  by_contra hi
  rw [slotAt_of_le (by omega)] at h
  simp at h

theorem forall_mem_iff_slotAt {v : Store} {P : Slot → Prop} :
    (∀ sl ∈ v, P sl) ↔ ∀ i, i < v.length → P (slotAt v i) := by
  constructor
  · exact fun h i hi => h _ (slotAt_mem hi)
  · intro h sl hsl
    obtain ⟨i, hi, rfl⟩ := List.mem_iff_getElem.1 hsl
    rw [← slotAt_of_lt hi]
    exact h i hi

/-- Stores of one length that agree slot by slot are equal. -/
theorem store_ext {v w : Store} (hl : v.length = w.length) (h : ∀ i, i < v.length → slotAt v i = slotAt w i) :
    v = w := by
  refine List.ext_getElem hl fun i h1 h2 => ?_
  rw [← slotAt_of_lt h1, ← slotAt_of_lt h2]
  exact h i h1

theorem slotAt_modify (v : Store) (i j : Nat) (f : Slot → Slot) :
    slotAt (v.modify i f) j = if j = i ∧ i < v.length then f (slotAt v i) else slotAt v j := by
  simp only [slotAt, List.getD_eq_getElem?_getD, List.getElem?_modify]
  by_cases hj : i = j
  · subst hj
    by_cases hi : i < v.length <;> simp [hi]
  · simp [hj, Ne.symm hj]

theorem slotAt_mapIdx (v : Store) (f : Nat → Slot → Slot) (j : Nat) :
    slotAt (v.mapIdx f) j = if j < v.length then f j (slotAt v j) else Slot.reset := by
  by_cases hj : j < v.length
  · rw [if_pos hj, slotAt_of_lt (by simpa), slotAt_of_lt hj, List.getElem_mapIdx]
  · rw [if_neg hj, slotAt_of_le (by simpa using hj)]

theorem slotAt_map (v : Store) (f : Slot → Slot) (j : Nat) :
    slotAt (v.map f) j = if j < v.length then f (slotAt v j) else Slot.reset := by
  by_cases hj : j < v.length
  · rw [if_pos hj, slotAt_of_lt (by simpa), slotAt_of_lt hj, List.getElem_map]
  · rw [if_neg hj, slotAt_of_le (by simpa using hj)]

/-! ### Rank bump, validate, mark (R159 to R161) -/

@[simp] theorem length_bump (i : Nat) (v : Store) : (bump i v).length = v.length := by simp [bump]

theorem Slot.aged_eq (sl : Slot) :
    sl.aged = if sl.valid then { sl with rank := sat8Inc sl.rank } else sl := rfl

@[simp] theorem Slot.aged_reset : Slot.reset.aged = Slot.reset := rfl

@[simp] theorem Slot.aged_valid (sl : Slot) : sl.aged.valid = sl.valid := by
  unfold Slot.aged; split <;> rfl

theorem slotAt_bump_self {v : Store} {i : Nat} (h : i < v.length) :
    slotAt (bump i v) i = { slotAt v i with rank := 1#8 } := by
  rw [bump, slotAt_mapIdx, if_pos h, if_pos rfl]

theorem slotAt_bump_other {v : Store} {i j : Nat} (h : j ≠ i) : slotAt (bump i v) j = (slotAt v j).aged := by
  rw [bump, slotAt_mapIdx]
  by_cases hj : j < v.length
  · rw [if_pos hj, if_neg h, Slot.aged_eq]
  · rw [if_neg hj, slotAt_of_le (by omega)]; rfl

/-- All a bump followed by a change of the bumped slot can do. -/
theorem bumpedTo_modify {v : Store} {i : Nat} (h : i < v.length) (f : Slot → Slot) :
    BumpedTo v ((bump i v).modify i f) i (f { slotAt v i with rank := 1#8 }) := by
  refine ⟨by simp, ?_, fun j hj => ?_⟩
  · rw [slotAt_modify, if_pos ⟨rfl, by simpa⟩, slotAt_bump_self h]
  · rw [slotAt_modify, if_neg (by tauto), slotAt_bump_other hj]

theorem msValidate_bumpedTo {v : Store} {i : Nat} (h : i < v.length) (now d : U32) :
    BumpedTo v (msValidate i now d v) i { slotAt v i with
      rank := 1#8, valid := true, txc := 0#8, tmr := ⟨now, d, now + d, true⟩ } :=
  bumpedTo_modify h _

theorem msMarkRetx_bumpedTo {v : Store} {i : Nat} (h : i < v.length) (now d : U32) :
    BumpedTo v (msMarkRetx i now d v) i { slotAt v i with
      rank := 1#8, valid := true, tmr := ⟨now, d, now + d, true⟩ } :=
  bumpedTo_modify h _

theorem changedAt_modify {v : Store} {i : Nat} (h : i < v.length) (f : Slot → Slot) :
    ChangedAt v (v.modify i f) i (f (slotAt v i)) := by
  refine ⟨by simp, ?_, fun j hj => ?_⟩
  · rw [slotAt_modify, if_pos ⟨rfl, h⟩]
  · rw [slotAt_modify, if_neg (by tauto)]

/-! ### Delete and clear (R165, R166) -/

@[simp] theorem length_msDelete (i : Nat) (v : Store) : (msDelete i v).length = v.length := by
  unfold msDelete; split <;> simp

theorem msDelete_free {v : Store} {i : Nat} (h : (slotAt v i).valid = false) : msDelete i v = v := by
  simp [msDelete, h]

theorem msDelete_deletedFrom {v : Store} {i : Nat} (h : (slotAt v i).valid = true) :
    DeletedFrom v (msDelete i v) i := by
  have hi := lt_of_slotAt_valid h
  refine ⟨by simp, ?_, fun j hj => ?_⟩
  · rw [msDelete, if_pos h, slotAt_mapIdx, if_pos hi, if_pos rfl]; rfl
  · rw [msDelete, if_pos h, slotAt_mapIdx]
    by_cases hjl : j < v.length
    · rw [if_pos hjl, if_neg hj]; simp
    · rw [if_neg hjl, slotAt_of_le (by omega)]; simp

theorem msClearAll_clearedFrom (v : Store) : ClearedFrom v (msClearAll v) := by
  refine ⟨by simp [msClearAll], fun j hj => ?_⟩
  rw [msClearAll, slotAt_map, if_pos hj]; rfl

/-! ### Scans (R156, R162, R163) -/

theorem msGetFree_some {v : Store} {d : Nat} : msGetFree v = some d ↔ IsFirstFree v d := by
  unfold msGetFree IsFirstFree
  rw [List.findIdx?_eq_some_iff_getElem]
  constructor
  · rintro ⟨h, h1, h2⟩
    refine ⟨h, by rw [slotAt_of_lt h]; simpa using h1, fun j hj => ?_⟩
    rw [slotAt_of_lt (by omega)]; simpa using h2 j hj
  · rintro ⟨h, h1, h2⟩
    rw [slotAt_of_lt h] at h1
    refine ⟨h, by simpa using h1, fun j hj => ?_⟩
    have := h2 j hj
    rw [slotAt_of_lt (by omega)] at this
    simp [this]

theorem msGetFree_none {v : Store} : msGetFree v = none ↔ ∀ sl ∈ v, sl.valid = true := by
  simp [msGetFree, List.findIdx?_eq_none_iff]

theorem IsFirstFree.unique {v : Store} {d e : Nat} (h : IsFirstFree v d) (h' : IsFirstFree v e) : d = e := by
  have := msGetFree_some.2 h
  rw [msGetFree_some.2 h'] at this
  exact (Option.some.inj this).symm

/-- What the scan of R162 and R163 finds, from a best candidate so far: the candidate or a valid slot of the
rest that no other beats. `beats` is a strict order on ranks. -/
theorem scanValid_spec (beats : BitVec 8 → BitVec 8 → Bool)
    (htrans : ∀ a b c, beats b a = false → beats c b = false → beats c a = false)
    (hasymm : ∀ a b, beats a b = true → beats b a = false) (hirr : ∀ a, beats a a = false)
    (full : Store) :
    ∀ (rest : Store) (i : Nat) (best : Option (Nat × BitVec 8)), full.drop i = rest →
      (∀ b, best = some b → b.1 < i ∧ (slotAt full b.1).valid = true ∧ (slotAt full b.1).rank = b.2 ∧
        ∀ j, j < i → (slotAt full j).valid = true →
          beats (slotAt full j).rank b.2 = false ∧ (j < b.1 → beats b.2 (slotAt full j).rank = true)) →
      (best = none → ∀ j, j < i → (slotAt full j).valid = false) →
      (scanValid beats rest i best = none → ∀ j, (slotAt full j).valid = false) ∧
      ∀ o, scanValid beats rest i best = some o → (slotAt full o).valid = true ∧
        ∀ j, (slotAt full j).valid = true → beats (slotAt full j).rank (slotAt full o).rank = false ∧
          (j < o → beats (slotAt full o).rank (slotAt full j).rank = true) := by
  intro rest
  induction rest with
  | nil =>
    intro i best hd hb hn
    have hlen : full.length ≤ i := by simpa using hd
    cases best with
    | none =>
      refine ⟨fun _ j => ?_, fun o ho => by simp [scanValid] at ho⟩
      by_cases hj : j < i
      · exact hn rfl j hj
      · rw [slotAt_of_le (by omega)]; rfl
    | some b =>
      refine ⟨fun h => by simp [scanValid] at h, fun o ho => ?_⟩
      obtain rfl : b.1 = o := by simpa [scanValid] using ho
      obtain ⟨h1, h2, h3, h4⟩ := hb b rfl
      refine ⟨h2, fun j hj => ?_⟩
      rw [h3]
      exact h4 j (by have := lt_of_slotAt_valid hj; omega) hj
  | cons sl rest ih =>
    intro i best hd hb hn
    have hi : i < full.length := by
      by_contra h
      rw [List.drop_eq_nil_of_le (by omega)] at hd
      simp at hd
    have hsl : slotAt full i = sl := by
      rw [slotAt_of_lt hi]
      rw [List.drop_eq_getElem_cons hi] at hd
      exact (List.cons.inj hd).1
    have hd' : full.drop (i + 1) = rest := by
      rw [List.drop_eq_getElem_cons hi] at hd
      exact (List.cons.inj hd).2
    rw [scanValid]
    refine ih (i + 1) _ hd' ?_ ?_
    · intro b hb'
      split at hb'
      · rename_i hc
        simp only [Bool.and_eq_true, Option.all_eq_true] at hc
        obtain ⟨hv, hbest⟩ := hc
        obtain rfl := (Option.some.inj hb')
        refine ⟨by simp, by rw [hsl]; exact hv, by rw [hsl], fun j hj hjv => ?_⟩
        rcases Nat.lt_succ_iff_lt_or_eq.1 hj with hj | rfl
        · cases best with
          | none => have h := hn rfl j hj; simp [hjv] at h
          | some b0 =>
            obtain ⟨g1, g2, g3, g4⟩ := hb b0 rfl
            have hbt := hbest b0 rfl
            have g := (g4 j hj hjv).1
            refine ⟨htrans _ _ _ (hasymm _ _ hbt) g, fun _ => ?_⟩
            by_contra hne
            have h5 : beats sl.rank (slotAt full j).rank = false := by simpa using hne
            have := htrans _ _ _ g h5
            simp [hbt] at this
        · rw [hsl]; exact ⟨hirr _, fun h => by simp at h⟩
      · rename_i hc
        obtain ⟨g1, g2, g3, g4⟩ := hb b hb'
        refine ⟨by omega, g2, g3, fun j hj hjv => ?_⟩
        rcases Nat.lt_succ_iff_lt_or_eq.1 hj with hj | rfl
        · exact g4 j hj hjv
        · rw [hsl] at hjv ⊢
          refine ⟨?_, fun h => by omega⟩
          subst hb'
          simpa [hjv] using hc
    · intro hb' j hj
      split at hb'
      · simp at hb'
      · rename_i hc
        rcases Nat.lt_succ_iff_lt_or_eq.1 hj with hj | rfl
        · exact hn hb' j hj
        · rw [hsl]
          subst hb'
          simpa using hc

theorem isOldest_iff_beats {v : Store} {o : Nat} : IsOldest v o ↔ (slotAt v o).valid = true ∧
    ∀ j, (slotAt v j).valid = true → ¬ (slotAt v o).rank < (slotAt v j).rank ∧
      (j < o → (slotAt v j).rank < (slotAt v o).rank) := by
  unfold IsOldest
  simp only [BitVec.lt_def, ← BitVec.toNat_inj]
  constructor
  · rintro ⟨h, h'⟩; exact ⟨h, fun j hj => by have := h' j hj; omega⟩
  · rintro ⟨h, h'⟩; exact ⟨h, fun j hj => by have := h' j hj; omega⟩

theorem isNewest_iff_beats {v : Store} {o : Nat} : IsNewest v o ↔ (slotAt v o).valid = true ∧
    ∀ j, (slotAt v j).valid = true → ¬ (slotAt v j).rank < (slotAt v o).rank ∧
      (j < o → (slotAt v o).rank < (slotAt v j).rank) := by
  unfold IsNewest
  simp only [BitVec.lt_def, ← BitVec.toNat_inj]
  constructor
  · rintro ⟨h, h'⟩; exact ⟨h, fun j hj => by have := h' j hj; omega⟩
  · rintro ⟨h, h'⟩; exact ⟨h, fun j hj => by have := h' j hj; omega⟩

theorem IsOldest.unique {v : Store} {o p : Nat} (h : IsOldest v o) (h' : IsOldest v p) : o = p := by
  have h1 := h.2 p h'.1
  have h2 := h'.2 o h.1
  simp only [BitVec.lt_def, ← BitVec.toNat_inj] at h1 h2
  omega

theorem IsNewest.unique {v : Store} {o p : Nat} (h : IsNewest v o) (h' : IsNewest v p) : o = p := by
  have h1 := h.2 p h'.1
  have h2 := h'.2 o h.1
  simp only [BitVec.lt_def, ← BitVec.toNat_inj] at h1 h2
  omega

theorem msGetOldest_spec (v : Store) :
    (msGetOldest v = none → ∀ j, (slotAt v j).valid = false) ∧ ∀ o, msGetOldest v = some o → IsOldest v o := by
  have h := scanValid_spec (fun a b => decide (b < a)) (by simp [BitVec.lt_def]; omega)
    (by simp [BitVec.lt_def]; omega) (by simp) v v 0 none rfl (by simp) (by simp)
  refine ⟨h.1, fun o ho => isOldest_iff_beats.2 ?_⟩
  simpa using h.2 o ho

theorem msGetNewest_spec (v : Store) :
    (msGetNewest v = none → ∀ j, (slotAt v j).valid = false) ∧ ∀ o, msGetNewest v = some o → IsNewest v o := by
  have h := scanValid_spec (fun a b => decide (a < b)) (by simp [BitVec.lt_def]; omega)
    (by simp [BitVec.lt_def]; omega) (by simp) v v 0 none rfl (by simp) (by simp)
  refine ⟨h.1, fun o ho => isNewest_iff_beats.2 ?_⟩
  simpa using h.2 o ho

theorem msGetOldest_some {v : Store} {o : Nat} : msGetOldest v = some o ↔ IsOldest v o := by
  refine ⟨(msGetOldest_spec v).2 o, fun h => ?_⟩
  cases hg : msGetOldest v with
  | none => have := (msGetOldest_spec v).1 hg o; simp [h.1] at this
  | some p => rw [((msGetOldest_spec v).2 p hg).unique h]

theorem msGetNewest_some {v : Store} {o : Nat} : msGetNewest v = some o ↔ IsNewest v o := by
  refine ⟨(msGetNewest_spec v).2 o, fun h => ?_⟩
  cases hg : msGetNewest v with
  | none => have := (msGetNewest_spec v).1 hg o; simp [h.1] at this
  | some p => rw [((msGetNewest_spec v).2 p hg).unique h]

theorem no_valid_iff {v : Store} : (∀ sl ∈ v, sl.valid = false) ↔ ∀ j, (slotAt v j).valid = false := by
  rw [forall_mem_iff_slotAt]
  refine ⟨fun h j => ?_, fun h i _ => h i⟩
  by_cases hj : j < v.length
  · exact h j hj
  · rw [slotAt_of_le (by omega)]; rfl

theorem msGetOldest_none {v : Store} : msGetOldest v = none ↔ ∀ sl ∈ v, sl.valid = false := by
  rw [no_valid_iff]
  refine ⟨(msGetOldest_spec v).1, fun h => ?_⟩
  cases hg : msGetOldest v with
  | none => rfl
  | some p => have := ((msGetOldest_spec v).2 p hg).1; simp [h p] at this

theorem msGetNewest_none {v : Store} : msGetNewest v = none ↔ ∀ sl ∈ v, sl.valid = false := by
  rw [no_valid_iff]
  refine ⟨(msGetNewest_spec v).1, fun h => ?_⟩
  cases hg : msGetNewest v with
  | none => rfl
  | some p => have := ((msGetNewest_spec v).2 p hg).1; simp [h p] at this

/-- Freeing a slot that a bump has just made the newest leaves every other slot as it was, short of saturation
(R159, R165). -/
theorem msDelete_undoes_bump {v w : Store} {d : Nat} {sl : Slot}
    (hvr : ∀ j, (slotAt v j).valid = true ↔ (slotAt v j).rank ≠ 0#8) (hnb : ¬ BumpMeetsTop d v)
    (hb : BumpedTo v w d sl) (hr : sl.rank = 1#8) (hval : sl.valid = true) :
    ChangedAt v (msDelete d w) d { sl with
      valid := false, rank := 0#8, len := 0#8, txc := 0#8, tmr := { sl.tmr with active := false } } := by
  have hdel := msDelete_deletedFrom (v := w) (i := d) (by rw [hb.2.1]; exact hval)
  refine ⟨hdel.1.trans hb.1, by rw [hdel.2.1, hb.2.1], fun j hj => ?_⟩
  rw [hdel.2.2 j hj, hb.2.1, hr, hb.2.2 j hj]
  unfold Slot.aged
  cases hv : (slotAt v j).valid with
  | false => simp [hv]
  | true =>
    have h0 := (hvr j).1 hv
    have h255 : (slotAt v j).rank ≠ 255#8 := fun h => hnb ⟨j, hj, hv, h⟩
    have key : ∀ r : BitVec 8, r ≠ 0#8 → r ≠ 255#8 → 1#8 < r + 1#8 := by decide
    simp only [if_true, if_neg h255, true_and, if_pos (key _ h0 h255), BitVec.add_sub_cancel]
    rw [← hv]

/-! ### The top of the ranks (R173) -/

theorem meetsTop_iff {i : Nat} {v : Store} : meetsTop i v = true ↔ BumpMeetsTop i v := by
  simp only [meetsTop, List.any_eq_true, List.mem_range, Bool.and_eq_true, decide_eq_true_eq, and_assoc]
  exact ⟨fun ⟨j, _, h⟩ => ⟨j, h⟩, fun ⟨j, h⟩ => ⟨j, lt_of_slotAt_valid h.2.1, h⟩⟩

theorem meetsTop_false {i : Nat} {v : Store} : meetsTop i v = false ↔ ¬ BumpMeetsTop i v := by
  rw [← meetsTop_iff, Bool.not_eq_true]

/-- Short of the top a slot ages by exactly one. -/
theorem Slot.aged_below {v : Store} {i j : Nat} (h : ¬ BumpMeetsTop i v) (hj : j ≠ i)
    (hv : (slotAt v j).valid = true) :
    (slotAt v j).aged = { slotAt v j with rank := (slotAt v j).rank + 1#8 } := by
  have h255 : (slotAt v j).rank ≠ 255#8 := fun hr => h ⟨j, hj, hv, hr⟩
  rw [Slot.aged, if_pos hv, if_neg h255]

end Sys2Proof.Machine
end

