-- ==== Sys2Proof/Laws/SlotBuffer.lean ====
section
/-! SUPPORT. Slot buffers: appending one byte, appending many, and what a slot then holds. -/

namespace Sys2Proof.Machine

theorem msAppend_full {cap : Nat} {sl : Slot} (h : sl.len.toNat = cap) (b : Byte) :
    msAppend cap b sl = (false, sl) := by simp [msAppend, h]

theorem msAppend_room {cap : Nat} {sl : Slot} (h : sl.len.toNat ≠ cap) (b : Byte) :
    msAppend cap b sl =
      (true, { sl with buf := sl.buf.write sl.len.toNat b, len := sl.len + 1#8 }) := by simp [msAppend, h]

/-- Below 255 the used length grows by exactly one. -/
theorem toNat_len_succ {v : BitVec 8} (h : v.toNat < 255) : (v + 1#8).toNat = v.toNat + 1 := by
  simp [BitVec.toNat_add]; omega

/-- Appending bytes that fit stores them from `len` on, in order, and changes nothing else of the slot. -/
theorem msAppendAll_fits {cap : Nat} (hcap : cap ≤ 255) (bs : List Byte) (sl : Slot) (hw : sl.buf.wf)
    (hb : ∀ c ∈ sl.buf, c.1 < cap) (hl : sl.len.toNat + bs.length ≤ cap) :
    ∃ buf len, msAppendAll cap bs sl = (true, { sl with buf := buf, len := len }) ∧
      len.toNat = sl.len.toNat + bs.length ∧ buf.wf ∧ (∀ c ∈ buf, c.1 < cap) ∧
      (∀ k, k < bs.length → bs[k]? = some (buf.read (sl.len.toNat + k))) ∧
      ∀ a, a < sl.len.toNat ∨ sl.len.toNat + bs.length ≤ a → buf.read a = sl.buf.read a := by
  induction bs generalizing sl with
  | nil => exact ⟨sl.buf, sl.len, rfl, by simp, hw, hb, by simp, by simp⟩
  | cons b bs ih =>
    have hlen : sl.len.toNat + (bs.length + 1) ≤ cap := hl
    have hroom := msAppend_room (sl := sl) (cap := cap) (by omega) b
    have hs := toNat_len_succ (v := sl.len) (by omega)
    obtain ⟨buf, len, h1, h2, h3, h4, h5, h6⟩ :=
      ih (msAppend cap b sl).2 (by rw [hroom]; exact Memory.wf_write hw _ _)
        (by rw [hroom]; exact Memory.bound_write hb (by omega) _) (by rw [hroom]; simp only; omega)
    rw [hroom] at h1 h2 h5 h6
    simp only [hs] at h2 h5 h6
    refine ⟨buf, len, ?_, by rw [h2, List.length_cons]; omega, h3, h4, fun k hk => ?_, fun a ha => ?_⟩
    · rw [msAppendAll, if_pos (by rw [hroom]), hroom]
      exact h1
    · cases k with
      | zero =>
        rw [Nat.add_zero, h6 _ (.inl (by omega)), Memory.read_write hw, if_pos rfl]; rfl
      | succ k =>
        have := h5 k (by simpa using hk)
        rw [List.getElem?_cons_succ, this, Nat.add_assoc, Nat.add_comm 1 k]
    · rw [List.length_cons] at ha
      rw [h6 a (by omega), Memory.read_write hw, if_neg (by omega)]

theorem msAppendEach_eq {cap : Nat} (bs : List Byte) (sl : Slot) (h : (msAppendAll cap bs sl).1 = true) :
    msAppendEach cap bs sl = (msAppendAll cap bs sl).2 := by
  induction bs generalizing sl with
  | nil => rfl
  | cons b bs ih =>
    rw [msAppendAll] at h ⊢
    split at h
    · rw [if_pos ‹_›]; exact ih _ h
    · simp at h

/-- Filling an emptied slot with bytes that fit: it then holds exactly them (R199, R240). -/
theorem fill_holds {cap : Nat} (hcap : cap ≤ 255) (bs : List Byte) (sl : Slot) (hw : sl.buf.wf)
    (hb : ∀ c ∈ sl.buf, c.1 < cap) (hl : bs.length ≤ cap) :
    ∃ buf len, msAppendAll cap bs (msDiscard sl) = (true, { sl with buf := buf, len := len }) ∧
      Slot.Holds { sl with buf := buf, len := len } sl bs ∧ buf.wf ∧ ∀ c ∈ buf, c.1 < cap := by
  obtain ⟨buf, len, h1, h2, h3, h4, h5, h6⟩ :=
    msAppendAll_fits hcap bs (msDiscard sl) hw hb (by simpa [msDiscard] using hl)
  simp only [msDiscard, BitVec.toNat_zero, Nat.zero_add] at h2 h5 h6
  refine ⟨buf, len, h1, ⟨h2, ?_, fun a ha => h6 a (.inr ha)⟩, h3, h4⟩
  refine List.ext_getElem? fun k => ?_
  rw [Memory.getElem?_bytes]
  split
  · exact (h5 k ‹_›).symm
  · rw [List.getElem?_eq_none (by omega)]

/-! ### The invariant of a slot (R33 to R38, R39 a) -/

theorem Slot.reset_inv (cfg : Config) : Slot.reset.Inv cfg := by
  refine ⟨Memory.wf_nil, by simp [Slot.reset], by simp [Slot.reset], by decide, Timer.reset_inv⟩

theorem msAppend_inv {cfg : Config} (hcap : cfg.slotCap ≤ 255) {sl : Slot} (h : sl.Inv cfg) (b : Byte) :
    (msAppend cfg.slotCap b sl).2.Inv cfg := by
  obtain ⟨h1, h2, h3, h4, h5⟩ := h
  by_cases hl : sl.len.toNat = cfg.slotCap
  · rw [msAppend_full hl]; exact ⟨h1, h2, h3, h4, h5⟩
  · rw [msAppend_room hl]
    refine ⟨Memory.wf_write h1 _ _, Memory.bound_write h2 (by omega) _, ?_, h4, h5⟩
    show (sl.len + 1#8).toNat ≤ _
    rw [toNat_len_succ (by omega)]; omega

theorem msAppendEach_inv {cfg : Config} (hcap : cfg.slotCap ≤ 255) (bs : List Byte) {sl : Slot}
    (h : sl.Inv cfg) : (msAppendEach cfg.slotCap bs sl).Inv cfg := by
  induction bs generalizing sl with
  | nil => exact h
  | cons b bs ih => exact ih (msAppend_inv hcap h b)

theorem msAppendAll_inv {cfg : Config} (hcap : cfg.slotCap ≤ 255) (bs : List Byte) {sl : Slot}
    (h : sl.Inv cfg) : (msAppendAll cfg.slotCap bs sl).2.Inv cfg := by
  induction bs generalizing sl with
  | nil => exact h
  | cons b bs ih =>
    rw [msAppendAll]
    split
    · exact ih (msAppend_inv hcap h b)
    · exact msAppend_inv hcap h b

theorem msDiscard_inv {cfg : Config} {sl : Slot} (h : sl.Inv cfg) : (msDiscard sl).Inv cfg :=
  ⟨h.1, h.2.1, Nat.zero_le _, h.2.2.2⟩

theorem freed_inv {cfg : Config} {sl : Slot} (h : sl.Inv cfg) : (freed sl).Inv cfg :=
  ⟨h.1, h.2.1, Nat.zero_le _, by simp [freed], h.2.2.2.2⟩

theorem msIncTx_inv {cfg : Config} {sl : Slot} (h : sl.Inv cfg) : (msIncTx sl).Inv cfg := h

theorem msResetDeadline_inv {cfg : Config} (now : U32) {sl : Slot} (h : sl.Inv cfg) :
    (msResetDeadline now sl).Inv cfg := ⟨h.1, h.2.1, h.2.2.1, h.2.2.2.1, tmrRestart_inv _ _⟩

theorem sat8Inc_ne_zero (v : BitVec 8) : sat8Inc v ≠ 0#8 := by
  revert v; decide

theorem Slot.aged_inv {cfg : Config} {sl : Slot} (h : sl.Inv cfg) : sl.aged.Inv cfg := by
  rw [Slot.aged_eq]
  split
  · exact ⟨h.1, h.2.1, h.2.2.1, by simp [sat8Inc_ne_zero, *], h.2.2.2.2⟩
  · exact h

/-! ### The invariant of a store -/

theorem Store.inv_iff {cfg : Config} {v : Store} :
    Store.Inv cfg v ↔ v.length = cfg.nSlots ∧ ∀ i, i < v.length → (slotAt v i).Inv cfg := by
  rw [Store.Inv, forall_mem_iff_slotAt]

theorem Store.slotAt_inv {cfg : Config} {v : Store} (h : Store.Inv cfg v) (i : Nat) : (slotAt v i).Inv cfg := by
  by_cases hi : i < v.length
  · exact (Store.inv_iff.1 h).2 i hi
  · rw [slotAt_of_le (by omega)]; exact Slot.reset_inv cfg

theorem changedAt_inv {cfg : Config} {v w : Store} {i : Nat} {sl : Slot} (h : Store.Inv cfg v)
    (hc : ChangedAt v w i sl) (hs : sl.Inv cfg) : Store.Inv cfg w := by
  refine Store.inv_iff.2 ⟨hc.1.trans h.1, fun j _ => ?_⟩
  by_cases hj : j = i
  · rw [hj, hc.2.1]; exact hs
  · rw [hc.2.2 j hj]; exact Store.slotAt_inv h j

theorem bumpedTo_inv {cfg : Config} {v w : Store} {i : Nat} {sl : Slot} (h : Store.Inv cfg v)
    (hc : BumpedTo v w i sl) (hs : sl.Inv cfg) : Store.Inv cfg w := by
  refine Store.inv_iff.2 ⟨hc.1.trans h.1, fun j _ => ?_⟩
  by_cases hj : j = i
  · rw [hj, hc.2.1]; exact hs
  · rw [hc.2.2 j hj]; exact Slot.aged_inv (Store.slotAt_inv h j)

theorem modify_inv {cfg : Config} {v : Store} (h : Store.Inv cfg v) (i : Nat) {f : Slot → Slot}
    (hf : ∀ sl, sl.Inv cfg → (f sl).Inv cfg) : Store.Inv cfg (v.modify i f) := by
  refine Store.inv_iff.2 ⟨by simpa using h.1, fun j _ => ?_⟩
  rw [slotAt_modify]
  split
  · exact hf _ (Store.slotAt_inv h i)
  · exact Store.slotAt_inv h j

theorem bump_modify_inv {cfg : Config} {v : Store} (h : Store.Inv cfg v) (i : Nat) {f : Slot → Slot}
    (hf : ∀ sl : Slot, sl.Inv cfg → (f { sl with rank := 1#8 }).Inv cfg) :
    Store.Inv cfg ((bump i v).modify i f) := by
  by_cases hi : i < v.length
  · exact bumpedTo_inv h (bumpedTo_modify hi f) (hf _ (Store.slotAt_inv h i))
  · refine Store.inv_iff.2 ⟨by simpa using h.1, fun j hj => ?_⟩
    have hj' : j < v.length := by simpa using hj
    rw [slotAt_modify, if_neg (by simp; omega), slotAt_bump_other (by omega)]
    exact Slot.aged_inv (Store.slotAt_inv h j)

theorem msValidate_inv {cfg : Config} {v : Store} (h : Store.Inv cfg v) (i : Nat) (now d : U32) :
    Store.Inv cfg (msValidate i now d v) :=
  bump_modify_inv h i fun sl hs => ⟨hs.1, hs.2.1, hs.2.2.1, by simp, tmrStart_inv now d sl.tmr⟩

theorem msMarkRetx_inv {cfg : Config} {v : Store} (h : Store.Inv cfg v) (i : Nat) (now d : U32) :
    Store.Inv cfg (msMarkRetx i now d v) :=
  bump_modify_inv h i fun sl hs => ⟨hs.1, hs.2.1, hs.2.2.1, by simp, tmrStart_inv now d sl.tmr⟩

theorem msDelete_inv {cfg : Config} {v : Store} (h : Store.Inv cfg v) (i : Nat) :
    Store.Inv cfg (msDelete i v) := by
  cases hv : (slotAt v i).valid with
  | false => rw [msDelete_free hv]; exact h
  | true =>
    obtain ⟨h1, h2, h3⟩ := msDelete_deletedFrom hv
    refine Store.inv_iff.2 ⟨h1.trans h.1, fun j _ => ?_⟩
    by_cases hj : j = i
    · rw [hj, h2]; exact freed_inv (Store.slotAt_inv h i)
    · rw [h3 j hj]
      have hs := Store.slotAt_inv h j
      split
      · rename_i hc
        refine ⟨hs.1, hs.2.1, hs.2.2.1, ?_, hs.2.2.2.2⟩
        have h0 := (Store.slotAt_inv h i).2.2.2.1.1 hv
        simp only [hc.1, true_iff]
        simp only [BitVec.lt_def, ne_eq, ← BitVec.toNat_inj, BitVec.toNat_sub] at hc h0 ⊢
        simp at hc h0 ⊢
        omega
      · exact hs

theorem msClearAll_inv {cfg : Config} {v : Store} (h : Store.Inv cfg v) : Store.Inv cfg (msClearAll v) := by
  refine ⟨by simpa [msClearAll] using h.1, fun sl hsl => ?_⟩
  obtain ⟨x, hx, rfl⟩ := List.mem_map.1 hsl
  exact freed_inv (h.2 x hx)

theorem replicate_reset_inv (cfg : Config) : Store.Inv cfg (List.replicate cfg.nSlots Slot.reset) :=
  ⟨by simp, fun sl hsl => by rw [List.eq_of_mem_replicate hsl]; exact Slot.reset_inv cfg⟩

end Sys2Proof.Machine
end

