-- ==== Sys2Proof/Laws/State.lean ====
section
/-! SUPPORT. What each update of the state record does to each field. -/

namespace Sys2Proof.Machine

section
variable (s : State)

@[simp] theorem State.fresh_cfg : (s.fresh).cfg = s.cfg := rfl
@[simp] theorem State.fresh_rxb : (s.fresh).rxb = s.rxb := rfl
@[simp] theorem State.fresh_fp : (s.fresh).fp = s.fp := rfl
@[simp] theorem State.fresh_inb : (s.fresh).inb = s.inb := rfl
@[simp] theorem State.fresh_outb : (s.fresh).outb = s.outb := rfl
@[simp] theorem State.fresh_nak : (s.fresh).nak = s.nak := rfl
@[simp] theorem State.fresh_eng : (s.fresh).eng = s.eng := rfl
@[simp] theorem State.fresh_now : (s.fresh).now = s.now := rfl
@[simp] theorem State.fresh_txAnswer : (s.fresh).txAnswer = s.txAnswer := rfl
@[simp] theorem State.fresh_rsp : (s.fresh).rsp = none := rfl
@[simp] theorem State.fresh_trace : (s.fresh).trace = [] := rfl
@[simp] theorem State.fresh_pending : (s.fresh).pending = s.pending := rfl

end

section
variable (s : State) (e : OutEvent)

@[simp] theorem State.emit_cfg : (s.emit e).cfg = s.cfg := rfl
@[simp] theorem State.emit_rxb : (s.emit e).rxb = s.rxb := rfl
@[simp] theorem State.emit_fp : (s.emit e).fp = s.fp := rfl
@[simp] theorem State.emit_inb : (s.emit e).inb = s.inb := rfl
@[simp] theorem State.emit_outb : (s.emit e).outb = s.outb := rfl
@[simp] theorem State.emit_nak : (s.emit e).nak = s.nak := rfl
@[simp] theorem State.emit_eng : (s.emit e).eng = s.eng := rfl
@[simp] theorem State.emit_now : (s.emit e).now = s.now := rfl
@[simp] theorem State.emit_txAnswer : (s.emit e).txAnswer = s.txAnswer := rfl
@[simp] theorem State.emit_rsp : (s.emit e).rsp = s.rsp := rfl
@[simp] theorem State.emit_trace : (s.emit e).trace = s.trace ++ [e] := rfl
@[simp] theorem State.emit_pending : (s.emit e).pending = s.pending := rfl

end

section
variable (s : State) (b : List Byte)

@[simp] theorem State.transmit_cfg : (s.transmit b).cfg = s.cfg := rfl
@[simp] theorem State.transmit_rxb : (s.transmit b).rxb = s.rxb := rfl
@[simp] theorem State.transmit_fp : (s.transmit b).fp = s.fp := rfl
@[simp] theorem State.transmit_inb : (s.transmit b).inb = s.inb := rfl
@[simp] theorem State.transmit_outb : (s.transmit b).outb = s.outb := rfl
@[simp] theorem State.transmit_nak : (s.transmit b).nak = s.nak := rfl
@[simp] theorem State.transmit_eng : (s.transmit b).eng = s.eng := rfl
@[simp] theorem State.transmit_now : (s.transmit b).now = s.now := rfl
@[simp] theorem State.transmit_txAnswer : (s.transmit b).txAnswer = s.txAnswer := rfl
@[simp] theorem State.transmit_rsp : (s.transmit b).rsp = s.rsp := rfl
@[simp] theorem State.transmit_trace : (s.transmit b).trace = s.trace ++ [.tx b] := rfl
@[simp] theorem State.transmit_pending : (s.transmit b).pending = s.pending := rfl

end

section
variable (s : State)

@[simp] theorem State.stopReception_cfg : (s.stopReception).cfg = s.cfg := rfl
@[simp] theorem State.stopReception_rxb : (s.stopReception).rxb = s.rxb := rfl
@[simp] theorem State.stopReception_fp : (s.stopReception).fp = s.fp := rfl
@[simp] theorem State.stopReception_inb : (s.stopReception).inb = s.inb := rfl
@[simp] theorem State.stopReception_outb : (s.stopReception).outb = s.outb := rfl
@[simp] theorem State.stopReception_nak : (s.stopReception).nak = s.nak := rfl
@[simp] theorem State.stopReception_eng : (s.stopReception).eng = ⟨false⟩ := rfl
@[simp] theorem State.stopReception_now : (s.stopReception).now = s.now := rfl
@[simp] theorem State.stopReception_txAnswer : (s.stopReception).txAnswer = s.txAnswer := rfl
@[simp] theorem State.stopReception_rsp : (s.stopReception).rsp = s.rsp := rfl
@[simp] theorem State.stopReception_trace : (s.stopReception).trace = s.trace ++ [.rxStop] := rfl
@[simp] theorem State.stopReception_pending : (s.stopReception).pending = s.pending := rfl

end

section
variable (s : State)

@[simp] theorem State.startReception_cfg : (s.startReception).cfg = s.cfg := rfl
@[simp] theorem State.startReception_rxb : (s.startReception).rxb = s.rxb := rfl
@[simp] theorem State.startReception_fp : (s.startReception).fp = s.fp := rfl
@[simp] theorem State.startReception_inb : (s.startReception).inb = s.inb := rfl
@[simp] theorem State.startReception_outb : (s.startReception).outb = s.outb := rfl
@[simp] theorem State.startReception_nak : (s.startReception).nak = s.nak := rfl
@[simp] theorem State.startReception_eng : (s.startReception).eng = ⟨true⟩ := rfl
@[simp] theorem State.startReception_now : (s.startReception).now = s.now := rfl
@[simp] theorem State.startReception_txAnswer : (s.startReception).txAnswer = s.txAnswer := rfl
@[simp] theorem State.startReception_rsp : (s.startReception).rsp = s.rsp := rfl
@[simp] theorem State.startReception_trace : (s.startReception).trace = s.trace ++ [.rxStart] := rfl
@[simp] theorem State.startReception_pending : (s.startReception).pending = s.pending := rfl

end

section
variable (s : State) (c : Status) (v : U32)

@[simp] theorem State.respond_cfg : (s.respond c v).cfg = s.cfg := rfl
@[simp] theorem State.respond_rxb : (s.respond c v).rxb = s.rxb := rfl
@[simp] theorem State.respond_fp : (s.respond c v).fp = s.fp := rfl
@[simp] theorem State.respond_inb : (s.respond c v).inb = s.inb := rfl
@[simp] theorem State.respond_outb : (s.respond c v).outb = s.outb := rfl
@[simp] theorem State.respond_nak : (s.respond c v).nak = s.nak := rfl
@[simp] theorem State.respond_eng : (s.respond c v).eng = s.eng := rfl
@[simp] theorem State.respond_now : (s.respond c v).now = s.now := rfl
@[simp] theorem State.respond_txAnswer : (s.respond c v).txAnswer = s.txAnswer := rfl
@[simp] theorem State.respond_rsp : (s.respond c v).rsp = some ⟨c.code, v⟩ := rfl
@[simp] theorem State.respond_trace : (s.respond c v).trace = s.trace := rfl
@[simp] theorem State.respond_pending : (s.respond c v).pending = s.pending := rfl

end

section
variable (s : State) (v : U32)

@[simp] theorem State.ok_cfg : (s.ok v).cfg = s.cfg := rfl
@[simp] theorem State.ok_rxb : (s.ok v).rxb = s.rxb := rfl
@[simp] theorem State.ok_fp : (s.ok v).fp = s.fp := rfl
@[simp] theorem State.ok_inb : (s.ok v).inb = s.inb := rfl
@[simp] theorem State.ok_outb : (s.ok v).outb = s.outb := rfl
@[simp] theorem State.ok_nak : (s.ok v).nak = s.nak := rfl
@[simp] theorem State.ok_eng : (s.ok v).eng = s.eng := rfl
@[simp] theorem State.ok_now : (s.ok v).now = s.now := rfl
@[simp] theorem State.ok_txAnswer : (s.ok v).txAnswer = s.txAnswer := rfl
@[simp] theorem State.ok_rsp : (s.ok v).rsp = some ⟨0x00#8, v⟩ := rfl
@[simp] theorem State.ok_trace : (s.ok v).trace = s.trace := rfl
@[simp] theorem State.ok_pending : (s.ok v).pending = s.pending := rfl

end

section
variable (s : State)

@[simp] theorem State.illegal_cfg : (s.illegal).cfg = s.cfg := rfl
@[simp] theorem State.illegal_rxb : (s.illegal).rxb = s.rxb := rfl
@[simp] theorem State.illegal_fp : (s.illegal).fp = s.fp := rfl
@[simp] theorem State.illegal_inb : (s.illegal).inb = s.inb := rfl
@[simp] theorem State.illegal_outb : (s.illegal).outb = s.outb := rfl
@[simp] theorem State.illegal_nak : (s.illegal).nak = s.nak := rfl
@[simp] theorem State.illegal_eng : (s.illegal).eng = s.eng := rfl
@[simp] theorem State.illegal_now : (s.illegal).now = s.now := rfl
@[simp] theorem State.illegal_txAnswer : (s.illegal).txAnswer = s.txAnswer := rfl
@[simp] theorem State.illegal_rsp : (s.illegal).rsp = some ⟨0xFF#8, 0#32⟩ := rfl
@[simp] theorem State.illegal_trace : (s.illegal).trace = s.trace := rfl
@[simp] theorem State.illegal_pending : (s.illegal).pending = s.pending := rfl

end

section
variable (s : State) (n : U32) (k : Nat) (l : List Transaction)

@[simp] theorem State.sample_cfg : (s.sample n k l).cfg = s.cfg := rfl
@[simp] theorem State.sample_rxb : (s.sample n k l).rxb = s.rxb := rfl
@[simp] theorem State.sample_fp : (s.sample n k l).fp = s.fp := rfl
@[simp] theorem State.sample_inb : (s.sample n k l).inb = s.inb := rfl
@[simp] theorem State.sample_outb : (s.sample n k l).outb = s.outb := rfl
@[simp] theorem State.sample_nak : (s.sample n k l).nak = s.nak := rfl
@[simp] theorem State.sample_eng : (s.sample n k l).eng = s.eng := rfl
@[simp] theorem State.sample_now : (s.sample n k l).now = n := rfl
@[simp] theorem State.sample_txAnswer : (s.sample n k l).txAnswer = k := rfl
@[simp] theorem State.sample_rsp : (s.sample n k l).rsp = s.rsp := rfl
@[simp] theorem State.sample_trace : (s.sample n k l).trace = s.trace := rfl
@[simp] theorem State.sample_pending : (s.sample n k l).pending = l := rfl

end

section
variable (s : State) (b : Bool)

@[simp] theorem State.setFail_cfg : (s.setFail b).cfg = s.cfg := rfl
@[simp] theorem State.setFail_rxb : (s.setFail b).rxb = s.rxb := rfl
@[simp] theorem State.setFail_fp : (s.setFail b).fp = ⟨b, s.fp.itmr⟩ := rfl
@[simp] theorem State.setFail_inb : (s.setFail b).inb = s.inb := rfl
@[simp] theorem State.setFail_outb : (s.setFail b).outb = s.outb := rfl
@[simp] theorem State.setFail_nak : (s.setFail b).nak = s.nak := rfl
@[simp] theorem State.setFail_eng : (s.setFail b).eng = s.eng := rfl
@[simp] theorem State.setFail_now : (s.setFail b).now = s.now := rfl
@[simp] theorem State.setFail_txAnswer : (s.setFail b).txAnswer = s.txAnswer := rfl
@[simp] theorem State.setFail_rsp : (s.setFail b).rsp = s.rsp := rfl
@[simp] theorem State.setFail_trace : (s.setFail b).trace = s.trace := rfl
@[simp] theorem State.setFail_pending : (s.setFail b).pending = s.pending := rfl

end

section
variable (s : State)

@[simp] theorem State.stopItmr_cfg : (s.stopItmr).cfg = s.cfg := rfl
@[simp] theorem State.stopItmr_rxb : (s.stopItmr).rxb = s.rxb := rfl
@[simp] theorem State.stopItmr_fp : (s.stopItmr).fp = ⟨s.fp.fail, tmrStop s.fp.itmr⟩ := rfl
@[simp] theorem State.stopItmr_inb : (s.stopItmr).inb = s.inb := rfl
@[simp] theorem State.stopItmr_outb : (s.stopItmr).outb = s.outb := rfl
@[simp] theorem State.stopItmr_nak : (s.stopItmr).nak = s.nak := rfl
@[simp] theorem State.stopItmr_eng : (s.stopItmr).eng = s.eng := rfl
@[simp] theorem State.stopItmr_now : (s.stopItmr).now = s.now := rfl
@[simp] theorem State.stopItmr_txAnswer : (s.stopItmr).txAnswer = s.txAnswer := rfl
@[simp] theorem State.stopItmr_rsp : (s.stopItmr).rsp = s.rsp := rfl
@[simp] theorem State.stopItmr_trace : (s.stopItmr).trace = s.trace := rfl
@[simp] theorem State.stopItmr_pending : (s.stopItmr).pending = s.pending := rfl

end

section
variable (s : State)

@[simp] theorem State.clearRxb_cfg : (s.clearRxb).cfg = s.cfg := rfl
@[simp] theorem State.clearRxb_rxb : (s.clearRxb).rxb = rxbClear s.rxb := rfl
@[simp] theorem State.clearRxb_fp : (s.clearRxb).fp = s.fp := rfl
@[simp] theorem State.clearRxb_inb : (s.clearRxb).inb = s.inb := rfl
@[simp] theorem State.clearRxb_outb : (s.clearRxb).outb = s.outb := rfl
@[simp] theorem State.clearRxb_nak : (s.clearRxb).nak = s.nak := rfl
@[simp] theorem State.clearRxb_eng : (s.clearRxb).eng = s.eng := rfl
@[simp] theorem State.clearRxb_now : (s.clearRxb).now = s.now := rfl
@[simp] theorem State.clearRxb_txAnswer : (s.clearRxb).txAnswer = s.txAnswer := rfl
@[simp] theorem State.clearRxb_rsp : (s.clearRxb).rsp = s.rsp := rfl
@[simp] theorem State.clearRxb_trace : (s.clearRxb).trace = s.trace := rfl
@[simp] theorem State.clearRxb_pending : (s.clearRxb).pending = s.pending := rfl

end

section
variable (s : State) (st : StoreSel) (v : Store)

@[simp] theorem State.setStore_cfg : (s.setStore st v).cfg = s.cfg := by cases st <;> rfl
@[simp] theorem State.setStore_rxb : (s.setStore st v).rxb = s.rxb := by cases st <;> rfl
@[simp] theorem State.setStore_fp : (s.setStore st v).fp = s.fp := by cases st <;> rfl
@[simp] theorem State.setStore_nak : (s.setStore st v).nak = s.nak := by cases st <;> rfl
@[simp] theorem State.setStore_eng : (s.setStore st v).eng = s.eng := by cases st <;> rfl
@[simp] theorem State.setStore_now : (s.setStore st v).now = s.now := by cases st <;> rfl
@[simp] theorem State.setStore_txAnswer : (s.setStore st v).txAnswer = s.txAnswer := by cases st <;> rfl
@[simp] theorem State.setStore_rsp : (s.setStore st v).rsp = s.rsp := by cases st <;> rfl
@[simp] theorem State.setStore_trace : (s.setStore st v).trace = s.trace := by cases st <;> rfl
@[simp] theorem State.setStore_pending : (s.setStore st v).pending = s.pending := by cases st <;> rfl
@[simp] theorem State.setStore_inb_inb : (s.setStore .inb v).inb = v := rfl
@[simp] theorem State.setStore_inb_outb : (s.setStore .inb v).outb = s.outb := rfl
@[simp] theorem State.setStore_outb_inb : (s.setStore .outb v).inb = s.inb := rfl
@[simp] theorem State.setStore_outb_outb : (s.setStore .outb v).outb = v := rfl
@[simp] theorem State.store_inb : s.store .inb = s.inb := rfl
@[simp] theorem State.store_outb : s.store .outb = s.outb := rfl
@[simp] theorem State.store_setStore : (s.setStore st v).store st = v := by cases st <;> rfl

theorem State.store_setStore_of_ne {st st' : StoreSel} (h : st' ≠ st) :
    (s.setStore st v).store st' = s.store st' := by
  cases st <;> cases st' <;> simp_all

@[simp] theorem State.setStore_self : s.setStore st (s.store st) = s := by cases st <;> rfl

end

section
variable (s : State)

@[simp] theorem nakResetCounter_cfg : (nakResetCounter s).cfg = s.cfg := rfl
@[simp] theorem nakResetCounter_rxb : (nakResetCounter s).rxb = s.rxb := rfl
@[simp] theorem nakResetCounter_fp : (nakResetCounter s).fp = s.fp := rfl
@[simp] theorem nakResetCounter_inb : (nakResetCounter s).inb = s.inb := rfl
@[simp] theorem nakResetCounter_outb : (nakResetCounter s).outb = s.outb := rfl
@[simp] theorem nakResetCounter_nak : (nakResetCounter s).nak = ⟨0#8, s.nak.many⟩ := rfl
@[simp] theorem nakResetCounter_eng : (nakResetCounter s).eng = s.eng := rfl
@[simp] theorem nakResetCounter_now : (nakResetCounter s).now = s.now := rfl
@[simp] theorem nakResetCounter_txAnswer : (nakResetCounter s).txAnswer = s.txAnswer := rfl
@[simp] theorem nakResetCounter_rsp : (nakResetCounter s).rsp = s.rsp := rfl
@[simp] theorem nakResetCounter_trace : (nakResetCounter s).trace = s.trace := rfl
@[simp] theorem nakResetCounter_pending : (nakResetCounter s).pending = s.pending := rfl

end

section
variable (s : State)

@[simp] theorem nakResetState_cfg : (nakResetState s).cfg = s.cfg := rfl
@[simp] theorem nakResetState_rxb : (nakResetState s).rxb = s.rxb := rfl
@[simp] theorem nakResetState_fp : (nakResetState s).fp = s.fp := rfl
@[simp] theorem nakResetState_inb : (nakResetState s).inb = s.inb := rfl
@[simp] theorem nakResetState_outb : (nakResetState s).outb = s.outb := rfl
@[simp] theorem nakResetState_nak : (nakResetState s).nak = ⟨s.nak.cnt, false⟩ := rfl
@[simp] theorem nakResetState_eng : (nakResetState s).eng = s.eng := rfl
@[simp] theorem nakResetState_now : (nakResetState s).now = s.now := rfl
@[simp] theorem nakResetState_txAnswer : (nakResetState s).txAnswer = s.txAnswer := rfl
@[simp] theorem nakResetState_rsp : (nakResetState s).rsp = s.rsp := rfl
@[simp] theorem nakResetState_trace : (nakResetState s).trace = s.trace := rfl
@[simp] theorem nakResetState_pending : (nakResetState s).pending = s.pending := rfl

end

section
variable (s : State)

@[simp] theorem fpReset_cfg : (fpReset s).cfg = s.cfg := rfl
@[simp] theorem fpReset_rxb : (fpReset s).rxb = rxbClear s.rxb := rfl
@[simp] theorem fpReset_fp : (fpReset s).fp = ⟨false, tmrStop s.fp.itmr⟩ := rfl
@[simp] theorem fpReset_inb : (fpReset s).inb = s.inb := rfl
@[simp] theorem fpReset_outb : (fpReset s).outb = s.outb := rfl
@[simp] theorem fpReset_nak : (fpReset s).nak = s.nak := rfl
@[simp] theorem fpReset_eng : (fpReset s).eng = s.eng := rfl
@[simp] theorem fpReset_now : (fpReset s).now = s.now := rfl
@[simp] theorem fpReset_txAnswer : (fpReset s).txAnswer = s.txAnswer := rfl
@[simp] theorem fpReset_rsp : (fpReset s).rsp = s.rsp := rfl
@[simp] theorem fpReset_trace : (fpReset s).trace = s.trace := rfl
@[simp] theorem fpReset_pending : (fpReset s).pending = s.pending := rfl

end

section
variable (s : State) (i : Nat)

@[simp] theorem countFailure_cfg : (countFailure i s).cfg = s.cfg := rfl
@[simp] theorem countFailure_rxb : (countFailure i s).rxb = s.rxb := rfl
@[simp] theorem countFailure_fp : (countFailure i s).fp = s.fp := rfl
@[simp] theorem countFailure_inb : (countFailure i s).inb = s.inb := rfl
@[simp] theorem countFailure_outb : (countFailure i s).outb = s.outb.modify i msIncTx := rfl
@[simp] theorem countFailure_nak : (countFailure i s).nak = s.nak := rfl
@[simp] theorem countFailure_eng : (countFailure i s).eng = s.eng := rfl
@[simp] theorem countFailure_now : (countFailure i s).now = s.now := rfl
@[simp] theorem countFailure_txAnswer : (countFailure i s).txAnswer = s.txAnswer := rfl
@[simp] theorem countFailure_rsp : (countFailure i s).rsp = s.rsp := rfl
@[simp] theorem countFailure_trace : (countFailure i s).trace = s.trace := rfl
@[simp] theorem countFailure_pending : (countFailure i s).pending = s.pending := rfl

end

section
variable (s : State) (d : Nat)

@[simp] theorem freeInbound_cfg : (freeInbound d s).cfg = s.cfg := rfl
@[simp] theorem freeInbound_rxb : (freeInbound d s).rxb = s.rxb := rfl
@[simp] theorem freeInbound_fp : (freeInbound d s).fp = s.fp := rfl
@[simp] theorem freeInbound_inb : (freeInbound d s).inb = msDelete d s.inb := rfl
@[simp] theorem freeInbound_outb : (freeInbound d s).outb = s.outb := rfl
@[simp] theorem freeInbound_nak : (freeInbound d s).nak = s.nak := rfl
@[simp] theorem freeInbound_eng : (freeInbound d s).eng = s.eng := rfl
@[simp] theorem freeInbound_now : (freeInbound d s).now = s.now := rfl
@[simp] theorem freeInbound_txAnswer : (freeInbound d s).txAnswer = s.txAnswer := rfl
@[simp] theorem freeInbound_rsp : (freeInbound d s).rsp = s.rsp := rfl
@[simp] theorem freeInbound_trace : (freeInbound d s).trace = s.trace := rfl
@[simp] theorem freeInbound_pending : (freeInbound d s).pending = s.pending := rfl

end

section
variable (s : State) (i : Nat)

@[simp] theorem resend_cfg : (resend i s).cfg = s.cfg := rfl
@[simp] theorem resend_rxb : (resend i s).rxb = s.rxb := rfl
@[simp] theorem resend_fp : (resend i s).fp = s.fp := rfl
@[simp] theorem resend_inb : (resend i s).inb = s.inb := rfl
@[simp] theorem resend_outb : (resend i s).outb = msMarkRetx i s.now s.cfg.tTxDeadline s.outb := rfl
@[simp] theorem resend_nak : (resend i s).nak = s.nak := rfl
@[simp] theorem resend_eng : (resend i s).eng = s.eng := rfl
@[simp] theorem resend_now : (resend i s).now = s.now := rfl
@[simp] theorem resend_txAnswer : (resend i s).txAnswer = s.txAnswer := rfl
@[simp] theorem resend_rsp : (resend i s).rsp = s.rsp := rfl
@[simp] theorem resend_trace : (resend i s).trace = s.trace ++ [.tx (frameOf i s)] := rfl
@[simp] theorem resend_pending : (resend i s).pending = s.pending := rfl

end

section
variable (s : State) (b : Bool)

@[simp] theorem State.okUnit_cfg : (s.okUnit b).cfg = s.cfg := by cases b <;> rfl
@[simp] theorem State.okUnit_rxb : (s.okUnit b).rxb = s.rxb := by cases b <;> rfl
@[simp] theorem State.okUnit_fp : (s.okUnit b).fp = s.fp := by cases b <;> rfl
@[simp] theorem State.okUnit_inb : (s.okUnit b).inb = s.inb := by cases b <;> rfl
@[simp] theorem State.okUnit_outb : (s.okUnit b).outb = s.outb := by cases b <;> rfl
@[simp] theorem State.okUnit_nak : (s.okUnit b).nak = s.nak := by cases b <;> rfl
@[simp] theorem State.okUnit_eng : (s.okUnit b).eng = s.eng := by cases b <;> rfl
@[simp] theorem State.okUnit_now : (s.okUnit b).now = s.now := by cases b <;> rfl
@[simp] theorem State.okUnit_txAnswer : (s.okUnit b).txAnswer = s.txAnswer := by cases b <;> rfl
@[simp] theorem State.okUnit_trace : (s.okUnit b).trace = s.trace := by cases b <;> rfl
@[simp] theorem State.okUnit_pending : (s.okUnit b).pending = s.pending := by cases b <;> rfl

end

section
variable (s : State) (o : Option Byte)

@[simp] theorem State.okByte_cfg : (s.okByte o).cfg = s.cfg := by cases o <;> rfl
@[simp] theorem State.okByte_rxb : (s.okByte o).rxb = s.rxb := by cases o <;> rfl
@[simp] theorem State.okByte_fp : (s.okByte o).fp = s.fp := by cases o <;> rfl
@[simp] theorem State.okByte_inb : (s.okByte o).inb = s.inb := by cases o <;> rfl
@[simp] theorem State.okByte_outb : (s.okByte o).outb = s.outb := by cases o <;> rfl
@[simp] theorem State.okByte_nak : (s.okByte o).nak = s.nak := by cases o <;> rfl
@[simp] theorem State.okByte_eng : (s.okByte o).eng = s.eng := by cases o <;> rfl
@[simp] theorem State.okByte_now : (s.okByte o).now = s.now := by cases o <;> rfl
@[simp] theorem State.okByte_txAnswer : (s.okByte o).txAnswer = s.txAnswer := by cases o <;> rfl
@[simp] theorem State.okByte_trace : (s.okByte o).trace = s.trace := by cases o <;> rfl
@[simp] theorem State.okByte_pending : (s.okByte o).pending = s.pending := by cases o <;> rfl

end

section
variable (s : State) (o : Option Nat)

@[simp] theorem State.okIndex_cfg : (s.okIndex o).cfg = s.cfg := by cases o <;> rfl
@[simp] theorem State.okIndex_rxb : (s.okIndex o).rxb = s.rxb := by cases o <;> rfl
@[simp] theorem State.okIndex_fp : (s.okIndex o).fp = s.fp := by cases o <;> rfl
@[simp] theorem State.okIndex_inb : (s.okIndex o).inb = s.inb := by cases o <;> rfl
@[simp] theorem State.okIndex_outb : (s.okIndex o).outb = s.outb := by cases o <;> rfl
@[simp] theorem State.okIndex_nak : (s.okIndex o).nak = s.nak := by cases o <;> rfl
@[simp] theorem State.okIndex_eng : (s.okIndex o).eng = s.eng := by cases o <;> rfl
@[simp] theorem State.okIndex_now : (s.okIndex o).now = s.now := by cases o <;> rfl
@[simp] theorem State.okIndex_txAnswer : (s.okIndex o).txAnswer = s.txAnswer := by cases o <;> rfl
@[simp] theorem State.okIndex_trace : (s.okIndex o).trace = s.trace := by cases o <;> rfl
@[simp] theorem State.okIndex_pending : (s.okIndex o).pending = s.pending := by cases o <;> rfl

end

@[simp] theorem State.fresh_store (s : State) (st : StoreSel) : s.fresh.store st = s.store st := by cases st <;> rfl
@[simp] theorem State.fresh_slot (s : State) (sel : SSel) : s.fresh.slot sel = s.slot sel := by simp [State.slot]
@[simp] theorem State.fresh_timer (s : State) (t : TSel) : s.fresh.timer t = s.timer t := by cases t <;> simp [State.timer]

@[simp] theorem rxRestart_rxb (s : State) : (rxRestart s).rxb = s.rxb := by
  unfold rxRestart; split <;> rfl

end Sys2Proof.Machine
end

