-- ==== Sys2Proof/Laws/Parser.lean ====
section
/-! SUPPORT. The FrameParser: which step answers, and what each step does (R192 to R201). -/

namespace Sys2Proof.Machine

theorem latchOnDiscard_eq (fail : Bool) :
    latchOnDiscard fail = (!fail, if fail then .timeout else .reqNak) := by cases fail <;> rfl

theorem latchOnDrop_eq (fail : Bool) :
    latchOnDrop fail = (true, if fail then .byteDropped else .reqNak) := by cases fail <;> rfl

@[simp] theorem State.armedItmr_active (s : State) : s.armedItmr.active = true := by
  unfold State.armedItmr; split <;> simp_all

theorem State.armedItmr_inv {s : State} (h : s.fp.itmr.Inv) : s.armedItmr.Inv := by
  unfold State.armedItmr; split
  · exact h
  · rfl

theorem State.armedItmr_of_inactive {s : State} (h : s.fp.itmr.active = false) :
    s.armedItmr = Timer.started s.now 100#32 := by simp [State.armedItmr, h, Timer.started]

@[simp] theorem State.fresh_q (s : State) : s.fresh.q = s.q := rfl
@[simp] theorem State.fresh_armedItmr (s : State) : s.fresh.armedItmr = s.armedItmr := rfl

theorem State.q_length (s : State) : s.q.length = s.rxb.cnt := length_contents _ _

theorem State.q_eq_nil {s : State} : s.q = [] ↔ s.rxb.cnt = 0 := contents_eq_nil

theorem fpArm_of_pending {s : State} (h : s.rxb.cnt ≠ 0) :
    fpArm s = { s with fp := ⟨s.fp.fail, s.armedItmr⟩ } := by
  unfold fpArm State.armedItmr
  cases ha : s.fp.itmr.active with
  | true => simp
  | false =>
    have : 0 < s.rxb.cnt := by omega
    simp [this, tmrStart]

@[simp] theorem fpArm_cfg (s : State) : (fpArm s).cfg = s.cfg := by unfold fpArm; split <;> rfl
@[simp] theorem fpArm_rxb (s : State) : (fpArm s).rxb = s.rxb := by unfold fpArm; split <;> rfl
@[simp] theorem fpArm_inb (s : State) : (fpArm s).inb = s.inb := by unfold fpArm; split <;> rfl
@[simp] theorem fpArm_outb (s : State) : (fpArm s).outb = s.outb := by unfold fpArm; split <;> rfl
@[simp] theorem fpArm_nak (s : State) : (fpArm s).nak = s.nak := by unfold fpArm; split <;> rfl
@[simp] theorem fpArm_eng (s : State) : (fpArm s).eng = s.eng := by unfold fpArm; split <;> rfl
@[simp] theorem fpArm_now (s : State) : (fpArm s).now = s.now := by unfold fpArm; split <;> rfl
@[simp] theorem fpArm_txAnswer (s : State) : (fpArm s).txAnswer = s.txAnswer := by unfold fpArm; split <;> rfl
@[simp] theorem fpArm_rsp (s : State) : (fpArm s).rsp = s.rsp := by unfold fpArm; split <;> rfl
@[simp] theorem fpArm_trace (s : State) : (fpArm s).trace = s.trace := by unfold fpArm; split <;> rfl
@[simp] theorem fpArm_pending (s : State) : (fpArm s).pending = s.pending := by unfold fpArm; split <;> rfl
@[simp] theorem fpArm_q (s : State) : (fpArm s).q = s.q := by simp [State.q]

theorem fpArm_of_empty {s : State} (h : s.rxb.cnt = 0) : fpArm s = s := by simp [fpArm, h]

/-- Step 1 (R193). -/
theorem fpParse_overflow {s : State} (d : Nat) (h : s.rxb.ovf = true) : fpParse d s =
    (if s.fp.fail then .timeout else .reqNak,
      { s with rxb := { s.rxb with rd := 0, cnt := 0, ovf := false },
               fp := ⟨!s.fp.fail, s.fp.itmr⟩ }) := by
  simp only [fpParse, h, if_true, fpOverflow, latchOnDiscard_eq]; rfl

/-- Step 2 with nothing pending (R194). -/
theorem fpParse_empty {s : State} (d : Nat) (ho : s.rxb.ovf = false) (h : s.q = []) :
    fpParse d s = (.tooFew, s) := by
  have h := State.q_eq_nil.1 h
  simp [fpParse, ho, h, fpArm_of_empty h]

theorem fpParse_pending {s : State} (d : Nat) (ho : s.rxb.ovf = false) (h : s.q ≠ []) :
    fpParse d s = fpPending d (fpArm s) := by
  have h : s.rxb.cnt ≠ 0 := fun hc => h (State.q_eq_nil.2 hc)
  simp [fpParse, ho, h]

/-- Step 3 (R195). -/
theorem fpParse_expired {s : State} (d : Nat) (ho : s.rxb.ovf = false) (h : s.q ≠ [])
    (ht : s.armedItmr.timedOut s.now = true) : fpParse d s =
    (if s.fp.fail then .timeout else .reqNak,
      { s with rxb := { s.rxb with rd := 0, cnt := 0, ovf := false },
               fp := ⟨!s.fp.fail, { s.armedItmr with active := false }⟩ }) := by
  have hc : s.rxb.cnt ≠ 0 := fun hc => h (State.q_eq_nil.2 hc)
  rw [fpParse_pending d ho h, fpArm_of_pending hc, fpPending, if_pos ht]
  simp only [fpExpire, latchOnDiscard_eq]; rfl

/-- Step 4 (R196). -/
theorem fpParse_short {s : State} (d : Nat) (ho : s.rxb.ovf = false) (h : s.q ≠ [])
    (ht : s.armedItmr.timedOut s.now = false) (hs : s.q.length < 4) :
    fpParse d s = (.tooFew, fpArm s) := by
  have hc : s.rxb.cnt ≠ 0 := fun hc => h (State.q_eq_nil.2 hc)
  rw [State.q_length] at hs
  rw [fpParse_pending d ho h, fpPending, if_neg, if_pos (by simpa using hs)]
  rw [fpArm_of_pending hc]; simp [ht]

/-- Steps 5 on, with four bytes or more (R197). -/
theorem fpParse_frame {s : State} (d : Nat) (ho : s.rxb.ovf = false)
    (ht : s.armedItmr.timedOut s.now = false) (hs : 4 ≤ s.q.length) :
    fpParse d s = fpFrame d (fpArm s) := by
  have h : s.q ≠ [] := fun hq => by simp [hq] at hs
  have hc : s.rxb.cnt ≠ 0 := fun hc => h (State.q_eq_nil.2 hc)
  rw [State.q_length] at hs
  rw [fpParse_pending d ho h, fpPending, if_neg, if_neg (by simpa [minFrame] using hs)]
  rw [fpArm_of_pending hc]; simp [ht]

/-- The header bytes are the first three bytes of the ring's contents. -/
theorem headerByte_eq {s : State} {k : Nat} {b : Byte} (h : s.q[k]? = some b) : headerByte s k = b := by
  unfold State.q at h
  rw [getElem?_contents] at h
  split at h
  · exact Option.some.inj h
  · simp at h

/-- `DROP` (R201). -/
theorem fpDrop_eq (s : State) : fpDrop s =
    (if s.fp.fail then .byteDropped else .reqNak,
      { s with rxb := (rxbPop s.cfg.ringCap s.rxb).2, fp := ⟨true, s.fp.itmr⟩ }) := by
  simp only [fpDrop, latchOnDrop_eq]; rfl

/-- Step 5 on a bad header (R197). -/
theorem fpFrame_bad {s : State} (d : Nat) {m c l : Byte} {rest : List Byte} (hq : s.q = m :: c :: l :: rest)
    (h : ¬ (m = magicRx ∧ WlAdmits s.cfg.wlRx c l.toNat)) : fpFrame d s = fpDrop s := by
  have h0 : headerByte s 0 = m := headerByte_eq (by rw [hq]; rfl)
  have h1 : headerByte s 1 = c := headerByte_eq (by rw [hq]; rfl)
  have h2 : headerByte s 2 = l := headerByte_eq (by rw [hq]; rfl)
  rw [fpFrame, h0, h1, h2, if_neg (by rw [headerOk_iff]; exact h)]

/-- Steps 6 and 7 on a good header (R198, R199). -/
theorem fpFrame_good {s : State} (d : Nat) {m c l : Byte} {rest : List Byte} (hq : s.q = m :: c :: l :: rest)
    (h : m = magicRx ∧ WlAdmits s.cfg.wlRx c l.toNat) : fpFrame d s =
      if s.q.length < l.toNat + 4 then (.tooFew, s) else fpTake d (l.toNat + 4) s := by
  have h0 : headerByte s 0 = m := headerByte_eq (by rw [hq]; rfl)
  have h1 : headerByte s 1 = c := headerByte_eq (by rw [hq]; rfl)
  have h2 : headerByte s 2 = l := headerByte_eq (by rw [hq]; rfl)
  rw [fpFrame, h0, h1, h2, if_pos (headerOk_iff.2 h), State.q_length]

/-- Step 7's copy of a frame that fits: the slot then holds it, and the test is the frame's fold (R199). -/
theorem fpCopy_spec {s : State} {full : Nat} {sl : Slot} (hsl : sl.Inv s.cfg) (hcap : s.cfg.slotCap ≤ 255)
    (hf : full ≤ s.cfg.slotCap) (hq : full ≤ s.q.length) :
    ∃ buf len, fpCopy s full sl = (true, { sl with buf := buf, len := len }) ∧
      Slot.Holds { sl with buf := buf, len := len } sl (s.q.take full) ∧ buf.wf ∧
      (∀ c ∈ buf, c.1 < s.cfg.slotCap) ∧
      (fpCopyGood s full sl = true ↔ xorFold (s.q.take full) = 0#8) := by
  have hl : (s.q.take full).length = full := by simp [hq]
  obtain ⟨buf, len, h1, h2, h3, h4⟩ :=
    fill_holds hcap (s.q.take full) sl hsl.1 hsl.2.1 (by rw [hl]; exact hf)
  refine ⟨buf, len, h1, h2, h3, h4, ?_⟩
  have hb : buf.bytes full = s.q.take full := by have := h2.2.1; rwa [hl] at this
  have h1' : fpCopy s full sl = (true, { sl with buf := buf, len := len }) := h1
  rw [fpCopyGood, h1', hb, Bool.true_and, cksVerify_iff]

/-! ### What the parser leaves alone -/

/-- What stays the same over an operation of the parser: all but `rxb`, `fp` and the inbound store. -/
def ParserFrame (s t : State) : Prop :=
  t = { s with rxb := t.rxb, fp := t.fp, inb := t.inb }

theorem ParserFrame.refl (s : State) : ParserFrame s s := rfl

theorem ParserFrame.trans {s t u : State} (h : ParserFrame s t) (h' : ParserFrame t u) : ParserFrame s u := by
  unfold ParserFrame at *; rw [h', h]

theorem fpArm_frame (s : State) : ParserFrame s (fpArm s) := by
  unfold fpArm; split <;> rfl

theorem fpFrame_frame (d : Nat) (s : State) : ParserFrame s (fpFrame d s).2 := by
  unfold fpFrame
  split
  · split
    · rfl
    · unfold fpTake; split
      · rfl
      · rw [fpDrop_eq]; rfl
  · rw [fpDrop_eq]; rfl

theorem fpParse_frame_eq (d : Nat) (s : State) : ParserFrame s (fpParse d s).2 := by
  cases ho : s.rxb.ovf with
  | true => rw [fpParse_overflow d ho]; rfl
  | false =>
    by_cases hq : s.q = []
    · rw [fpParse_empty d ho hq]; rfl
    · cases ht : s.armedItmr.timedOut s.now with
      | true => rw [fpParse_expired d ho hq ht]; rfl
      | false =>
        by_cases hs : s.q.length < 4
        · rw [fpParse_short d ho hq ht hs]; exact fpArm_frame s
        · rw [fpParse_frame d ho ht (by omega)]
          exact (fpArm_frame s).trans (fpFrame_frame d _)

/-- Steps 7 and 8 on a whole legal frame (R199, R200): exactly its bytes are consumed, the destination holds it,
newest, its window running; the latch is clear and the timer stopped. -/
theorem fpParse_accepts {s : State} {d : Nat} {m c l : Byte} {tail rest : List Byte} (hi : s.Inv)
    (hd : d < s.cfg.nSlots) (ho : s.rxb.ovf = false) (ht : s.armedItmr.timedOut s.now = false) (hm : m = magicRx)
    (hw : WlAdmits s.cfg.wlRx c l.toNat) (htl : tail.length = l.toNat + 1)
    (hx : xorFold (m :: c :: l :: tail) = 0#8) (hq : s.q = (m :: c :: l :: tail) ++ rest) :
    ∃ r v sl, fpParse d s =
      (.ok, { s with rxb := r, fp := ⟨false, { s.armedItmr with active := false }⟩, inb := v }) ∧
      contents s.cfg.ringCap r = rest ∧ r.ovf = false ∧ (∀ a, r.mem.read a = s.rxb.mem.read a) ∧
      BumpedTo s.inb v d sl ∧ sl.Holds (slotAt s.inb d) (m :: c :: l :: tail) ∧
      sl.JustValidated s.now 1000#32 := by
  have hfit := admitted_fits hi.1 (.inl hw)
  have hsl := Store.slotAt_inv hi.2.2.2.1 d
  have hlen : d < s.inb.length := by rw [hi.2.2.2.1.1]; exact hd
  have hflen : (m :: c :: l :: tail).length = l.toNat + 4 := by simp [htl]
  have htk : s.q.take (l.toNat + 4) = m :: c :: l :: tail := by rw [hq, List.take_left' hflen]
  have hql : l.toNat + 4 ≤ s.q.length := by rw [hq, List.length_append, hflen]; omega
  obtain ⟨buf, len, h1, h2, h3, h5, h6⟩ := fpCopy_spec (s := (fpArm s)) (full := l.toNat + 4) (sl := slotAt s.inb d) (by simpa using hsl) (by simpa using wf_slotCap hi.1) (by simpa using hfit.2) (by simpa using hql)
  have hg := h6.2 (by simp only [fpArm_q]; rw [htk]; exact hx)
  have hc0 : s.rxb.cnt ≠ 0 := by rw [← State.q_length]; omega
  have hv := msValidate_bumpedTo (v := s.inb.modify d (fun sl => (fpCopy (fpArm s) (l.toNat + 4) sl).2)) (i := d) (by simpa using hlen) s.now tAckWin
  have hc := changedAt_modify hlen (fun sl => (fpCopy (fpArm s) (l.toNat + 4) sl).2)
  rw [hc.2.1, h1] at hv
  refine ⟨rxbPopN s.cfg.ringCap (l.toNat + 4) s.rxb, _, _, ?_, ?_, by simpa using ho, by simp, ⟨hv.1.trans hc.1, hv.2.1, fun j hj => by rw [hv.2.2 j hj, hc.2.2 j hj]⟩, ?_, ⟨rfl, rfl, rfl, rfl⟩⟩
  · rw [fpParse_frame _ ho ht (by omega), fpFrame_good (s := fpArm s) (m := m) (c := c) (l := l) (rest := tail ++ rest) _ (by simpa using hq) ⟨hm, by simpa using hw⟩]
    rw [if_neg (by simp; omega), fpTake, if_pos (by simpa using hg), fpAccept]
    simp only [fpArm_inb, fpArm_now, fpArm_rxb, fpArm_cfg]
    generalize fpCopy (fpArm s) = F
    rw [fpArm_of_pending hc0]; rfl
  · rw [contents_popN]; show s.q.drop _ = _; rw [hq, List.drop_left' hflen]
  · have : (s.q.take (l.toNat + 4)) = m :: c :: l :: tail := htk
    have h2' : Slot.Holds { (slotAt s.inb d) with buf := buf, len := len } (slotAt s.inb d) (s.q.take (l.toNat + 4)) := by simpa using h2
    rw [this] at h2'
    exact h2'

/-- The parser stops exactly where it would accept and the accepted slot's bump meets rank 255 (R173). -/
theorem fpMeetsTop_iff {d : Nat} {s : State} :
    fpMeetsTop d s = true ↔ (fpParse d s).1 = .ok ∧ BumpMeetsTop d s.inb := by
  simp [fpMeetsTop, meetsTop_iff]

end Sys2Proof.Machine
end

