-- ==== Sys2Proof/Laws/Engine.lean ====
section
/-! SUPPORT. The NAK guard and the ProtocolEngine's helpers: each as all it can do. -/

namespace Sys2Proof.Machine

theorem sat8Inc_eq_satSucc (v : BitVec 8) : sat8Inc v = satSucc v := by
  revert v; decide

theorem toNat_satSucc (v : BitVec 8) : (satSucc v).toNat = min 255 (v.toNat + 1) := by
  simp [satSucc]

theorem nakTrips_iff {v : BitVec 8} : nakTrips v = true ↔ 3 ≤ v.toNat := by
  simp [nakTrips, BitVec.le_def]

theorem retriesUsedUp_iff {v : BitVec 8} : retriesUsedUp v = true ↔ 3 ≤ v.toNat := by
  simp [retriesUsedUp, BitVec.le_def]

/-- Below the limit a request emits (R220). -/
theorem nakRequest_below {s : State} (h : (satSucc s.nak.cnt).toNat < 3) : nakRequest s =
    { s with nak := ⟨satSucc s.nak.cnt, s.nak.many⟩,
             trace := s.trace ++ [.tx (withChecksum [s.cfg.magicTx, s.cfg.cmdNak, 0x00#8])] } := by
  have : nakTrips (satSucc s.nak.cnt) = false := by
    rw [← Bool.not_eq_true, nakTrips_iff]; omega
  simp only [nakRequest, sat8Inc_eq_satSucc, this, metaFrame_eq]; rfl

/-- At the limit a request is suppressed and sets "too many" (R220). -/
theorem nakRequest_limit {s : State} (h : 3 ≤ (satSucc s.nak.cnt).toNat) :
    nakRequest s = { s with nak := ⟨satSucc s.nak.cnt, true⟩ } := by
  simp only [nakRequest, sat8Inc_eq_satSucc, nakTrips_iff.2 h, if_true]

theorem nakEmits_iff (s : State) : nakEmits s = true ↔ (satSucc s.nak.cnt).toNat < 3 := by
  rw [nakEmits, sat8Inc_eq_satSucc, Bool.not_eq_true', ← Bool.not_eq_true, nakTrips_iff]; omega

/-! ### Retries (R244) -/

theorem countFailure_eq (i : Nat) (s : State) :
    countFailure i s = { s with outb := s.outb.modify i msIncTx } := rfl

/-- A counted failure goes into the slot's transmission count alone. -/
theorem countFailure_changedAt {i : Nat} {s : State} (h : i < s.outb.length) :
    ChangedAt s.outb (countFailure i s).outb i
      { slotAt s.outb i with txc := satSucc (slotAt s.outb i).txc } := by
  have := changedAt_modify h msIncTx
  simpa [msIncTx, sat8Inc_eq_satSucc] using this

/-- At the ceiling a retry counts the failure and sends nothing. -/
theorem retrySlot_spent {i : Nat} {s : State} (hi : i < s.outb.length)
    (h : 3 ≤ (satSucc (slotAt s.outb i).txc).toNat) : retrySlot i s = (true, countFailure i s) := by
  have := (countFailure_changedAt hi).2.1
  rw [retrySlot, this, if_pos (retriesUsedUp_iff.2 h)]

/-- Below the ceiling a retry sends the slot's bytes again and makes it the newest. -/
theorem retrySlot_resent {i : Nat} {s : State} (hi : i < s.outb.length)
    (h : (satSucc (slotAt s.outb i).txc).toNat < 3) : ∃ w,
      retrySlot i s = (false, { s with
        outb := w,
        trace := s.trace ++ [.tx ((slotAt s.outb i).buf.bytes (slotAt s.outb i).len.toNat)] }) ∧
      BumpedTo s.outb w i { slotAt s.outb i with
        rank := 1#8, valid := true, txc := satSucc (slotAt s.outb i).txc,
        tmr := ⟨s.now, s.cfg.tTxDeadline, s.now + s.cfg.tTxDeadline, true⟩ } := by
  have hc := countFailure_changedAt hi
  have hf : frameOf i (countFailure i s) = (slotAt s.outb i).buf.bytes (slotAt s.outb i).len.toNat := by
    rw [frameOf, hc.2.1]
  have hm := msMarkRetx_bumpedTo (v := (countFailure i s).outb) (i := i) (by rw [hc.1]; exact hi)
    s.now s.cfg.tTxDeadline
  rw [hc.2.1] at hm
  refine ⟨_, ?_, hm.1.trans hc.1, hm.2.1, fun j hj => by rw [hm.2.2 j hj, hc.2.2 j hj]⟩
  rw [retrySlot, hc.2.1, if_neg (by rw [retriesUsedUp_iff]; simp only; omega), resend, hf]; rfl

/-- One turn of the scan leaves a slot that is not overdue alone. -/
theorem timeoutTurn_skip {acc : Bool × State} {i : Nat}
    (h : ((slotAt acc.2.outb i).valid && (slotAt acc.2.outb i).tmr.timedOut acc.2.now) = false) :
    timeoutTurn acc i = acc := by
  rw [timeoutTurn, Slot.overdue, h]; rfl

/-- One turn of the scan retries a slot that is overdue. -/
theorem timeoutTurn_retry {acc : Bool × State} {i : Nat}
    (h : ((slotAt acc.2.outb i).valid && (slotAt acc.2.outb i).tmr.timedOut acc.2.now) = true) :
    timeoutTurn acc i = (acc.1 || (retrySlot i acc.2).1, (retrySlot i acc.2).2) := by
  rw [timeoutTurn, Slot.overdue, h]; rfl

/-- A retry stops exactly where it would send again and its bump meets rank 255 (R173). -/
theorem retryMeetsTop_iff {i : Nat} {s : State} (hi : i < s.outb.length) : retryMeetsTop i s = true ↔
    (satSucc (slotAt s.outb i).txc).toNat < 3 ∧ BumpMeetsTop i s.outb := by
  rw [retryMeetsTop, Bool.and_eq_true, meetsTop_iff]
  by_cases h : 3 ≤ (satSucc (slotAt s.outb i).txc).toNat
  · simp [retrySlot_spent hi h, h]
  · obtain ⟨w, hw, -⟩ := retrySlot_resent hi (by omega)
    simp [hw, Nat.lt_of_not_le h]

/-- A turn of the scan stops exactly where it would send again and its bump meets rank 255 (R173). -/
theorem turnMeetsTop_iff {i : Nat} {s : State} : turnMeetsTop i s = true ↔
    ((slotAt s.outb i).valid && (slotAt s.outb i).tmr.timedOut s.now) = true ∧
      (satSucc (slotAt s.outb i).txc).toNat < 3 ∧ BumpMeetsTop i s.outb := by
  rw [turnMeetsTop, Bool.and_eq_true, Slot.overdue]
  refine and_congr_right fun h => retryMeetsTop_iff (lt_of_slotAt_valid (i := i) ?_)
  simp only [Bool.and_eq_true] at h
  exact h.1

/-! ### Transmit (R240) -/

/-- The staged slot holds the whole frame, checksum included. -/
theorem stage_holds {cfg : Config} (hcap : cfg.slotCap ≤ 255) (cmd : Byte) (data : List Byte) (sl : Slot)
    (hs : sl.Inv cfg) (hl : data.length + 4 ≤ cfg.slotCap) :
    ∃ buf len, stage cfg cmd data sl = { sl with buf := buf, len := len } ∧
      Slot.Holds { sl with buf := buf, len := len } sl
        (withChecksum (cfg.magicTx :: cmd :: BitVec.ofNat 8 data.length :: data)) ∧
      buf.wf ∧ ∀ c ∈ buf, c.1 < cfg.slotCap := by
  obtain ⟨b1, l1, h1, h2, h3, h4⟩ := fill_holds hcap (txHead cfg cmd data) sl hs.1 hs.2.1
    (by simp [txHead]; omega)
  have hlen : (txHead cfg cmd data).length = data.length + 3 := by simp [txHead]
  have hh : msAppendEach cfg.slotCap (txHead cfg cmd data) (msDiscard sl) = { sl with buf := b1, len := l1 } := by
    rw [msAppendEach_eq _ _ (by rw [h1]), h1]
  obtain ⟨g1, g2, g3⟩ := h2
  rw [hlen] at g1 g2 g3
  simp only at g1 g2 g3
  have hroom := msAppend_room (cap := cfg.slotCap) (sl := { sl with buf := b1, len := l1 })
    (by simp only; omega) (fold (txHead cfg cmd data))
  refine ⟨b1.write l1.toNat (fold (txHead cfg cmd data)), l1 + 1#8, ?_, ⟨?_, ?_, fun a ha => ?_⟩,
    Memory.wf_write h3 _ _, Memory.bound_write h4 (by omega) _⟩
  · rw [stage, hh]
    simp only [g2, msAppendEach, hroom]
  · simp only [toNat_len_succ (v := l1) (by omega), g1, withChecksum, List.length_append, List.length_cons,
      List.length_nil]
  · have : (withChecksum (cfg.magicTx :: cmd :: BitVec.ofNat 8 data.length :: data)).length
        = data.length + 3 + 1 := by simp [withChecksum]
    rw [this, Memory.bytes_succ]
    simp only [Memory.read_write h3, g1, if_true]
    rw [Memory.bytes_congr (m' := b1) fun a ha => by rw [Memory.read_write h3, if_neg (by omega)], g2,
      fold_eq_xorFold]
    rfl
  · have : (withChecksum (cfg.magicTx :: cmd :: BitVec.ofNat 8 data.length :: data)).length
        = data.length + 4 := by simp [withChecksum]
    rw [this] at ha
    simp only [Memory.read_write h3]
    rw [if_neg (by omega)]
    exact g3 a (by omega)

/-- The burst is that frame. -/
theorem stagedFrame_eq {cfg : Config} (hcap : cfg.slotCap ≤ 255) (cmd : Byte) (data : List Byte) (sl : Slot)
    (hs : sl.Inv cfg) (hl : data.length + 4 ≤ cfg.slotCap) : stagedFrame cfg cmd data sl =
      withChecksum (cfg.magicTx :: cmd :: BitVec.ofNat 8 data.length :: data) := by
  obtain ⟨buf, len, h1, ⟨-, h2, -⟩, -⟩ := stage_holds hcap cmd data sl hs hl
  have : (withChecksum (cfg.magicTx :: cmd :: BitVec.ofNat 8 data.length :: data)).length
      = data.length + 4 := by simp [withChecksum]
  rw [this] at h2
  rw [stagedFrame, h1]
  exact h2

theorem stage_inv {cfg : Config} (hcap : cfg.slotCap ≤ 255) (cmd : Byte) (data : List Byte) {sl : Slot}
    (h : sl.Inv cfg) : (stage cfg cmd data sl).Inv cfg :=
  msAppendEach_inv hcap _ (msAppendEach_inv hcap _ (msDiscard_inv h))

/-! ### Full reset (R252) -/

theorem resetAll_eq (s : State) : resetAll s = { s with
    rxb := { s.rxb with rd := 0, cnt := 0, ovf := false },
    fp := ⟨false, { s.fp.itmr with active := false }⟩, inb := msClearAll s.inb, outb := msClearAll s.outb,
    nak := ⟨0#8, false⟩, eng := ⟨true⟩, trace := s.trace ++ [.rxStop, .rxStart] } := by
  simp [resetAll, State.startReception, State.stopReception, State.emit, nakResetState, nakResetCounter, fpReset,
    State.setFail, State.stopItmr, State.clearRxb, tmrStop, rxbClear, ringClear]

end Sys2Proof.Machine
end

