-- ==== Sys2Proof/Laws/PerInstr.lean ====
section
/-! SUPPORT. The encoding of every well-formed instruction is a legal command word with exactly the payload it
calls for (R88, R90, R91), or a received byte (R98): one lemma per constructor. -/

namespace Sys2Proof.Laws.EncodesLegalWord

/-- The encoding of `i`, if `i` is well formed, is a transaction of the spec. -/
def Statement (i : Instr) : Prop :=
  i.wf = true → match encode i with
    | .command w payload => w.Legal ∧ payload.length = payloadCount w
    | .rxByte _ => True

theorem of_plain {i : Instr} {o a : Byte} {b : U32} (ma : Byte) (mb : U32)
    (he : encode i = plainCommand o a b) (hr : (mkWord o 0#8 0#32, mkWord 0xFF#8 ma mb) ∈ opcodeRows)
    (ha : a &&& ma = 0#8) (hb : b &&& mb = 0#32) (hc : payloadCount (mkWord o a b) = 0) :
    Statement i := by
  intro _
  rw [he]
  exact ⟨legal_of_row ma mb hr ha hb, hc.symm⟩

theorem of_payload {i : Instr} {o a : Byte} {data : List Byte} (ma : Byte)
    (he : encode i = payloadCommand o a data)
    (hr : (mkWord o 0#8 0#32, mkWord 0xFF#8 ma 0xFFFF0000#32) ∈ opcodeRows) (ha : a &&& ma = 0#8)
    (hf : i.wf = true → payloadFits data = true)
    (hc : ∀ w : CmdWord, w.op = o → w &&& mkWord 0xFF#8 ma 0xFFFF0000#32 = mkWord o 0#8 0#32 →
      payloadCount w = w.n.toNat) : Statement i := by
  intro h
  rw [he]
  refine ⟨legal_of_row ma _ hr ha (count_and _), ?_⟩
  rw [hc _ (CmdWord.op_mkWord ..) (by rw [mkWord_and, ha, count_and]), count_toNat (hf h)]

theorem engParse : Statement .engParse :=
  of_plain 0xFF#8 0xFFFFFFFF#32 rfl (by decide) rfl rfl (by simp [payloadCount])

theorem engTransmit (cmd : Byte) (data : List Byte) : Statement (.engTransmit cmd data) :=
  of_payload 0x00#8 rfl (by decide) BitVec.and_zero id fun w ho hw => by
    rw [payloadCount, ho]; exact if_pos (by rw [CmdWord.fits, ho]; exact beq_iff_eq.2 hw)

theorem engCountTimeouts : Statement .engCountTimeouts :=
  of_plain 0xFF#8 0xFFFFFFFF#32 rfl (by decide) rfl rfl (by simp [payloadCount])

theorem engHandleTimeouts : Statement .engHandleTimeouts :=
  of_plain 0xFF#8 0xFFFFFFFF#32 rfl (by decide) rfl rfl (by simp [payloadCount])

theorem engGetNewestRx : Statement .engGetNewestRx :=
  of_plain 0xFF#8 0xFFFFFFFF#32 rfl (by decide) rfl rfl (by simp [payloadCount])

theorem engDeleteRx (i : BitVec 7) : Statement (.engDeleteRx i) :=
  of_plain 0x80#8 0xFFFFFFFF#32 rfl (by decide) (idxByte_and _) rfl (by simp [payloadCount])

theorem engResetAll : Statement .engResetAll :=
  of_plain 0xFF#8 0xFFFFFFFF#32 rfl (by decide) rfl rfl (by simp [payloadCount])

theorem engRxLen (i : BitVec 7) : Statement (.engRxLen i) :=
  of_plain 0x80#8 0xFFFFFFFF#32 rfl (by decide) (idxByte_and _) rfl (by simp [payloadCount])

theorem engRxByte (i : BitVec 7) (off : U32) : Statement (.engRxByte i off) :=
  of_plain 0x80#8 0x00000000#32 rfl (by decide) (idxByte_and _) BitVec.and_zero (by simp [payloadCount])

theorem rxbPush (b : Byte) : Statement (.rxbPush b) :=
  of_plain 0xFF#8 0xFFFFFF00#32 rfl (by decide) rfl (byte_and _) (by simp [payloadCount])

theorem rxbPop : Statement .rxbPop :=
  of_plain 0xFF#8 0xFFFFFFFF#32 rfl (by decide) rfl rfl (by simp [payloadCount])

theorem rxbPeek (off : U32) : Statement (.rxbPeek off) :=
  of_plain 0xFF#8 0x00000000#32 rfl (by decide) rfl BitVec.and_zero (by simp [payloadCount])

theorem rxbCount : Statement .rxbCount :=
  of_plain 0xFF#8 0xFFFFFFFF#32 rfl (by decide) rfl rfl (by simp [payloadCount])

theorem rxbClear : Statement .rxbClear :=
  of_plain 0xFF#8 0xFFFFFFFF#32 rfl (by decide) rfl rfl (by simp [payloadCount])

theorem rxbOvf : Statement .rxbOvf :=
  of_plain 0xFF#8 0xFFFFFFFF#32 rfl (by decide) rfl rfl (by simp [payloadCount])

theorem cksCompute (data : List Byte) : Statement (.cksCompute data) :=
  of_payload 0xFF#8 rfl (by decide) rfl id fun w ho hw => by
    rw [payloadCount, ho]; exact if_pos (by rw [CmdWord.fits, ho]; exact beq_iff_eq.2 hw)

theorem cksVerify (data : List Byte) : Statement (.cksVerify data) :=
  of_payload 0xFF#8 rfl (by decide) rfl id fun w ho hw => by
    rw [payloadCount, ho]; exact if_pos (by rw [CmdWord.fits, ho]; exact beq_iff_eq.2 hw)

theorem tmrStart (t : TSel) (d : U32) : Statement (.tmrStart t d) :=
  of_plain 0x00#8 0x00000000#32 rfl (by decide) BitVec.and_zero BitVec.and_zero (by simp [payloadCount])

theorem tmrStop (t : TSel) : Statement (.tmrStop t) :=
  of_plain 0x00#8 0xFFFFFFFF#32 rfl (by decide) BitVec.and_zero rfl (by simp [payloadCount])

theorem tmrRestart (t : TSel) : Statement (.tmrRestart t) :=
  of_plain 0x00#8 0xFFFFFFFF#32 rfl (by decide) BitVec.and_zero rfl (by simp [payloadCount])

theorem tmrTimedout (t : TSel) : Statement (.tmrTimedout t) :=
  of_plain 0x00#8 0xFFFFFFFF#32 rfl (by decide) BitVec.and_zero rfl (by simp [payloadCount])

theorem tmrRead (t : TSel) (f : TmrField) : Statement (.tmrRead t f) :=
  of_plain 0x00#8 0xFFFFFFFC#32 rfl (by decide) BitVec.and_zero (by cases f <;> rfl) (by simp [payloadCount])

theorem msGetFree (st : StoreSel) : Statement (.msGetFree st) :=
  of_plain 0x7F#8 0xFFFFFFFF#32 rfl (by decide) (storeByte_and _) rfl (by simp [payloadCount])

theorem msAppend (sel : SSel) (b : Byte) : Statement (.msAppend sel b) :=
  of_plain 0x00#8 0xFFFFFF00#32 rfl (by decide) BitVec.and_zero (byte_and _) (by simp [payloadCount])

theorem msValidate (sel : SSel) (t : U32) : Statement (.msValidate sel t) :=
  of_plain 0x00#8 0x00000000#32 rfl (by decide) BitVec.and_zero BitVec.and_zero (by simp [payloadCount])

theorem msMarkRetx (sel : SSel) (t : U32) : Statement (.msMarkRetx sel t) :=
  of_plain 0x00#8 0x00000000#32 rfl (by decide) BitVec.and_zero BitVec.and_zero (by simp [payloadCount])

theorem msDelete (sel : SSel) : Statement (.msDelete sel) :=
  of_plain 0x00#8 0xFFFFFFFF#32 rfl (by decide) BitVec.and_zero rfl (by simp [payloadCount])

theorem msGetOldest (st : StoreSel) : Statement (.msGetOldest st) :=
  of_plain 0x7F#8 0xFFFFFFFF#32 rfl (by decide) (storeByte_and _) rfl (by simp [payloadCount])

theorem msGetNewest (st : StoreSel) : Statement (.msGetNewest st) :=
  of_plain 0x7F#8 0xFFFFFFFF#32 rfl (by decide) (storeByte_and _) rfl (by simp [payloadCount])

theorem msCountTimedout (st : StoreSel) : Statement (.msCountTimedout st) :=
  of_plain 0x7F#8 0xFFFFFFFF#32 rfl (by decide) (storeByte_and _) rfl (by simp [payloadCount])

theorem msOldestTimedout (st : StoreSel) : Statement (.msOldestTimedout st) :=
  of_plain 0x7F#8 0xFFFFFFFF#32 rfl (by decide) (storeByte_and _) rfl (by simp [payloadCount])

theorem msIncTx (sel : SSel) : Statement (.msIncTx sel) :=
  of_plain 0x00#8 0xFFFFFFFF#32 rfl (by decide) BitVec.and_zero rfl (by simp [payloadCount])

theorem msResetDeadline (sel : SSel) : Statement (.msResetDeadline sel) :=
  of_plain 0x00#8 0xFFFFFFFF#32 rfl (by decide) BitVec.and_zero rfl (by simp [payloadCount])

theorem msReadByte (sel : SSel) (off : U32) : Statement (.msReadByte sel off) :=
  of_plain 0x00#8 0x00000000#32 rfl (by decide) BitVec.and_zero BitVec.and_zero (by simp [payloadCount])

theorem msReadInfo (sel : SSel) (f : SlotField) : Statement (.msReadInfo sel f) :=
  of_plain 0x00#8 0xFFFFFFFC#32 rfl (by decide) BitVec.and_zero (by cases f <;> rfl) (by simp [payloadCount])

theorem msDiscard (sel : SSel) : Statement (.msDiscard sel) :=
  of_plain 0x00#8 0xFFFFFFFF#32 rfl (by decide) BitVec.and_zero rfl (by simp [payloadCount])

theorem msClearAll (st : StoreSel) : Statement (.msClearAll st) :=
  of_plain 0x7F#8 0xFFFFFFFF#32 rfl (by decide) (storeByte_and _) rfl (by simp [payloadCount])

theorem fpParse (d : BitVec 7) : Statement (.fpParse d) :=
  of_plain 0x80#8 0xFFFFFFFF#32 rfl (by decide) (idxByte_and _) rfl (by simp [payloadCount])

theorem fpReset : Statement .fpReset :=
  of_plain 0xFF#8 0xFFFFFFFF#32 rfl (by decide) rfl rfl (by simp [payloadCount])

theorem fpRead : Statement .fpRead :=
  of_plain 0xFF#8 0xFFFFFFFF#32 rfl (by decide) rfl rfl (by simp [payloadCount])

theorem nakRequest : Statement .nakRequest :=
  of_plain 0xFF#8 0xFFFFFFFF#32 rfl (by decide) rfl rfl (by simp [payloadCount])

theorem nakResetCounter : Statement .nakResetCounter :=
  of_plain 0xFF#8 0xFFFFFFFF#32 rfl (by decide) rfl rfl (by simp [payloadCount])

theorem nakResetState : Statement .nakResetState :=
  of_plain 0xFF#8 0xFFFFFFFF#32 rfl (by decide) rfl rfl (by simp [payloadCount])

theorem nakRead (f : NakField) : Statement (.nakRead f) :=
  of_plain 0xFF#8 0xFFFFFFFE#32 rfl (by decide) rfl (by cases f <;> rfl) (by simp [payloadCount])

theorem rxByte (b : Byte) : Statement (.rxByte b) := fun _ => trivial

end Sys2Proof.Laws.EncodesLegalWord
end

