-- ==== Sys2Proof/Laws/Step.lean ====
section
/-! SUPPORT. What a transaction and a step can do, said once. -/

namespace Sys2Proof.Machine

/-- A transaction of a block that exists completes, its body run with the outputs of the one before gone. -/
theorem transact_wf {s : State} (h : s.cfg.wf = true) (body : State → State) :
    transact s body = .next (body s.fresh) := if_pos h

theorem transact_ill {s : State} (h : s.cfg.wf = false) (body : State → State) :
    transact s body = .fault .illFormedConfiguration := if_neg (by simp [h])

/-- All a transaction that completes can have done. -/
theorem transact_next {s t : State} {body : State → State} (h : transact s body = .next t) :
    s.cfg.wf = true ∧ t = body s.fresh := by
  unfold transact at h
  split at h
  · exact ⟨‹_›, (Host.Outcome.next.inj h).symm⟩
  · cases h

theorem transactIf_legal {s : State} (h : s.cfg.wf = true) (body : State → State) :
    transactIf true s body = .next (body s.fresh) := transact_wf h _

/-- An illegal selector answers ILLEGAL (R95). -/
theorem transactIf_illegal {s : State} (h : s.cfg.wf = true) (body : State → State) :
    transactIf false s body = .next { s with rsp := illegalRsp, trace := [] } := transact_wf h _

/-- All a transaction on a selector that completes can have done. -/
theorem transactIf_next {s t : State} {legal : Bool} {body : State → State}
    (h : transactIf legal s body = .next t) : s.cfg.wf = true ∧
      ((legal = true ∧ t = body s.fresh) ∨
        (legal = false ∧ t = { s with rsp := illegalRsp, trace := [] })) := by
  obtain ⟨h1, h2⟩ := transact_next h
  refine ⟨h1, ?_⟩
  cases legal with
  | true => exact .inl ⟨rfl, h2⟩
  | false => exact .inr ⟨rfl, h2⟩

/-- Where no bump meets rank 255 a bumping transaction is a transaction. -/
theorem transactBump_below {s : State} {top : State → Bool} (h : top s.fresh = false) (body : State → State) :
    transactBump top s body = transact s body := by simp [transactBump, h]

/-- Where a bump would meet rank 255 the model stops (R173). -/
theorem transactBump_top {s : State} {top : State → Bool} (hw : s.cfg.wf = true) (h : top s.fresh = true)
    (body : State → State) : transactBump top s body = .fault .rankSaturation := by
  simp [transactBump, hw, h]

theorem transactBump_ill {s : State} (h : s.cfg.wf = false) (top : State → Bool) (body : State → State) :
    transactBump top s body = .fault .illFormedConfiguration := by
  rw [transactBump, h, Bool.false_and, if_neg Bool.false_ne_true, transact_ill h]

/-- All a bumping transaction that completes can have done. -/
theorem transactBump_next {s t : State} {top : State → Bool} {body : State → State}
    (h : transactBump top s body = .next t) :
    s.cfg.wf = true ∧ top s.fresh = false ∧ t = body s.fresh := by
  unfold transactBump at h
  split at h
  · cases h
  · rename_i hc
    obtain ⟨h1, h2⟩ := transact_next h
    rw [h1, Bool.true_and, Bool.not_eq_true] at hc
    exact ⟨h1, hc, h2⟩

theorem transactBumpIf_below {s : State} (hw : s.cfg.wf = true) {top : State → Bool} (h : top s.fresh = false)
    (body : State → State) : transactBumpIf true top s body = .next (body s.fresh) :=
  (transactBump_below (by simpa using h) _).trans (transact_wf hw _)

theorem transactBumpIf_top {s : State} (hw : s.cfg.wf = true) {top : State → Bool} (h : top s.fresh = true)
    (body : State → State) : transactBumpIf true top s body = .fault .rankSaturation :=
  transactBump_top hw (by simpa using h) _

/-- An illegal selector answers ILLEGAL (R95), whatever the ranks. -/
theorem transactBumpIf_illegal {s : State} (hw : s.cfg.wf = true) (top : State → Bool) (body : State → State) :
    transactBumpIf false top s body = .next { s with rsp := illegalRsp, trace := [] } :=
  (transactBump_below (by simp) _).trans (transact_wf hw _)

/-- All a bumping transaction on a selector that completes can have done. -/
theorem transactBumpIf_next {s t : State} {legal : Bool} {top : State → Bool} {body : State → State}
    (h : transactBumpIf legal top s body = .next t) : s.cfg.wf = true ∧
      ((legal = true ∧ top s.fresh = false ∧ t = body s.fresh) ∨
        (legal = false ∧ t = { s with rsp := illegalRsp, trace := [] })) := by
  obtain ⟨h1, h2, h3⟩ := transactBump_next h
  refine ⟨h1, ?_⟩
  cases legal with
  | true => exact .inl ⟨rfl, by simpa using h2, h3⟩
  | false => exact .inr ⟨rfl, h3⟩

/-- All a step that gives a next state can have done: nothing was offered; a hardware reset; an instruction on
the sampled inputs; an illegal word answered. -/
theorem step_cases {s t : State} (h : step s = .next t) :
    (s.pending = [] ∧ t = s) ∨
    (∃ rest, s.pending = .hardwareReset :: rest ∧ s.cfg.wf = true ∧ t = State.resetOf s.cfg rest) ∨
    (∃ now txAnswer o rest i, s.pending = .offer now txAnswer o :: rest ∧ decode o = .ok i ∧
      exec i (s.sample now txAnswer rest) = .next t) ∨
    (∃ now txAnswer o rest, s.pending = .offer now txAnswer o :: rest ∧ s.cfg.wf = true ∧
      t = { s.sample now txAnswer rest with rsp := illegalRsp, trace := [] }) := by
  unfold step at h
  split at h
  · rename_i hp; exact .inl ⟨hp, (Host.Outcome.next.inj h).symm⟩
  · rename_i rest hp
    obtain ⟨h1, h2⟩ := transact_next h
    exact .inr (.inl ⟨rest, hp, h1, h2⟩)
  · rename_i now txAnswer o rest hp
    split at h
    · rename_i i hd; exact .inr (.inr (.inl ⟨now, txAnswer, o, rest, i, hp, hd, h⟩))
    · rename_i e hd
      refine .inr (.inr (.inr ⟨now, txAnswer, o, rest, hp, ?_⟩))
      unfold rejected at h
      split at h
      · exact transact_next h
      · exact transact_next h
      · cases h

end Sys2Proof.Machine
end

