-- ==== Sys2Proof/Tests/Slice0.lean ====
section
/-! SUPPORT. The model's own tests: ill-formed terms each check refuses; for every constructor its word written
out from 30_encoding.md, and one step of a vector of 95_test_vectors.md or 96_test_vectors_protocol.md; and for
every obligation with hypotheses a state and operands that meet them. -/

namespace Sys2Proof.Tests

open Sys2Proof Sys2Proof.Machine

set_option Elab.async false

/-! ### Small states -/

/-- An empty ring after pushing these bytes. -/
def rx (bs : List Byte) : RxBuffer := bs.foldl (fun r b => (rxbPush 64 b r).2) ⟨[], 0, 0, false⟩

/-- The reset state with these bytes in the ring, at time `now`. -/
def ring (now : U32) (bs : List Byte) : State := { State.reset with rxb := rx bs, now := now, txAnswer := 255 }

/-- A valid slot: rank, failures, deadline from `start` for 1000 ticks, bytes. -/
def sl (rank txc : BitVec 8) (start : U32) (bs : List Byte) : Slot :=
  { msAppendEach 40 bs Slot.reset with
    rank := rank, valid := true, txc := txc, tmr := Timer.started start 1000#32 }

/-- The store of five slots that begins with these. -/
def five (v : Store) : Store := v ++ List.replicate (5 - v.length) Slot.reset

/-- The outbound store of S4 after its row 3: slots 0, 1, 2 validated in order. -/
def abc : Store := five [sl 3 0 10 [], sl 2 0 11 [], sl 1 0 12 []]

/-- The outbound store of VE-5 after its row 3. -/
def ve5 : Store :=
  five [sl 3 0 100 [0x01, 0x70, 0x01, 0xA0, 0x7A], sl 2 0 600 [0x01, 0x70, 0x01, 0xA1, 0x7B],
    sl 1 0 700 [0x01, 0x70, 0x01, 0xA2, 0x78]]

/-- The inbound store of VE-4 after its row 5. -/
def ve4 : Store :=
  [sl 5 0 108 [0x02, 0x60, 0x01, 0x00, 0xC9], sl 4 0 118 [0x02, 0x60, 0x01, 0x01, 0xC8],
    sl 3 0 128 [0x02, 0x60, 0x01, 0x02, 0xCB], sl 2 0 138 [0x02, 0x60, 0x01, 0x03, 0xCA],
    sl 1 0 148 [0x02, 0x60, 0x01, 0x04, 0xCD]]

/-- The state `s` with one command offered, the transport taking at most `tx` bytes. -/
def offered (s : State) (now : U32) (w : CmdWord) (data : List Byte := []) (tx : Nat := 255) : State :=
  { s with pending := [.offer now tx (.command w data)] }

/-- What one step answers, and the state it leaves. -/
def rspOf : Result → Option Response
  | .next t => t.rsp
  | _ => none

def eventsOf : Result → List OutEvent
  | .next t => t.trace
  | _ => []

def after : Result → State
  | .next t => t
  | _ => State.reset

def isNext : Result → Bool
  | .next _ => true
  | _ => false

def faultOf : Result → Option Fault
  | .fault f => some f
  | _ => none

/-! ### Ill-formed terms (R7, R8, R88, R92) -/

theorem test_wf_ref : Config.ref.wf = true := by decide
theorem test_illformed_payload : payloadFits (List.replicate 65536 0#8) = false := by
  rw [payloadFits, List.length_replicate]; decide
theorem test_illformed_tsel : (Instr.tmrStop (.slot ⟨.inb, 127#7⟩)).wf = false := by decide
theorem test_illformed_ring : Config.ringOk { Config.ref with ringCap := 35 } = false := by decide
theorem test_illformed_magic : Config.magicOk { Config.ref with magicTx := 0x02#8 } = false := by decide
theorem test_illformed_nak : Config.nakOk { Config.ref with cmdNak := 0x50#8 } = false := by decide
theorem test_illformed_range : Config.rangesOk { Config.ref with wlTx := [⟨0x70#8, 0, 33⟩] } = false := by decide
theorem test_illformed_order : Config.rangesOk { Config.ref with wlTx := [⟨0x70#8, 2, 1⟩] } = false := by decide
theorem test_illformed_twice :
    Config.uniqueOk { Config.ref with wlTx := [⟨0x70#8, 0, 1⟩, ⟨0x70#8, 2, 3⟩] } = false := by decide
theorem test_illformed_metaRx : Config.metaRxOk { Config.ref with wlRx := [⟨0x50#8, 0, 0⟩] } = false := by decide
theorem test_illformed_metaTx : Config.metaTxOk { Config.ref with wlTx := [⟨0x50#8, 0, 0⟩] } = false := by decide
theorem test_illformed_slotCap : Config.slotCapOk { Config.ref with slotCap := 35 } = false := by decide
theorem test_illformed_slotCapTop : Config.slotCapOk { Config.ref with slotCap := 256 } = false := by decide
theorem test_illformed_noSlot : Config.nSlotsOk { Config.ref with nSlots := 0 } = false := by decide
theorem test_illformed_slots : Config.nSlotsOk { Config.ref with nSlots := 128 } = false := by decide
theorem test_illformed_whole : Config.wf { Config.ref with ringCap := 65536 } = false := by decide

/-! ### Every opcode's word, from R90 and R91 and the vectors -/

/-- VX-1 neighbour, VE-4 row 1. -/
theorem test_decode_engParse : decode (.command 0x010000000000#48 []) = .ok .engParse := by decide
/-- VX-2. -/
theorem test_decode_engTransmit :
    decode (.command 0x027000000001#48 [0x11#8]) = .ok (.engTransmit 0x70#8 [0x11#8]) := by
  decide
/-- VE-5 row 4. -/
theorem test_decode_engCountTimeouts : decode (.command 0x030000000000#48 []) = .ok .engCountTimeouts := by decide
/-- VE-5 row 7. -/
theorem test_decode_engHandleTimeouts : decode (.command 0x040000000000#48 []) = .ok .engHandleTimeouts := by decide
/-- VE-4 row 15. -/
theorem test_decode_engGetNewestRx : decode (.command 0x050000000000#48 []) = .ok .engGetNewestRx := by decide
/-- VE-4 row 17. -/
theorem test_decode_engDeleteRx : decode (.command 0x060400000000#48 []) = .ok (.engDeleteRx 4#7) := by decide
/-- BASE. -/
theorem test_decode_engResetAll : decode (.command 0x070000000000#48 []) = .ok .engResetAll := by decide
/-- R90, R91: index in a[6:0]. -/
theorem test_decode_engRxLen : decode (.command 0x087F00000000#48 []) = .ok (.engRxLen 127#7) := by decide
/-- VE-4 row 16. -/
theorem test_decode_engRxByte : decode (.command 0x090400000003#48 []) = .ok (.engRxByte 4#7 3#32) := by decide
/-- VR-1 row 4. -/
theorem test_decode_rxbPush : decode (.command 0x1000000000EE#48 []) = .ok (.rxbPush 0xEE#8) := by decide
/-- VR-1 row 11. -/
theorem test_decode_rxbPop : decode (.command 0x110000000000#48 []) = .ok .rxbPop := by decide
/-- VR-1 row 10. -/
theorem test_decode_rxbPeek : decode (.command 0x1200FFFFFFFF#48 []) = .ok (.rxbPeek 0xFFFFFFFF#32) := by decide
/-- VR-1 row 2. -/
theorem test_decode_rxbCount : decode (.command 0x130000000000#48 []) = .ok .rxbCount := by decide
/-- VR-1 row 20. -/
theorem test_decode_rxbClear : decode (.command 0x140000000000#48 []) = .ok .rxbClear := by decide
/-- VR-1 row 3. -/
theorem test_decode_rxbOvf : decode (.command 0x150000000000#48 []) = .ok .rxbOvf := by decide
/-- VC-1 row 5. -/
theorem test_decode_cksCompute :
    decode (.command 0x200000000003#48 [0x02#8, 0x51#8, 0x00#8]) = .ok (.cksCompute [0x02#8, 0x51#8, 0x00#8]) := by
  decide
/-- VC-1 row 4. -/
theorem test_decode_cksVerify : decode (.command 0x210000000001#48 [0xAA#8]) = .ok (.cksVerify [0xAA#8]) := by decide
/-- S3 row 1. -/
theorem test_decode_tmrStart : decode (.command 0x307F00001000#48 []) = .ok (.tmrStart .itmr 0x1000#32) := by decide
/-- VT-1 row 9. -/
theorem test_decode_tmrStop :
    decode (.command 0x318000000000#48 []) = .ok (.tmrStop (.slot ⟨.outb, 0#7⟩)) := by
  decide
/-- VT-1 row 2. -/
theorem test_decode_tmrRestart :
    decode (.command 0x328000000000#48 []) = .ok (.tmrRestart (.slot ⟨.outb, 0#7⟩)) := by
  decide
/-- VX-1: 0xFF is no integrity timer. -/
theorem test_decode_tmrTimedout :
    decode (.command 0x33FF00000000#48 []) = .ok (.tmrTimedout (.slot ⟨.outb, 127#7⟩)) := by
  decide
/-- VF-1 row 15. -/
theorem test_decode_tmrRead :
    decode (.command 0x340000000002#48 []) = .ok (.tmrRead (.slot ⟨.inb, 0#7⟩) .target) := by
  decide
/-- S4 row 14. -/
theorem test_decode_msGetFree : decode (.command 0x408000000000#48 []) = .ok (.msGetFree .outb) := by decide
/-- VM-1 row 4. -/
theorem test_decode_msAppend :
    decode (.command 0x4100000000EE#48 []) = .ok (.msAppend ⟨.inb, 0#7⟩ 0xEE#8) := by
  decide
/-- S4 row 3. -/
theorem test_decode_msValidate :
    decode (.command 0x4282000003E8#48 []) = .ok (.msValidate ⟨.outb, 2#7⟩ 1000#32) := by
  decide
/-- VM-2 row 10. -/
theorem test_decode_msMarkRetx :
    decode (.command 0x4381000003E8#48 []) = .ok (.msMarkRetx ⟨.outb, 1#7⟩ 1000#32) := by
  decide
/-- S4 row 9. -/
theorem test_decode_msDelete : decode (.command 0x448100000000#48 []) = .ok (.msDelete ⟨.outb, 1#7⟩) := by decide
/-- S4 row 7. -/
theorem test_decode_msGetOldest : decode (.command 0x458000000000#48 []) = .ok (.msGetOldest .outb) := by decide
/-- VM-1 row 14. -/
theorem test_decode_msGetNewest : decode (.command 0x460000000000#48 []) = .ok (.msGetNewest .inb) := by decide
/-- VM-2 row 23. -/
theorem test_decode_msCountTimedout :
    decode (.command 0x478000000000#48 []) = .ok (.msCountTimedout .outb) := by
  decide
/-- VM-1 row 15. -/
theorem test_decode_msOldestTimedout :
    decode (.command 0x480000000000#48 []) = .ok (.msOldestTimedout .inb) := by
  decide
/-- VM-2 row 9. -/
theorem test_decode_msIncTx : decode (.command 0x498100000000#48 []) = .ok (.msIncTx ⟨.outb, 1#7⟩) := by decide
/-- VM-2 row 27. -/
theorem test_decode_msResetDeadline :
    decode (.command 0x4A8200000000#48 []) = .ok (.msResetDeadline ⟨.outb, 2#7⟩) := by
  decide
/-- VM-1 row 6. -/
theorem test_decode_msReadByte :
    decode (.command 0x4B0000000027#48 []) = .ok (.msReadByte ⟨.inb, 0#7⟩ 0x27#32) := by
  decide
/-- VM-2 row 12. -/
theorem test_decode_msReadInfo :
    decode (.command 0x4C8100000003#48 []) = .ok (.msReadInfo ⟨.outb, 1#7⟩ .txc) := by
  decide
/-- VM-1 row 10. -/
theorem test_decode_msDiscard : decode (.command 0x4D0000000000#48 []) = .ok (.msDiscard ⟨.inb, 0#7⟩) := by decide
/-- VM-2 row 31. -/
theorem test_decode_msClearAll : decode (.command 0x4E8000000000#48 []) = .ok (.msClearAll .outb) := by decide
/-- R90, R91: index in a[6:0]. -/
theorem test_decode_fpParse : decode (.command 0x800300000000#48 []) = .ok (.fpParse 3#7) := by decide
/-- VF-10. -/
theorem test_decode_fpReset : decode (.command 0x810000000000#48 []) = .ok .fpReset := by decide
/-- VF-2 row 6. -/
theorem test_decode_fpRead : decode (.command 0x820000000000#48 []) = .ok .fpRead := by decide
/-- S6 row 1. -/
theorem test_decode_nakRequest : decode (.command 0x900000000000#48 []) = .ok .nakRequest := by decide
/-- S6 row 7. -/
theorem test_decode_nakResetCounter : decode (.command 0x910000000000#48 []) = .ok .nakResetCounter := by decide
/-- S6 row 10. -/
theorem test_decode_nakResetState : decode (.command 0x920000000000#48 []) = .ok .nakResetState := by decide
/-- S6 row 4. -/
theorem test_decode_nakRead : decode (.command 0x930000000001#48 []) = .ok (.nakRead .many) := by decide
/-- S5 row 4. -/
theorem test_decode_rxByte : decode (.rxByte 0xF8#8) = .ok (.rxByte 0xF8#8) := by decide

/-- VX-1: words with a must-be-zero bit set, and unassigned opcodes, are refused. -/
theorem test_decode_illegal :
    ([0x000000000000#48, 0x0A0000000000#48, 0x160000000000#48, 0xFF0000000000#48, 0x010000000001#48,
      0x010100000000#48, 0x068000000000#48, 0x100000000100#48, 0x340000000004#48, 0x400100000000#48,
      0x930000000002#48, 0x020000010000#48, 0x200100000000#48].all fun w =>
        (decode (.command w [])).toOption == none) = true := by decide

/-- VX-2: the byte-wide carriage of an `ENG_TRANSMIT`. -/
theorem test_carriage : decodeBytes [0x02#8, 0x70#8, 0x00#8, 0x00#8, 0x00#8, 0x01#8, 0x11#8, 0x42#8] =
    .ok (.engTransmit 0x70#8 [0x11#8], [0x42#8]) := by decide

/-! ### One step of each instruction -/

/-- VE-6 row 11. -/
theorem test_step_engParse : (fun r => (rspOf r, eventsOf r)) (step (offered (ring 203 [0x01, 0x50, 0x00, 0xFB]) 210
    0x010000000000#48)) = (okRsp 1, [.tx [0x01, 0x51, 0x00, 0xFA]]) := by decide +kernel
/-- VE-1 row 8: the transport takes 3 of 5 bytes. -/
theorem test_step_engTransmit : (fun r => (rspOf r, eventsOf r, (slotAt (after r).outb 0).valid))
    (step (offered State.reset 12 0x027000000001#48 [0x11] 3)) =
      (failRsp 0, [.tx [0x01, 0x70, 0x01, 0x11, 0xCB]], false) := by decide +kernel
/-- VE-5 row 6. -/
theorem test_step_engCountTimeouts :
    rspOf (step (offered { State.reset with outb := ve5 } 1650 0x030000000000#48)) = okRsp 2 := by decide +kernel
/-- VE-5 row 7 and the ranks after it. -/
theorem test_step_engHandleTimeouts : (fun r => (rspOf r, eventsOf r, (after r).outb.map (·.rank)))
    (step (offered { State.reset with outb := ve5 } 1650 0x040000000000#48)) =
      (okRsp 0, [.tx [0x01, 0x70, 0x01, 0xA0, 0x7A], .tx [0x01, 0x70, 0x01, 0xA1, 0x7B]], [2, 1, 3, 0, 0]) := by
  decide +kernel
/-- VE-4 row 15. -/
theorem test_step_engGetNewestRx :
    rspOf (step (offered { State.reset with inb := ve4 } 181 0x050000000000#48)) = okRsp 4 := by decide +kernel
/-- VE-4 row 17: the newest goes, the four older slots move down one. -/
theorem test_step_engDeleteRx : (after (step (offered { State.reset with inb := ve4 } 182 0x060400000000#48))).inb.map
    (fun sl => (sl.rank, sl.valid)) = [(4, true), (3, true), (2, true), (1, true), (0, false)] := by decide +kernel
/-- BASE. -/
theorem test_step_engResetAll : (fun r => (rspOf r, eventsOf r, (after r).eng.rxEn))
    (step (offered State.reset 0 0x070000000000#48)) = (okRsp 0, [.rxStop, .rxStart], true) := by decide +kernel
/-- VE-4, the fourth frame's length. -/
theorem test_step_engRxLen :
    rspOf (step (offered { State.reset with inb := ve4 } 181 0x080300000000#48)) = okRsp 5 := by decide +kernel
/-- VE-4 row 16. -/
theorem test_step_engRxByte :
    rspOf (step (offered { State.reset with inb := ve4 } 181 0x090400000003#48)) = okRsp 4 := by decide +kernel
/-- VR-1 row 14: physical index (2 + 62) mod 64 is 0. -/
theorem test_step_rxbPush : (after (step (offered { State.reset with rxb := ⟨[], 2, 62, true⟩ } 84
    0x100000000040#48))).rxb = ⟨[(0, 0x40)], 2, 63, true⟩ := by decide +kernel
/-- VR-1 row 12, and the read index wraps (R111). -/
theorem test_step_rxbPop : (fun r => (rspOf r, (after r).rxb.rd)) (step (offered
    { State.reset with rxb := ⟨[(63, 1)], 63, 1, false⟩ } 83 0x110000000000#48)) = (okRsp 1, 0) := by decide +kernel
/-- VR-1 row 17: the logical offset crosses the physical wrap. -/
theorem test_step_rxbPeek : rspOf (step (offered { State.reset with rxb := ⟨[(0, 0x40), (1, 0x41)], 2, 64, true⟩ } 85
    0x12000000003E#48)) = okRsp 0x40 := by decide +kernel
/-- VE-4 row 13. -/
theorem test_step_rxbCount : rspOf (step (offered (ring 174 [0x02, 0x60, 0x01, 0x05, 0xCC]) 180
    0x130000000000#48)) = okRsp 5 := by decide +kernel
/-- VR-1 rows 20 to 22. -/
theorem test_step_rxbClear : (fun r : State => (r.rxb.rd, r.rxb.cnt, r.rxb.ovf)) (after (step (offered
    { State.reset with rxb := ⟨[], 2, 64, true⟩ } 86 0x140000000000#48))) = (0, 0, false) := by decide +kernel
/-- VR-1 row 5. -/
theorem test_step_rxbOvf : rspOf (step (offered { State.reset with rxb := ⟨[], 0, 64, true⟩ } 81
    0x150000000000#48)) = okRsp 1 := by decide +kernel
/-- VC-1 row 8. -/
theorem test_step_cksCompute : rspOf (step (offered State.reset 1 0x200000000004#48 [0x01, 0x70, 0x01, 0x11])) =
    okRsp 0xCB := by decide +kernel
/-- VC-1 row 11. -/
theorem test_step_cksVerify : rspOf (step (offered State.reset 1 0x210000000005#48
    [0x02, 0x60, 0x01, 0xAB, 0x63])) = okRsp 0 := by decide +kernel
/-- VT-2 row 5: the target wraps. -/
theorem test_step_tmrStart : (after (step (offered State.reset 0xFFFFFFFF 0x307F00000001#48))).fp.itmr =
    ⟨0xFFFFFFFF, 1, 0, true⟩ := by decide +kernel
/-- VT-1 rows 9 and 11: stop keeps the other fields. -/
theorem test_step_tmrStop : (slotAt (after (step (offered { State.reset with outb := abc } 202
    0x318000000000#48))).outb 0).tmr = ⟨10, 1000, 1010, false⟩ := by decide +kernel
/-- VT-1 row 2: a timer never started restarts with duration 0. -/
theorem test_step_tmrRestart : (slotAt (after (step (offered State.reset 50 0x328000000000#48))).outb 0).tmr =
    ⟨50, 0, 50, true⟩ := by decide +kernel
/-- S3 rows 5 and 6: both ends of the arc. -/
theorem test_step_tmrTimedout :
    [0xF00#32, 0xF01#32, 0xFFFFFEFF#32, 0#32].map (fun now => rspOf (step (offered
      { State.reset with fp := ⟨false, ⟨0xFFFFFF00, 0x1000, 0xF00, true⟩⟩ } now 0x337F00000000#48))) =
        [okRsp 0, okRsp 1, okRsp 1, okRsp 0] := by decide +kernel
/-- VM-2 row 13's form. -/
theorem test_step_tmrRead : rspOf (step (offered { State.reset with outb := abc } 110 0x348100000002#48)) =
    okRsp 1011 := by decide +kernel
/-- VM-2 row 6: a full store answers NONE. -/
theorem test_step_msGetFree : rspOf (step (offered { State.reset with outb := ve4 } 105 0x408000000000#48)) =
    failRsp 0xFF := by decide +kernel
/-- R157: the byte goes to `buf[len]`, of the selected store. -/
theorem test_step_msAppend : (fun s : State => ((slotAt s.outb 1).buf, (slotAt s.outb 1).len, slotAt s.inb 1))
    (after (step (offered { State.reset with outb := five [Slot.reset, sl 1 0 0 [0x02]] } 2
      0x4181000000EE#48))) = ([(0, 0x02), (1, 0xEE)], 2, Slot.reset) := by decide +kernel
/-- S4 row 4, after a fourth slot is validated: everyone ages. -/
theorem test_step_msValidate : (after (step (offered { State.reset with outb := abc } 13
    0x4283000003E8#48))).outb.map (fun sl => (sl.rank, sl.valid, sl.tmr.target)) =
      [(4, true, 1010), (3, true, 1011), (2, true, 1012), (1, true, 1013), (0, false, 0)] := by decide +kernel
/-- VM-2 rows 10 to 13: a re-sent slot keeps its failure count, the others age. -/
theorem test_step_msMarkRetx : (after (step (offered { State.reset with outb := five [sl 2 0 0 [], sl 1 1 0 []] } 110
    0x4381000003E8#48))).outb.map (fun sl => (sl.rank, sl.txc)) =
      [(3, 0), (1, 1), (0, 0), (0, 0), (0, 0)] := by decide +kernel
/-- R173: validating beside a slot at rank 255 stops; beside one at 254 it does not. -/
theorem test_step_msValidate_top :
    faultOf (step (offered { State.reset with outb := five [sl 255 0 0 []] } 5 0x4281000003E8#48)) =
      some .rankSaturation ∧
    (after (step (offered { State.reset with outb := five [sl 254 0 0 []] } 5 0x4281000003E8#48))).outb.map (·.rank) =
      [255, 1, 0, 0, 0] := by decide +kernel
/-- R173: a slot at rank 255 may itself be marked; marking another beside it stops. -/
theorem test_step_msMarkRetx_top :
    faultOf (step (offered { State.reset with outb := five [sl 255 0 0 [], sl 1 0 0 []] } 5 0x4381000003E8#48)) =
      some .rankSaturation ∧
    (after (step (offered { State.reset with outb := five [sl 255 0 0 [], sl 1 0 0 []] } 5
      0x4380000003E8#48))).outb.map (·.rank) = [1, 2, 0, 0, 0] := by decide +kernel
/-- S4 rows 9 to 11. -/
theorem test_step_msDelete : (after (step (offered { State.reset with outb := abc } 14
    0x448100000000#48))).outb.map (fun sl => (sl.rank, sl.valid, sl.tmr.active)) =
      [(2, true, true), (0, false, false), (1, true, true), (0, false, false), (0, false, false)] := by
  decide +kernel
/-- S4 row 7. -/
theorem test_step_msGetOldest : rspOf (step (offered { State.reset with outb := abc } 13 0x458000000000#48)) =
    okRsp 0 := by decide +kernel
/-- S4 row 8. -/
theorem test_step_msGetNewest : rspOf (step (offered { State.reset with outb := abc } 13 0x468000000000#48)) =
    okRsp 2 := by decide +kernel
/-- VM-2 rows 23 and 24's form: at the target a slot is not counted, one past it is. -/
theorem test_step_msCountTimedout : [1010#32, 1011#32, 1013#32].map (fun now => rspOf (step (offered
    { State.reset with outb := abc } now 0x478000000000#48))) = [okRsp 0, okRsp 1, okRsp 3] := by decide +kernel
/-- VM-2 row 25's form. -/
theorem test_step_msOldestTimedout : rspOf (step (offered { State.reset with outb := abc } 1011
    0x488000000000#48)) = okRsp 1 := by decide +kernel
/-- VM-3: 255 stays. -/
theorem test_step_msIncTx : (slotAt (after (step (offered { State.reset with outb := five [sl 1 255 0 []] } 1
    0x498000000000#48))).outb 0).txc = 255 := by decide +kernel
/-- VM-2 row 27's form. -/
theorem test_step_msResetDeadline : (slotAt (after (step (offered { State.reset with outb := abc } 1105
    0x4A8200000000#48))).outb 2).tmr = ⟨1105, 1000, 2105, true⟩ := by decide +kernel
/-- VF-6 row 25's form: the last byte, and off = len. -/
theorem test_step_msReadByte : ([0x4B0000000004#48, 0x4B0000000005#48].map fun w => rspOf (step (offered
    { State.reset with inb := ve4 } 129 w))) = [okRsp 0xC9, failRsp 0] := by decide +kernel
/-- VM-2 row 12, and VX-1: slot 5 is illegal. -/
theorem test_step_msReadInfo : ([0x4C8100000003#48, 0x4C8500000000#48].map fun w => rspOf (step (offered
    { State.reset with outb := five [sl 2 0 0 [], sl 1 1 0 []] } 110 w))) = [okRsp 1, illegalRsp] := by
  decide +kernel
/-- VM-1 rows 10 and 11; only `len` changes (R158). -/
theorem test_step_msDiscard : slotAt (after (step (offered { State.reset with inb := ve4 } 4
    0x4D0000000000#48))).inb 0 = { slotAt ve4 0 with len := 0 } := by decide +kernel
/-- VM-2 rows 31 to 33: timers stop and keep their fields. -/
theorem test_step_msClearAll : slotAt (after (step (offered { State.reset with outb := ve4 } 1107
    0x4E8000000000#48))).outb 2 =
      ⟨(slotAt ve4 2).buf, 0, 0, false, 0, ⟨128, 1000, 1128, false⟩⟩ := by decide +kernel
/-- VF-1 rows 11 to 17. -/
theorem test_step_fpParse : (fun s : State => (s.rsp, s.rxb.cnt, (slotAt s.inb 0).len, (slotAt s.inb 0).rank,
    (slotAt s.inb 0).tmr.target, s.fp)) (after (step (offered
      { ring 150 [0x02, 0x60, 0x01, 0xAB, 0x62] with fp := ⟨true, ⟨150, 100, 250, true⟩⟩ } 250
        0x800000000000#48))) = (okRsp 0, 0, 5, 1, 1250, ⟨false, ⟨150, 100, 250, false⟩⟩) := by decide +kernel
/-- VF-10. -/
theorem test_step_fpReset : (fun s : State => (s.fp, s.rxb.cnt)) (after (step (offered
    { ring 300 [0x02] with fp := ⟨true, ⟨301, 100, 401, true⟩⟩ } 302 0x810000000000#48))) =
      (⟨false, ⟨301, 100, 401, false⟩⟩, 0) := by decide +kernel
/-- VF-2 row 6. -/
theorem test_step_fpRead : rspOf (step (offered { State.reset with fp := ⟨true, Timer.reset⟩ } 211
    0x820000000000#48)) = okRsp 1 := by decide +kernel
/-- S6 rows 2 and 3. -/
theorem test_step_nakRequest : ([1#8, 2#8].map fun n => (fun r => (rspOf r, eventsOf r, (after r).nak)) (step (offered
    { State.reset with nak := ⟨n, false⟩ } 2 0x900000000000#48))) =
      [(okRsp 1, [.tx [0x01, 0x51, 0x00, 0xFA]], ⟨2, false⟩), (okRsp 0, [], ⟨3, true⟩)] := by decide +kernel
/-- S6 rows 7 to 9. -/
theorem test_step_nakResetCounter : (after (step (offered { State.reset with nak := ⟨4, true⟩ } 5
    0x910000000000#48))).nak = ⟨0, true⟩ := by decide +kernel
/-- VN-1 rows 2 and 3. -/
theorem test_step_nakResetState : (after (step (offered { State.reset with nak := ⟨3, true⟩ } 2
    0x920000000000#48))).nak = ⟨3, false⟩ := by decide +kernel
/-- S6 row 6. -/
theorem test_step_nakRead : rspOf (step (offered { State.reset with nak := ⟨4, true⟩ } 4 0x930000000000#48)) =
    okRsp 4 := by decide +kernel
/-- VF-1 row 7: a byte restarts the running timer; no response. -/
theorem test_step_rxByte : (fun s : State => (s.rsp, s.rxb.cnt, s.fp.itmr)) (after (step
    { State.reset with
      fp := ⟨false, ⟨102, 100, 202, true⟩⟩, pending := [.offer 104 255 (.rxByte 0x01)] })) =
      (none, 1, ⟨104, 100, 204, true⟩) := by decide +kernel

/-- The host's hook: the very next step runs the table word. -/
theorem test_withFetchWord : (fun r => (rspOf r, eventsOf r)) (step (State.reset.withFetchWord 48 0x900000000000)) =
    (okRsp 1, [.tx [0x01, 0x51, 0x00, 0xFA]]) := by decide +kernel

/-! ### Witnesses: for every obligation with hypotheses, a state and operands that meet them -/

/-- A state in the middle of things: the ring's window wraps and holds `02 50 00 F8`, the integrity timer is at its
target, inbound slot 1 is the first free one, three outbound messages. -/
def busy : State where
  cfg := Config.ref
  rxb := ⟨[(1, 0xF8), (62, 0x02), (63, 0x50)], 62, 4, false⟩
  fp := ⟨true, ⟨100, 100, 200, true⟩⟩
  inb := five [sl 2 0 90 [0x02, 0x60, 0x01, 0xAB, 0x62], Slot.reset, sl 1 0 95 [0x02, 0x61, 0x00, 0xC9]]
  outb := abc
  nak := ⟨2, true⟩
  eng := ⟨true⟩
  now := 200
  txAnswer := 255
  rsp := okRsp 1
  trace := []
  pending := []

/-- `busy` with these bytes in the ring instead. -/
def busyWith (bs : List Byte) : State := { busy with rxb := rx bs }

/-- `busy` with a full ring whose window wraps. -/
def busyFull : State := { busy with rxb := ⟨[], 63, 64, false⟩ }

theorem busy_inv : busy.Inv := by decide +kernel

theorem busy_firstFree : IsFirstFree busy.inb 1 := msGetFree_some.1 (by decide +kernel)

theorem busy_oldest : IsOldest busy.outb 0 := msGetOldest_some.1 (by decide +kernel)

theorem busy_noTop : ¬ BumpMeetsTop 1 busy.inb := meetsTop_false.1 (by decide +kernel)

theorem witness_DecodeOfEncodeIsIdentity :
    (Instr.tmrStart (.slot ⟨.inb, 126#7⟩) 0xFFFFFFFF#32).wf = true ∧
    (Instr.tmrStop (.slot ⟨.outb, 127#7⟩)).wf = true ∧
    (Instr.cksVerify (List.replicate 65535 0#8)).wf = true :=
  ⟨by decide, by decide, by rw [Instr.wf, payloadFits, List.length_replicate]; decide⟩

theorem witness_DecodedCommandIsItsEncoding :
    decodeCommand 0x210000000001#48 [0xAA#8] = .ok (.cksVerify [0xAA#8]) := by decide

theorem witness_CarriedCommandDecodes : (Instr.engTransmit 0x70#8 [0x11#8]).wf = true ∧
    encode (.engTransmit 0x70#8 [0x11#8]) = .command 0x027000000001#48 [0x11#8] := by decide

theorem witness_LegalWordsAreTheOpcodeMap :
    CmdWord.Legal 0x4C8100000003#48 ∧ ¬ CmdWord.Legal 0x4C8100000004#48 :=
  ⟨⟨(0x4C0000000000#48, 0xFF00FFFFFFFC#48), by decide, by decide⟩, by unfold CmdWord.Legal; decide⟩

theorem witness_IllegalWordChangesNothing : (offered busy 5 0x068000000000#48).cfg.wf = true ∧
    (offered busy 5 0x068000000000#48).pending = .offer 5 255 (.command 0x068000000000#48 []) :: [] ∧
    ¬ CmdWord.Legal 0x068000000000#48 :=
  ⟨by decide, rfl, by unfold CmdWord.Legal; decide⟩

theorem witness_IllegalSelectorChangesNothing : busy.cfg.wf = true ∧
    (Instr.engDeleteRx 5#7).selectorLegal busy.cfg = false ∧
    (Instr.engDeleteRx 4#7).selectorLegal busy.cfg = true ∧
    ∃ t, exec (.engDeleteRx 4#7) busy = .next t ∧ t.rsp = some ⟨0x00#8, 0#32⟩ :=
  ⟨by decide, by decide, by decide, _, rfl, rfl⟩

theorem witness_StepRunsTheDecodedInstruction :
    (offered busy 5 0x110000000000#48).pending = .offer 5 255 (.command 0x110000000000#48 []) :: [] ∧
    decode (.command 0x110000000000#48 []) = .ok .rxbPop ∧ busy.pending = [] := ⟨rfl, by decide, rfl⟩

theorem witness_HardwareResetGivesResetState :
    { busy with pending := [.hardwareReset] }.cfg.wf = true ∧
    { busy with pending := [.hardwareReset] }.pending = .hardwareReset :: [] := ⟨by decide, rfl⟩

theorem witness_EveryStepKeepsInvariant : (offered busy 200 0x010000000000#48).Inv ∧
    ∃ t, step (offered busy 200 0x010000000000#48) = .next t := ⟨by decide +kernel, _, rfl⟩

theorem witness_NoStepChangesConfiguration :
    ∃ t, step { busy with pending := [.hardwareReset] } = .next t := ⟨_, rfl⟩

/-- Ranks up to the top in the inbound store, whose slot 2 is the first free one. -/
def tall : State := { busy with inb := five [sl 255 0 90 [], sl 254 0 91 []] }

theorem tall_inv : tall.Inv := by decide +kernel

/-- A bump for any inbound slot but slot 0 meets rank 255. -/
theorem tall_top (i : Nat) (hi : 0 ≠ i) : BumpMeetsTop i tall.inb := ⟨0, hi, by decide +kernel, by decide +kernel⟩

theorem tall_firstFree : IsFirstFree tall.inb 2 := msGetFree_some.1 (by decide +kernel)

/-- Marking the slot at rank 255 itself: its own rank is not bumped. -/
theorem witness_EveryStepKeepsRanksDistinct : (offered tall 200 0x4300000003E8#48).Inv ∧
    (∀ st, RanksDistinct ((offered tall 200 0x4300000003E8#48).store st)) ∧
    ∃ t, step (offered tall 200 0x4300000003E8#48) = .next t :=
  ⟨by decide +kernel, fun st => by cases st <;> decide +kernel, _, rfl⟩

/-- `busy` with other bytes where no operation may look, and its ring elsewhere in the array. -/
def busyToo : State :=
  { busy with
    rxb := ⟨[(7, 0x02), (8, 0x50), (10, 0xF8), (11, 0x99)], 7, 4, false⟩
    outb := abc.modify 4 fun sl => { sl with buf := [(3, 0x77)] } }

theorem witness_HiddenBytesAreNeverObserved : (offered busy 200 0x010000000000#48).Inv ∧
    (offered busyToo 200 0x010000000000#48).Inv ∧
    (offered busy 200 0x010000000000#48).Alike (offered busyToo 200 0x010000000000#48) ∧
    busy ≠ busyToo ∧ ∃ t, step (offered busy 200 0x010000000000#48) = .next t := by
  have hs : ∀ sl : Slot, sl.Alike sl := fun sl => ⟨rfl, rfl, rfl, rfl, rfl, fun _ _ => rfl⟩
  refine ⟨by decide +kernel, by decide +kernel, ⟨by decide +kernel, ?_, ?_, rfl, rfl, rfl, rfl, rfl, rfl, rfl, rfl,
    rfl, rfl⟩, by decide +kernel, _, rfl⟩
  · exact .cons (hs _) (.cons (hs _) (.cons (hs _) (.cons (hs _) (.cons (hs _) .nil))))
  · exact .cons (hs _) (.cons (hs _) (.cons (hs _) (.cons (hs _)
      (.cons ⟨rfl, rfl, rfl, rfl, rfl, fun k hk => absurd hk (Nat.not_lt_zero k)⟩ .nil))))

/-- The highest ranks the headroom admits are 250 with five slots; `tall` is beyond it and stops. -/
theorem witness_EveryOperationIsTotal : busy.cfg.wf = true ∧
    (∀ st, RankHeadroom busy.cfg.nSlots ({ busy with inb := five [sl 250 0 90 [], sl 249 0 91 []] }.store st)) ∧
    faultOf (exec (.msValidate ⟨.inb, 2#7⟩ 0#32) tall) = some .rankSaturation ∧
    { busy with cfg := { Config.ref with nSlots := 128 } }.cfg.wf = false :=
  ⟨by decide, fun st => by cases st <;> decide +kernel, by decide +kernel, by decide⟩

theorem witness_OtherOperationsIgnoreNow : (Instr.msDelete ⟨.outb, 1#7⟩).readsNow = false ∧
    ∃ t, exec (.msDelete ⟨.outb, 1#7⟩) busy = .next t := ⟨rfl, _, rfl⟩

theorem witness_OutputEventsOnlyWhereListed :
    isNext (exec .engResetAll busy) = true ∧ isNext (exec .rxbPop busy) = true ∧
    (eventsOf (exec .engHandleTimeouts { busy with now := 1013 })).length = 3 ∧
    (eventsOf (exec .nakRequest { busy with nak := ⟨1, true⟩ })).length = 1 ∧
    eventsOf (exec .nakRequest busy) = [] := by decide +kernel

theorem witness_ReadsChangeNothing : (Instr.fpRead).readOnly = true ∧
    ∃ t, exec .fpRead busy = .next t := ⟨rfl, _, rfl⟩

theorem witness_StickyFlagsChangeOnlyWhereListed :
    (after (exec .rxbClear { busy with rxb := ⟨[], 0, 64, true⟩ })).rxb.ovf = false ∧
    (after (exec (.rxbPush 1#8) busyFull)).rxb.ovf = true ∧ busyFull.rxb.cnt = busyFull.cfg.ringCap ∧
    busy.nak.many = true ∧ (after (exec .nakResetState busy)).nak.many = false ∧
    (after (exec .nakRequest { busy with nak := ⟨2, false⟩ })).nak.many = true ∧
    (after (exec .engResetAll State.reset)).eng ≠ State.reset.eng := by decide +kernel

theorem witness_RxbPushAppendsOrLatches :
    { busy with rxb := ⟨[], 63, 63, false⟩ }.Inv ∧
    { busy with rxb := ⟨[], 63, 63, false⟩ }.rxb.cnt < busy.cfg.ringCap ∧
    busyFull.Inv ∧ busyFull.rxb.cnt = busyFull.cfg.ringCap := by
  and_intros <;> decide +kernel

theorem witness_RxbPopTakesTheOldest : busy.Inv ∧ busy.q = 0x02#8 :: [0x50#8, 0x00#8, 0xF8#8] ∧
    (busyWith []).Inv ∧ (busyWith []).q = [] := by
  and_intros <;> decide +kernel

theorem witness_RxbPeekReadsAtOffset : busy.Inv ∧ busy.q[(3#32).toNat]? = some 0xF8#8 ∧
    busy.q.length ≤ (4#32).toNat := by decide +kernel

theorem witness_RxByteRestartsAndPushes : busy.Inv ∧ busyFull.Inv ∧ busy.fp.itmr.active = true ∧
    busy.rxb.cnt < busy.cfg.ringCap ∧ busyFull.rxb.cnt = busyFull.cfg.ringCap ∧
    { busy with fp := ⟨false, Timer.reset⟩ }.Inv ∧
    { busy with fp := ⟨false, Timer.reset⟩ }.fp.itmr.active = false := by
  and_intros <;> decide +kernel

/-- Both premises about the timer: for an active one the restarted timer, for an inactive one itself. -/
theorem witness_RxByteRestartsAndPushes_timer :
    (busy.fp.itmr.active = true → (⟨200, 100, 300, true⟩ : Timer) =
      ⟨busy.now, busy.fp.itmr.dur, busy.now + busy.fp.itmr.dur, true⟩) ∧
    (busy.fp.itmr.active = false → (⟨200, 100, 300, true⟩ : Timer) = busy.fp.itmr) ∧
    (State.reset.fp.itmr.active = true → Timer.reset = ⟨State.reset.now, State.reset.fp.itmr.dur,
      State.reset.now + State.reset.fp.itmr.dur, true⟩) ∧
    (State.reset.fp.itmr.active = false → Timer.reset = State.reset.fp.itmr) := by decide +kernel

theorem witness_RingIsABoundedFifo : busyFull.rxb.rd < 64 ∧ busyFull.rxb.cnt ≤ 64 ∧ busyFull.rxb.mem.wf := by
  decide +kernel

theorem witness_ChecksumCommandsAnswerTheFold : busy.cfg.wf = true ∧
    (List.replicate 65535 0#8).length < 65536 ∧ xorFold [0x02#8, 0x50#8, 0x00#8, 0xF8#8] = 0#8 ∧
    xorFold [0x02#8, 0x50#8, 0x00#8, 0xF9#8] ≠ 0#8 :=
  ⟨by decide, by rw [List.length_replicate]; decide, by decide, by decide⟩

theorem witness_FoldIsOrderBlind : [0x02#8, 0x50#8, 0x00#8, 0xF8#8].Perm [0x50#8, 0x02#8, 0x00#8, 0xF8#8] := by
  decide

theorem witness_SingleByteChangeIsDetected : cksVerify [0x02#8, 0x50#8, 0x00#8, 0xF8#8] = true ∧
    [0x02#8, 0x50#8, 0x00#8, 0xF8#8][3]? = some 0xF8#8 ∧ 0xF9#8 ≠ 0xF8#8 ∧ 7 < 8 := by decide

theorem witness_TimerCommandsWriteOneTimer : busy.Inv ∧ (4#7).toNat < busy.cfg.nSlots := by decide +kernel

theorem witness_TimedOutIsOffTheArc : busy.Inv ∧ (Instr.tmrTimedout .itmr).selectorLegal busy.cfg = true ∧
    busy.now - (busy.timer .itmr).start ≤ (busy.timer .itmr).dur ∧
    { busy with now := 201 }.Inv ∧ ({ busy with now := 201 }.timer .itmr).active = true ∧
    ({ busy with now := 201 }.timer .itmr).dur < 201 - ({ busy with now := 201 }.timer .itmr).start ∧
    (Instr.tmrTimedout (.slot ⟨.outb, 4#7⟩)).selectorLegal busy.cfg = true ∧
    (busy.timer (.slot ⟨.outb, 4#7⟩)).active = false := by
  and_intros <;> decide +kernel

theorem witness_ArcHasDurPlusOneInstants : (⟨0xFFFFFF00, 0x1000, 0xF00, true⟩ : Timer).Inv ∧
    (⟨7, 0xFFFFFFFF, 6, true⟩ : Timer).Inv ∧ (⟨7, 0xFFFFFFFF, 6, true⟩ : Timer).active = true := by decide

theorem witness_GetFreeAnswersFirstFree : busy.cfg.wf = true ∧ IsFirstFree (busy.store .inb) 1 ∧
    ∀ sl ∈ { busy with inb := ve4 }.store .inb, sl.valid = true :=
  ⟨by decide, busy_firstFree, by decide +kernel⟩

/-- Outbound slot 0 of `busy` filled to `n` bytes. -/
def filled (n : Nat) : State := { busy with outb := five [sl 1 0 0 (List.replicate n 0x55)] }

theorem witness_AppendStoresAtLen : (filled 39).Inv ∧ (0#7).toNat < (filled 39).cfg.nSlots ∧
    ((filled 39).slot ⟨.outb, 0#7⟩).len.toNat < (filled 39).cfg.slotCap ∧ (filled 40).Inv ∧
    ((filled 40).slot ⟨.outb, 0#7⟩).len.toNat = (filled 40).cfg.slotCap := by
  and_intros <;> decide +kernel

theorem witness_ValidateAndMarkRankNewest : busy.Inv ∧ (1#7).toNat < busy.cfg.nSlots ∧
    ¬ BumpMeetsTop (1#7).toNat (busy.store .inb) ∧ tall.Inv ∧ ¬ BumpMeetsTop (0#7).toNat (tall.store .inb) ∧
    BumpMeetsTop (1#7).toNat (tall.store .inb) :=
  ⟨busy_inv, by decide, busy_noTop, tall_inv, meetsTop_false.1 (by decide +kernel), tall_top 1 (by decide)⟩

theorem witness_DeleteFreesAndClosesTheHole : busy.Inv ∧ (4#7).toNat < busy.cfg.nSlots ∧
    (busy.slot ⟨.outb, 1#7⟩).valid = true ∧ (busy.slot ⟨.outb, 4#7⟩).valid = false ∧
    (busy.slot ⟨.inb, 0#7⟩).valid = true ∧ (busy.slot ⟨.inb, 1#7⟩).valid = false := by decide +kernel

/-- A tie of ranks: the lowest index is the answer. -/
theorem witness_OldestAndNewestByRank : busy.cfg.wf = true ∧ IsOldest (busy.store .outb) 0 ∧
    IsNewest (busy.store .outb) 2 ∧ IsNewest busy.inb 2 ∧
    IsOldest (five [Slot.reset, sl 255 0 0 [], sl 255 0 0 []]) 1 ∧
    ((∀ sl ∈ State.reset.store .outb, sl.valid = false) ∧ ∀ sl ∈ State.reset.inb, sl.valid = false) :=
  ⟨by decide, busy_oldest, msGetNewest_some.1 (by decide +kernel), msGetNewest_some.1 (by decide +kernel),
    msGetOldest_some.1 (by decide +kernel), by decide +kernel⟩

theorem witness_TimeoutQueriesCountOverdueSlots : busy.Inv ∧
    (∃ late : Store → Nat → Bool, ∀ v j, late v j = ((slotAt v j).valid && (slotAt v j).tmr.timedOut busy.now)) ∧
    IsOldest (busy.store .outb) 0 ∧ State.reset.Inv ∧ ∀ sl ∈ State.reset.store .outb, sl.valid = false :=
  ⟨busy_inv, ⟨_, fun _ _ => rfl⟩, busy_oldest, by decide +kernel, by decide +kernel⟩

theorem witness_SlotCommandsChangeOneField : busy.Inv ∧ (4#7).toNat < busy.cfg.nSlots := by decide +kernel

theorem witness_ReadsAnswerTheElement : busy.Inv ∧
    (Instr.tmrStop (.slot ⟨.outb, 4#7⟩)).selectorLegal busy.cfg = true ∧ (0#7).toNat < busy.cfg.nSlots ∧
    ((busy.slot ⟨.inb, 0#7⟩).buf.bytes (busy.slot ⟨.inb, 0#7⟩).len.toNat)[(4#32).toNat]? = some 0x62#8 ∧
    (busy.slot ⟨.inb, 0#7⟩).len.toNat ≤ (5#32).toNat := by decide +kernel

/-- Other valid slots of the highest rank a bump still raises, and of a rank other than the deleted slot's. -/
theorem witness_RankOrderIsKept :
    2 < (five [sl 254 0 0 [], sl 253 0 0 [], sl 7 0 0 []]).length ∧
    (∀ sl' ∈ five [sl 254 0 0 [], sl 253 0 0 [], sl 7 0 0 []], sl'.valid = true ↔ sl'.rank ≠ 0#8) ∧
    (slotAt (five [sl 254 0 0 [], sl 253 0 0 [], sl 7 0 0 []]) 0).valid = true ∧
    (slotAt (five [sl 254 0 0 [], sl 253 0 0 [], sl 7 0 0 []]) 1).valid = true := by decide +kernel

theorem witness_DenseRanksStayDense : busy.outb.length ≤ 127 ∧ RanksDense busy.outb ∧
    (slotAt busy.outb 1).valid = true ∧ 4 < busy.outb.length ∧ (slotAt busy.outb 4).valid = false ∧
    IsOldest busy.outb 0 :=
  ⟨by decide, by decide +kernel, by decide +kernel, by decide +kernel, by decide +kernel, busy_oldest⟩

theorem witness_ParserDiscardsTheRing : busy.cfg.wf = true ∧ (4#7).toNat < busy.cfg.nSlots ∧
    { busy with rxb := ⟨[], 0, 64, true⟩ }.rxb.ovf = true ∧
    { busy with now := 201 }.rxb.ovf = false ∧ { busy with now := 201 }.q ≠ [] ∧
    { busy with now := 201 }.fp.itmr.timedOut 201 = true := by decide +kernel

/-- The clauses: nothing pending; three bytes at the target instant; a frame of five bytes lacking its last. -/
theorem witness_ParserWaitsForMoreBytes : (busyWith []).Inv ∧ (4#7).toNat < busy.cfg.nSlots ∧
    (busyWith []).rxb.ovf = false ∧ (busyWith []).q = [] ∧
    (busyWith [0x02, 0x50, 0x00]).Inv ∧ (busyWith [0x02, 0x50, 0x00]).q ≠ [] ∧
    (busyWith [0x02, 0x50, 0x00]).armedItmr.timedOut busy.now = false ∧
    (busyWith [0x02, 0x50, 0x00]).q.length < 4 ∧
    (busyWith [0x02, 0x60, 0x01, 0xAB]).Inv ∧
    ∃ c l rest, (busyWith [0x02, 0x60, 0x01, 0xAB]).q = magicRx :: c :: l :: rest ∧
      WlAdmits Config.ref.wlRx c l.toNat ∧ (busyWith [0x02, 0x60, 0x01, 0xAB]).q.length < l.toNat + 4 :=
  ⟨by decide +kernel, by decide, by decide, by decide +kernel, by decide +kernel, by decide +kernel,
    by decide +kernel, by decide +kernel, by decide +kernel, 0x60, 0x01, [0xAB], by decide +kernel,
    ⟨⟨0x60, 1, 1⟩, by decide, by decide, by decide, by decide⟩, by decide +kernel⟩

theorem witness_ParserDropsOneByte_header : (busyWith [0x02, 0x50, 0x01, 0xF8]).Inv ∧
    (4#7).toNat < busy.cfg.nSlots ∧ (busyWith [0x02, 0x50, 0x01, 0xF8]).rxb.ovf = false ∧
    (busyWith [0x02, 0x50, 0x01, 0xF8]).armedItmr.timedOut busy.now = false ∧
    (busyWith [0x02, 0x50, 0x01, 0xF8]).q = 0x02 :: 0x50 :: 0x01 :: 0xF8 :: [] ∧
    ¬ (0x02#8 = magicRx ∧ WlAdmits Config.ref.wlRx 0x50 (0x01#8).toNat) :=
  ⟨by decide +kernel, by decide, by decide +kernel, by decide +kernel, by decide +kernel,
    fun h => by unfold WlAdmits at h; revert h; decide⟩

theorem witness_ParserDropsOneByte_checksum : (busyWith [0x02, 0x50, 0x00, 0xF0]).Inv ∧
    (busyWith [0x02, 0x50, 0x00, 0xF0]).rxb.ovf = false ∧
    (busyWith [0x02, 0x50, 0x00, 0xF0]).armedItmr.timedOut busy.now = false ∧
    (busyWith [0x02, 0x50, 0x00, 0xF0]).q = 0x02 :: 0x50 :: 0x00 :: 0xF0 :: [] ∧
    WlAdmits Config.ref.wlRx 0x50 (0x00#8).toNat ∧
    (0x00#8).toNat + 4 ≤ (busyWith [0x02, 0x50, 0x00, 0xF0]).q.length ∧
    xorFold ((busyWith [0x02, 0x50, 0x00, 0xF0]).q.take 4) ≠ 0#8 :=
  ⟨by decide +kernel, by decide +kernel, by decide +kernel, by decide +kernel,
    ⟨⟨0x50, 0, 0⟩, by decide, by decide, by decide, by decide⟩, by decide +kernel, by decide +kernel⟩

theorem ack_legal : LegalFrame Config.ref [0x02, 0x50, 0x00, 0xF8] :=
  ⟨0x50, 0x00, [0xF8], rfl, rfl, ⟨⟨0x50, 0, 0⟩, by decide, by decide, by decide, by decide⟩, by decide⟩

/-- Into the first free slot of `busy`, into the slot of `tall` at rank 255 itself, and beside it. -/
theorem witness_ParserAcceptsALegalFrame : busy.Inv ∧ (1#7).toNat < busy.cfg.nSlots ∧ busy.rxb.ovf = false ∧
    busy.armedItmr.timedOut busy.now = false ∧ LegalFrame busy.cfg [0x02, 0x50, 0x00, 0xF8] ∧
    busy.q = [0x02, 0x50, 0x00, 0xF8] ++ [] ∧ ¬ BumpMeetsTop (1#7).toNat busy.inb ∧
    tall.Inv ∧ tall.q = [0x02, 0x50, 0x00, 0xF8] ++ [] ∧ ¬ BumpMeetsTop (0#7).toNat tall.inb ∧
    BumpMeetsTop (2#7).toNat tall.inb :=
  ⟨busy_inv, by decide, by decide, by decide +kernel, ack_legal, by decide +kernel, busy_noTop, tall_inv,
    by decide +kernel, meetsTop_false.1 (by decide +kernel), tall_top 2 (by decide)⟩

theorem witness_FailureLatchFollowsTheOutcome : busy.cfg.wf = true ∧ (4#7).toNat < busy.cfg.nSlots ∧
    ∃ t, exec (.fpParse 4#7) busy = .next t := ⟨by decide, by decide, _, rfl⟩

/-- `02 50 00 F8`, its last byte `b`, in an idle ReceiveBuffer. -/
def lone (b : Byte) : State := ring 110 [0x02, 0x50, 0x00, b]

/-- Nothing changed, with and without an inbound slot at rank 255; and the last byte changed. -/
theorem witness_NoFalseAccept : (lone 0xF8).Inv ∧ (2#7).toNat < Config.ref.nSlots ∧
    (lone 0xF8).rxb.ovf = false ∧ (lone 0xF8).fp.itmr.active = false ∧ 3 < 4 ∧
    (lone 0xF8).q = [0x02#8, 0x50#8, 0x00#8, 0xF8#8].set 3 0xF8#8 ∧
    [0x02#8, 0x50#8, 0x00#8, 0xF8#8][3]? = some 0xF8#8 ∧ ¬ BumpMeetsTop (2#7).toNat (lone 0xF8).inb ∧
    { lone 0xF8 with inb := tall.inb }.Inv ∧ BumpMeetsTop (2#7).toNat tall.inb ∧
    (lone 0xF0).Inv ∧ (lone 0xF0).q = [0x02#8, 0x50#8, 0x00#8, 0xF8#8].set 3 0xF0#8 ∧
    [0x02#8, 0x50#8, 0x00#8, 0xF8#8][3]? ≠ some 0xF0#8 :=
  ⟨by decide +kernel, by decide, by decide +kernel, by decide +kernel, by decide, by decide +kernel, by decide,
    meetsTop_false.1 (by decide +kernel), by decide +kernel, tall_top 2 (by decide), by decide +kernel,
    by decide +kernel, by decide⟩

theorem witness_PartialResetsClearTheirPart : busy.cfg.wf = true := by decide

theorem witness_NakRequestEmitsBelowThree : busy.cfg.wf = true ∧
    (satSucc { busy with nak := ⟨1, true⟩ }.nak.cnt).toNat < 3 ∧ 3 ≤ (satSucc busy.nak.cnt).toNat ∧
    3 ≤ (satSucc { busy with nak := ⟨255, true⟩ }.nak.cnt).toNat := by decide +kernel

theorem witness_NoFreeInboundSlotIsCritical : { busy with inb := ve4 }.cfg.wf = true ∧
    ∀ sl ∈ { busy with inb := ve4 }.inb, sl.valid = true := by decide +kernel

/-- The clauses: too few bytes; a dropped byte; a bare timeout. -/
theorem witness_EngineMapsParserOutcomes : busy.Inv ∧ IsFirstFree busy.inb 1 ∧
    rspOf (exec (.fpParse (BitVec.ofNat 7 1)) (busyWith [0x02])) = okRsp 1 ∧
    rspOf (exec (.fpParse (BitVec.ofNat 7 1)) (busyWith [0xFF, 0x02, 0x50, 0x00])) = okRsp 3 ∧
    rspOf (exec (.fpParse (BitVec.ofNat 7 1)) { busy with now := 201 }) = okRsp 4 :=
  ⟨busy_inv, busy_firstFree, by decide +kernel, by decide +kernel, by decide +kernel⟩

/-- A NAK request with the counter at 1, the last that emits, and at 2, the first that does not. -/
theorem witness_EngineMapsParserOutcomes_nak :
    { busyWith [0xFF, 0x02, 0x50, 0x00] with fp := ⟨false, Timer.reset⟩, nak := ⟨1, false⟩ }.Inv ∧
    rspOf (exec (.fpParse (BitVec.ofNat 7 1))
      { busyWith [0xFF, 0x02, 0x50, 0x00] with fp := ⟨false, Timer.reset⟩, nak := ⟨1, false⟩ }) = okRsp 2 ∧
    (satSucc 1#8).toNat < 3 ∧
    rspOf (exec (.fpParse (BitVec.ofNat 7 1))
      { busyWith [0xFF, 0x02, 0x50, 0x00] with fp := ⟨false, Timer.reset⟩, nak := ⟨2, false⟩ }) = okRsp 2 ∧
    3 ≤ (satSucc 2#8).toNat := by decide +kernel

/-- With outbound messages, and with none. -/
theorem witness_AckFreesTheOldestOutbound : busy.Inv ∧ busy.rxb.ovf = false ∧
    busy.armedItmr.timedOut busy.now = false ∧ IsFirstFree busy.inb 1 ∧ ¬ BumpMeetsTop 1 busy.inb ∧
    busy.q = [0x02#8, 0x50#8, 0x00#8, 0xF8#8] ++ [] ∧ IsOldest busy.outb 0 ∧
    { busy with outb := five [] }.Inv ∧ ∀ sl ∈ { busy with outb := five [] }.outb, sl.valid = false :=
  ⟨busy_inv, by decide, by decide +kernel, busy_firstFree, busy_noTop, by decide +kernel, busy_oldest,
    by decide +kernel, by decide +kernel⟩

/-- `busy` with a negative acknowledgement in the ring and one outbound message that failed `n` times. -/
def nakked (n : BitVec 8) : State :=
  { busyWith [0x02, 0x51, 0x00, 0xF9] with outb := five [Slot.reset, sl 1 n 0 [0x01, 0x71, 0x00, 0xDA]] }

/-- `nakked 1` with two outbound messages at rank 255, of which the one at index 1 is the oldest. -/
def nakkedTop : State := { nakked 1 with outb := five [Slot.reset, sl 255 1 0 [], sl 255 0 0 []] }

/-- A message that failed once is sent again, one that failed twice is not; no message; and a re-send that stops. -/
theorem witness_NakFrameRetriesTheOldestOutbound : (nakked 1).Inv ∧ (nakked 1).rxb.ovf = false ∧
    (nakked 1).armedItmr.timedOut (nakked 1).now = false ∧ IsFirstFree (nakked 1).inb 1 ∧
    ¬ BumpMeetsTop 1 (nakked 1).inb ∧
    (nakked 1).q = withChecksum [0x02#8, (nakked 1).cfg.cmdNak, 0x00#8] ++ [] ∧
    IsOldest (nakked 1).outb 1 ∧ (satSucc (slotAt (nakked 1).outb 1).txc).toNat < 3 ∧
    ¬ BumpMeetsTop 1 (nakked 1).outb ∧
    (nakked 2).Inv ∧ IsOldest (nakked 2).outb 1 ∧ 3 ≤ (satSucc (slotAt (nakked 2).outb 1).txc).toNat ∧
    { nakked 1 with outb := five [] }.Inv ∧ (∀ sl ∈ { nakked 1 with outb := five [] }.outb, sl.valid = false) ∧
    nakkedTop.Inv ∧ IsOldest nakkedTop.outb 1 ∧ (satSucc (slotAt nakkedTop.outb 1).txc).toNat < 3 ∧
    BumpMeetsTop 1 nakkedTop.outb :=
  ⟨by decide +kernel, by decide +kernel, by decide +kernel, busy_firstFree, busy_noTop, by decide +kernel,
    msGetOldest_some.1 (by decide +kernel), by decide +kernel, meetsTop_false.1 (by decide +kernel),
    by decide +kernel, msGetOldest_some.1 (by decide +kernel), by decide +kernel, by decide +kernel,
    by decide +kernel, by decide +kernel, msGetOldest_some.1 (by decide +kernel), by decide +kernel,
    meetsTop_iff.1 (by decide +kernel)⟩

theorem witness_ApplicationFrameIsAckedAndSurfaced : (busyWith [0x02, 0x60, 0x01, 0xAB, 0x62]).Inv ∧
    (busyWith [0x02, 0x60, 0x01, 0xAB, 0x62]).rxb.ovf = false ∧
    (busyWith [0x02, 0x60, 0x01, 0xAB, 0x62]).armedItmr.timedOut busy.now = false ∧ IsFirstFree busy.inb 1 ∧
    LegalFrame Config.ref (0x02 :: 0x60 :: [0x01, 0xAB, 0x62]) ∧ 0x60#8 ≠ 0x50#8 ∧ 0x60#8 ≠ Config.ref.cmdNak ∧
    ¬ BumpMeetsTop 1 busy.inb ∧
    (busyWith [0x02, 0x60, 0x01, 0xAB, 0x62]).q = (0x02 :: 0x60 :: [0x01, 0xAB, 0x62]) ++ [] :=
  ⟨by decide +kernel, by decide +kernel, by decide +kernel, busy_firstFree,
    ⟨0x60, 0x01, [0xAB, 0x62], rfl, rfl, ⟨⟨0x60, 1, 1⟩, by decide, by decide, by decide, by decide⟩, by decide⟩,
    by decide, by decide, busy_noTop, by decide +kernel⟩

theorem witness_CleanFrameStopsAtTheTop : tall.Inv ∧ tall.rxb.ovf = false ∧
    tall.armedItmr.timedOut tall.now = false ∧ IsFirstFree tall.inb 2 ∧ BumpMeetsTop 2 tall.inb ∧
    LegalFrame tall.cfg [0x02, 0x50, 0x00, 0xF8] ∧ tall.q = [0x02, 0x50, 0x00, 0xF8] ++ [] :=
  ⟨tall_inv, by decide, by decide +kernel, tall_firstFree, tall_top 2 (by decide), ack_legal, by decide +kernel⟩

/-- Refused: a payload of 256 bytes; a command outside the whitelist; a full store. -/
theorem witness_TransmitSendsAndRegisters_refused : busy.Inv ∧ 255 < (List.replicate 256 0#8).length ∧
    ¬ WlAdmits busy.cfg.wlTx 0x72 0 ∧ { busy with outb := ve4 }.Inv ∧
    ∀ sl ∈ { busy with outb := ve4 }.outb, sl.valid = true :=
  ⟨busy_inv, by rw [List.length_replicate]; decide, fun h => by unfold WlAdmits at h; revert h; decide,
    by decide +kernel, by decide +kernel⟩

/-- Sent: a burst of five bytes of which the transport takes five, or four; and one that another message at rank 255
keeps from being registered. -/
theorem witness_TransmitSendsAndRegisters : { busy with txAnswer := 5 }.Inv ∧
    WlAdmits busy.cfg.wlTx 0x70 [0x11#8].length ∧ IsFirstFree busy.outb 3 ∧
    [0x11#8].length + 4 ≤ { busy with txAnswer := 5 }.txAnswer ∧ ¬ BumpMeetsTop 3 busy.outb ∧
    { busy with txAnswer := 4 }.Inv ∧ { busy with txAnswer := 4 }.txAnswer < [0x11#8].length + 4 ∧
    { busy with txAnswer := 5, outb := tall.inb }.Inv ∧ IsFirstFree tall.inb 2 ∧ BumpMeetsTop 2 tall.inb :=
  ⟨by decide +kernel, ⟨⟨0x70, 1, 1⟩, by decide, by decide, by decide, by decide⟩,
    msGetFree_some.1 (by decide +kernel), by decide, meetsTop_false.1 (by decide +kernel), by decide +kernel,
    by decide, by decide +kernel, tall_firstFree, tall_top 2 (by decide)⟩

/-- At 1006: slots 0 and 3 are overdue and sent again, slot 1 is overdue for the third time, slot 2 is on its arc at
rank `top`. -/
def overdue (top : BitVec 8) : State :=
  { busy with outb := five [sl 3 1 0 [0x01], sl 2 2 5 [0x02], sl top 0 6 [0x03], sl 1 0 4 [0x04]], now := 1006 }

/-- The four functions exist; slot 2 is bumped twice, from 253 to the top, or from 254 beyond it. -/
theorem witness_TimeoutScanRetriesOverdueSlots : (overdue 253).Inv ∧ (overdue 254).Inv ∧
    ∀ top, top = 253#8 ∨ top = 254#8 → ∃ (late spent again : Nat → Bool) (older : Nat → Nat),
      (∀ j, late j = ((slotAt (overdue top).outb j).valid &&
        (slotAt (overdue top).outb j).tmr.timedOut (overdue top).now)) ∧
      (∀ j, spent j = decide (3 ≤ (satSucc (slotAt (overdue top).outb j).txc).toNat)) ∧
      (∀ j, again j = (late j && !spent j)) ∧
      (∀ j, older j = ((List.range (if again j then j else (overdue top).cfg.nSlots)).filter again).length) ∧
      (List.range 5).map again = [true, false, false, true, false] ∧
      (List.range 5).map older = [0, 2, 2, 1, 2] ∧
      (top = 253#8 → ∀ j, (slotAt (overdue top).outb j).valid = true →
        (slotAt (overdue top).outb j).rank.toNat + older j ≤ 255) ∧
      (top = 254#8 → (slotAt (overdue top).outb 2).valid = true ∧
        255 < (slotAt (overdue top).outb 2).rank.toNat + older 2) := by
  refine ⟨by decide +kernel, by decide +kernel, ?_⟩
  rintro top (rfl | rfl) <;>
    refine ⟨_, _, _, _, fun _ => rfl, fun _ => rfl, fun _ => rfl, fun _ => rfl, by decide +kernel, by decide +kernel,
      ?_, by decide +kernel⟩
  · intro _ j hj
    have h5 : j < 5 := lt_of_slotAt_valid hj
    revert hj
    interval_cases j <;> decide +kernel
  · intro h
    exact absurd h (by decide)

theorem witness_ParseIsCriticalExactlyWhenListed : busy.Inv ∧ rspOf (exec .engParse busy) = okRsp 0 ∧
    rspOf (exec .engParse { busy with inb := ve4 }) = okRsp 3 ∧
    rspOf (exec .engParse { busyWith [0xFF, 0x02, 0x50, 0x00] with fp := ⟨false, Timer.reset⟩ }) = okRsp 3 ∧
    rspOf (exec .engParse (nakked 2)) = okRsp 3 ∧ rspOf (exec .engParse (nakked 1)) = okRsp 0 := by
  decide +kernel

theorem witness_ResetAllDiscardsInFlightState : busy.cfg.wf = true := by decide

end Sys2Proof.Tests
end

section
/-! PROOFS. Every step keeps the invariant (R7, R8, R22 to R24, R32 to R39, R145), layer by layer: one rule per
update of the state, then the parser, the engine, the instructions and the step. -/

namespace Sys2Proof.Machine

/-! ### One rule per update of the state

A field the invariant does not read (latches, guard, inputs, outputs) is changed without a rule: the invariant of the
state after is the invariant of the state before, by definition. -/

section
variable {s : State}

theorem State.Inv.set_rxb (h : s.Inv) {r : RxBuffer} (hr : r.Inv s.cfg) : State.Inv { s with rxb := r } := by
  obtain ⟨hcfg, -, hitmr, hinb, houtb⟩ := h
  exact ⟨hcfg, hr, hitmr, hinb, houtb⟩

theorem State.Inv.set_fp (h : s.Inv) {p : FrameParser} (hp : p.itmr.Inv) : State.Inv { s with fp := p } := by
  obtain ⟨hcfg, hrxb, -, hinb, houtb⟩ := h
  exact ⟨hcfg, hrxb, hp, hinb, houtb⟩

theorem State.Inv.set_inb (h : s.Inv) {v : Store} (hv : Store.Inv s.cfg v) : State.Inv { s with inb := v } := by
  obtain ⟨hcfg, hrxb, hitmr, -, houtb⟩ := h
  exact ⟨hcfg, hrxb, hitmr, hv, houtb⟩

theorem State.Inv.set_outb (h : s.Inv) {v : Store} (hv : Store.Inv s.cfg v) : State.Inv { s with outb := v } := by
  obtain ⟨hcfg, hrxb, hitmr, hinb, -⟩ := h
  exact ⟨hcfg, hrxb, hitmr, hinb, hv⟩

theorem State.Inv.rxb_inv (h : s.Inv) : s.rxb.Inv s.cfg := h.2.1

theorem State.Inv.itmr_inv (h : s.Inv) : s.fp.itmr.Inv := h.2.2.1

theorem State.Inv.inb_inv (h : s.Inv) : Store.Inv s.cfg s.inb := h.2.2.2.1

theorem State.Inv.outb_inv (h : s.Inv) : Store.Inv s.cfg s.outb := h.2.2.2.2

theorem State.Inv.slotCap_le (h : s.Inv) : s.cfg.slotCap ≤ 255 := wf_slotCap h.1

theorem State.Inv.store_inv (h : s.Inv) (st : StoreSel) : Store.Inv s.cfg (s.store st) := by
  cases st with
  | inb => exact h.inb_inv
  | outb => exact h.outb_inv

theorem State.Inv.setStore (h : s.Inv) (st : StoreSel) {v : Store} (hv : Store.Inv s.cfg v) :
    (s.setStore st v).Inv := by
  cases st with
  | inb => exact h.set_inb hv
  | outb => exact h.set_outb hv

theorem State.Inv.mapSlot (h : s.Inv) (sel : SSel) {f : Slot → Slot}
    (hf : ∀ sl, sl.Inv s.cfg → (f sl).Inv s.cfg) : (s.mapSlot sel f).Inv :=
  h.setStore sel.store (modify_inv (h.store_inv sel.store) _ hf)

theorem State.Inv.mapTimer (h : s.Inv) (t : TSel) {f : Timer → Timer} (hf : ∀ tm, tm.Inv → (f tm).Inv) :
    (s.mapTimer t f).Inv := by
  cases t with
  | itmr => exact h.set_fp (hf _ h.itmr_inv)
  | slot sel =>
    refine h.mapSlot sel fun sl hsl => ?_
    obtain ⟨hbuf, hcap, hlen, hrank, htmr⟩ := hsl
    exact ⟨hbuf, hcap, hlen, hrank, hf _ htmr⟩

theorem State.Inv.stopItmr (h : s.Inv) : s.stopItmr.Inv := h.set_fp (tmrStop_inv h.itmr_inv)

theorem State.Inv.clearRxb (h : s.Inv) : s.clearRxb.Inv := h.set_rxb (rxbClear_inv h.rxb_inv)

theorem State.Inv.okByte (h : s.Inv) (o : Option Byte) : (s.okByte o).Inv := by
  cases o with
  | none => exact h
  | some b => exact h

theorem State.Inv.okIndex (h : s.Inv) (o : Option Nat) : (s.okIndex o).Inv := by
  cases o with
  | none => exact h
  | some i => exact h

theorem State.Inv.okUnit (h : s.Inv) (accepted : Bool) : (s.okUnit accepted).Inv := by
  cases accepted with
  | false => exact h
  | true => exact h

/-- The reset state of a block built with a well-formed configuration (R301). -/
theorem State.resetOf_inv {c : Config} (hc : c.wf = true) (p : List Transaction) : (State.resetOf c p).Inv := by
  have hcap := wf_ringCap hc
  exact ⟨hc, ⟨by show 0 < c.ringCap; omega, Nat.zero_le _, Memory.wf_nil, fun _ hx => absurd hx List.not_mem_nil⟩,
    Timer.reset_inv, replicate_reset_inv c, replicate_reset_inv c⟩

/-! ### The parser (R192 to R202) -/

theorem fpOverflow_inv (h : s.Inv) : (fpOverflow s).2.Inv := h.clearRxb

theorem fpArm_inv (h : s.Inv) : (fpArm s).Inv := by
  unfold fpArm
  split
  · exact h.set_fp (tmrStart_inv s.now tIntegrity s.fp.itmr)
  · exact h

theorem fpExpire_inv (h : s.Inv) : (fpExpire s).2.Inv := h.clearRxb.stopItmr

theorem fpDrop_inv (h : s.Inv) : (fpDrop s).2.Inv := h.set_rxb (rxbPop_inv h.rxb_inv)

theorem fpCopy_inv (h : s.Inv) (full : Nat) {sl : Slot} (hsl : sl.Inv s.cfg) : (fpCopy s full sl).2.Inv s.cfg :=
  msAppendAll_inv h.slotCap_le _ (msDiscard_inv hsl)

theorem fpDiscardCopy_inv (h : s.Inv) (d full : Nat) : (fpDiscardCopy d full s).Inv :=
  h.set_inb (modify_inv h.inb_inv d fun _ hsl => msDiscard_inv (fpCopy_inv h full hsl))

theorem fpAccept_inv (h : s.Inv) (d full : Nat) : (fpAccept d full s).Inv := by
  have hcopied := modify_inv h.inb_inv d fun _ hsl => fpCopy_inv h full hsl
  exact (h.stopItmr.set_rxb (rxbPopN_inv full h.rxb_inv)).set_inb (msValidate_inv hcopied d s.now tAckWin)

theorem fpTake_inv (h : s.Inv) (d full : Nat) : (fpTake d full s).2.Inv := by
  unfold fpTake
  split
  · exact fpAccept_inv h d full
  · exact fpDrop_inv (fpDiscardCopy_inv h d full)

theorem fpFrame_inv (h : s.Inv) (d : Nat) : (fpFrame d s).2.Inv := by
  unfold fpFrame
  split
  · split
    · exact h
    · exact fpTake_inv h d _
  · exact fpDrop_inv h

theorem fpPending_inv (h : s.Inv) (d : Nat) : (fpPending d s).2.Inv := by
  unfold fpPending
  split
  · exact fpExpire_inv h
  · split
    · exact h
    · exact fpFrame_inv h d

theorem fpParse_inv (h : s.Inv) (d : Nat) : (fpParse d s).2.Inv := by
  unfold fpParse
  split
  · exact fpOverflow_inv h
  · split
    · exact fpArm_inv h
    · exact fpPending_inv (fpArm_inv h) d

theorem fpReset_inv (h : s.Inv) : (fpReset s).Inv := h.stopItmr.clearRxb

/-! ### The guard and the engine (R220, R232 to R252) -/

theorem nakRequest_inv (h : s.Inv) : (nakRequest s).Inv := by
  unfold nakRequest
  split
  · exact h
  · exact h

theorem countFailure_inv (h : s.Inv) (i : Nat) : (countFailure i s).Inv :=
  h.set_outb (modify_inv h.outb_inv i fun _ hsl => msIncTx_inv hsl)

theorem resend_inv (h : s.Inv) (i : Nat) : (resend i s).Inv :=
  h.set_outb (msMarkRetx_inv h.outb_inv i s.now s.cfg.tTxDeadline)

theorem retrySlot_inv (h : s.Inv) (i : Nat) : (retrySlot i s).2.Inv := by
  unfold retrySlot
  split
  · exact countFailure_inv h i
  · exact resend_inv (countFailure_inv h i) i

theorem freeInbound_inv (h : s.Inv) (d : Nat) : (freeInbound d s).Inv := h.set_inb (msDelete_inv h.inb_inv d)

theorem confirmOldest_inv (h : s.Inv) : (confirmOldest s).Inv := by
  unfold confirmOldest
  split
  · exact h
  · exact h.set_outb (msDelete_inv h.outb_inv _)

theorem retryOldest_inv (h : s.Inv) : (retryOldest s).2.Inv := by
  unfold retryOldest
  split
  · exact h
  · exact retrySlot_inv h _

theorem engDispatch_inv (h : s.Inv) (d : Nat) : (engDispatch d s).2.Inv := by
  unfold engDispatch
  split
  · exact confirmOldest_inv (freeInbound_inv h d)
  · split
    · exact retryOldest_inv (freeInbound_inv h d)
    · exact h

theorem engAfterParse_inv (h : s.Inv) (d : Nat) (r : ParserOutcome) : (engAfterParse d r s).2.Inv := by
  cases r with
  | tooFew | byteDropped | timeout => exact h
  | reqNak => exact nakRequest_inv h
  | ok =>
    have hreset : (nakResetCounter s).Inv := h
    exact engDispatch_inv hreset d

theorem engParse_inv (h : s.Inv) : (engParse s).2.Inv := by
  unfold engParse
  split
  · exact h
  · exact engAfterParse_inv (fpParse_inv h _) _ _

theorem engSend_inv (h : s.Inv) (cmd : Byte) (data : List Byte) (o : Nat) : (engSend cmd data o s).2.Inv := by
  have hstaged : Store.Inv s.cfg (s.outb.modify o (stage s.cfg cmd data)) :=
    modify_inv h.outb_inv o fun _ hsl => stage_inv h.slotCap_le cmd data hsl
  unfold engSend
  dsimp only
  split
  · exact h.set_outb (msValidate_inv hstaged o s.now s.cfg.tTxDeadline)
  · exact h.set_outb (modify_inv hstaged o fun _ hsl => msDiscard_inv hsl)

theorem engTransmit_inv (h : s.Inv) (cmd : Byte) (data : List Byte) : (engTransmit cmd data s).2.Inv := by
  unfold engTransmit
  split
  · exact h
  · split
    · split
      · exact h
      · exact engSend_inv h cmd data _
    · exact h

theorem timeoutTurn_inv {acc : Bool × State} (h : acc.2.Inv) (i : Nat) : (timeoutTurn acc i).2.Inv := by
  unfold timeoutTurn
  split
  · exact retrySlot_inv h i
  · exact h

theorem foldl_timeoutTurn_inv (is : List Nat) {acc : Bool × State} (h : acc.2.Inv) :
    (is.foldl timeoutTurn acc).2.Inv := by
  induction is generalizing acc with
  | nil => exact h
  | cons i is ih => exact ih (timeoutTurn_inv h i)

theorem handleTimeouts_inv (h : s.Inv) : (handleTimeouts s).2.Inv := foldl_timeoutTurn_inv _ h

theorem resetAll_inv (h : s.Inv) : (resetAll s).Inv := by
  have hcleared := (h.set_inb (msClearAll_inv h.inb_inv)).set_outb (msClearAll_inv h.outb_inv)
  have hparser := fpReset_inv hcleared
  exact hparser

/-- The timer half of the RX byte event (R231). -/
theorem rxRestart_inv (h : s.Inv) : (rxRestart s).Inv := by
  unfold rxRestart
  split
  · exact h.set_fp (tmrRestart_inv s.now s.fp.itmr)
  · exact h

theorem rxRestart_cfg (s : State) : (rxRestart s).cfg = s.cfg := by
  unfold rxRestart; split <;> rfl

/-- The RX byte event (R231). -/
theorem rxRestart_push_inv (h : s.Inv) (b : Byte) :
    State.Inv { rxRestart s with rxb := (rxbPush s.cfg.ringCap b s.rxb).2 } :=
  (rxRestart_inv h).set_rxb (by rw [rxRestart_cfg]; exact rxbPush_inv h.rxb_inv b)

end

/-! ### Transactions, instructions and steps -/

/-- A transaction's body keeps the invariant. -/
def KeepsInv (body : State → State) : Prop := ∀ s, s.Inv → (body s).Inv

section
variable {s t : State} {legal : Bool} {top : State → Bool} {body : State → State}

theorem transact_inv (h : transact s body = .next t) (hs : s.Inv) (hb : KeepsInv body) : t.Inv := by
  obtain ⟨-, rfl⟩ := transact_next h
  exact hb s.fresh hs

theorem transactIf_inv (h : transactIf legal s body = .next t) (hs : s.Inv) (hb : KeepsInv body) : t.Inv := by
  obtain ⟨-, ⟨-, rfl⟩ | ⟨-, rfl⟩⟩ := transactIf_next h
  · exact hb s.fresh hs
  · exact hs

theorem transactBump_inv (h : transactBump top s body = .next t) (hs : s.Inv) (hb : KeepsInv body) : t.Inv := by
  obtain ⟨-, -, rfl⟩ := transactBump_next h
  exact hb s.fresh hs

theorem transactBumpIf_inv (h : transactBumpIf legal top s body = .next t) (hs : s.Inv) (hb : KeepsInv body) :
    t.Inv := by
  obtain ⟨-, ⟨-, -, rfl⟩ | ⟨-, rfl⟩⟩ := transactBumpIf_next h
  · exact hb s.fresh hs
  · exact hs

/-- Every instruction keeps the invariant. -/
theorem exec_inv {i : Instr} (h : exec i s = .next t) (hs : s.Inv) : t.Inv := by
  unfold exec at h
  cases i with
  -- the operations that only answer a value (R70)
  | engCountTimeouts | rxbCount | rxbOvf | cksCompute _ | cksVerify _ | msCountTimedout _ | msOldestTimedout _
  | fpRead | nakRead _ => exact transact_inv h hs fun _ hu => hu
  | tmrTimedout _ | tmrRead _ _ | msReadInfo _ _ | engRxLen _ => exact transactIf_inv h hs fun _ hu => hu
  | engGetNewestRx | msGetFree _ | msGetOldest _ | msGetNewest _ => exact transact_inv h hs fun _ hu => hu.okIndex _
  | rxbPeek _ => exact transact_inv h hs fun _ hu => hu.okByte _
  | engRxByte _ _ | msReadByte _ _ => exact transactIf_inv h hs fun _ hu => hu.okByte _
  -- the ring
  | rxbPush b => exact transact_inv h hs fun _ hu => (hu.set_rxb (rxbPush_inv hu.rxb_inv b)).okUnit _
  | rxbPop => exact transact_inv h hs fun _ hu => (hu.set_rxb (rxbPop_inv hu.rxb_inv)).okByte _
  | rxbClear => exact transact_inv h hs fun _ hu => hu.clearRxb
  | rxByte b => exact transact_inv h hs fun _ hu => rxRestart_push_inv hu b
  -- the timers
  | tmrStart tsel d => exact transactIf_inv h hs fun u hu => hu.mapTimer tsel fun tm _ => tmrStart_inv u.now d tm
  | tmrStop tsel => exact transactIf_inv h hs fun _ hu => hu.mapTimer tsel fun _ htm => tmrStop_inv htm
  | tmrRestart tsel => exact transactIf_inv h hs fun u hu => hu.mapTimer tsel fun tm _ => tmrRestart_inv u.now tm
  -- the slot stores
  | msAppend sel b =>
    exact transactIf_inv h hs fun _ hu => (hu.mapSlot sel fun _ hsl => msAppend_inv hu.slotCap_le hsl b).okUnit _
  | msDiscard sel => exact transactIf_inv h hs fun _ hu => hu.mapSlot sel fun _ hsl => msDiscard_inv hsl
  | msIncTx sel => exact transactIf_inv h hs fun _ hu => hu.mapSlot sel fun _ hsl => msIncTx_inv hsl
  | msResetDeadline sel =>
    exact transactIf_inv h hs fun u hu => hu.mapSlot sel fun _ hsl => msResetDeadline_inv u.now hsl
  | msValidate sel d =>
    exact transactBumpIf_inv h hs fun u hu => hu.setStore _ (msValidate_inv (hu.store_inv _) _ u.now d)
  | msMarkRetx sel d =>
    exact transactBumpIf_inv h hs fun u hu => hu.setStore _ (msMarkRetx_inv (hu.store_inv _) _ u.now d)
  | msDelete sel => exact transactIf_inv h hs fun _ hu => hu.setStore _ (msDelete_inv (hu.store_inv _) _)
  | msClearAll st => exact transact_inv h hs fun _ hu => hu.setStore _ (msClearAll_inv (hu.store_inv _))
  | engDeleteRx i => exact transactIf_inv h hs fun _ hu => freeInbound_inv hu i.toNat
  -- the parser and the guard
  | fpParse d => exact transactBumpIf_inv h hs fun _ hu => fpParse_inv hu d.toNat
  | fpReset => exact transact_inv h hs fun _ hu => fpReset_inv hu
  | nakRequest => exact transact_inv h hs fun _ hu => nakRequest_inv hu
  | nakResetCounter | nakResetState => exact transact_inv h hs fun _ hu => hu
  -- the engine
  | engParse => exact transactBump_inv h hs fun _ hu => engParse_inv hu
  | engTransmit cmd data => exact transactBump_inv h hs fun _ hu => (engTransmit_inv hu cmd data).okUnit _
  | engHandleTimeouts => exact transactBump_inv h hs fun _ hu => handleTimeouts_inv hu
  | engResetAll => exact transact_inv h hs fun _ hu => resetAll_inv hu

/-- Every step keeps the invariant. -/
theorem step_inv (h : step s = .next t) (hs : s.Inv) : t.Inv := by
  obtain ⟨-, rfl⟩ | ⟨rest, -, hwf, rfl⟩ | ⟨now, txAnswer, _, rest, _, -, -, hexec⟩ | ⟨_, _, _, _, -, -, rfl⟩ :=
    step_cases h
  · exact hs
  · exact State.resetOf_inv hwf rest
  · have hsampled : (s.sample now txAnswer rest).Inv := hs
    exact exec_inv hexec hsampled
  · exact hs

end

/-- Settles O12: the invariant goes through each update of the state, each operation and each instruction. -/
theorem everyStepKeepsInvariant : Obligations.EveryStepKeepsInvariant := fun _ _ hs h => step_inv h hs

end Sys2Proof.Machine
end

section
/-! PROOFS. Every operation completes short of a bump at rank 255 (R260, R173): each instruction is a transaction, or
one that stops where a bump would meet rank 255; and with headroom in the ranks no bump does. -/

namespace Sys2Proof.Machine

/-! ### Rank headroom -/

theorem rankHeadroom_iff_slotAt {n : Nat} {v : Store} :
    RankHeadroom n v ↔ ∀ j, (slotAt v j).valid = true → (slotAt v j).rank.toNat + n ≤ 255 := by
  rw [RankHeadroom, forall_mem_iff_slotAt]
  exact ⟨fun h j hj => h j (lt_of_slotAt_valid hj) hj, fun h j _ hj => h j hj⟩

theorem RankHeadroom.mono {m n : Nat} {v : Store} (h : RankHeadroom n v) (hmn : m ≤ n) : RankHeadroom m v :=
  fun sl hsl hv => (Nat.add_le_add_left hmn _).trans (h sl hsl hv)

/-- With headroom for one bump no bump meets rank 255. -/
theorem RankHeadroom.meetsTop_eq_false {v : Store} (h : RankHeadroom 1 v) (i : Nat) : meetsTop i v = false := by
  rw [meetsTop_false]
  rintro ⟨j, -, hv, hr⟩
  have := rankHeadroom_iff_slotAt.1 h j hv
  simp [hr] at this

/-- A change of one slot that leaves its rank and validity alone keeps the headroom. -/
theorem RankHeadroom.changedAt {n : Nat} {v w : Store} {i : Nat} {sl : Slot} (h : RankHeadroom n v)
    (hc : ChangedAt v w i sl) (hvalid : sl.valid = (slotAt v i).valid) (hrank : sl.rank = (slotAt v i).rank) :
    RankHeadroom n w := by
  rw [rankHeadroom_iff_slotAt] at h ⊢
  obtain ⟨-, hself, hother⟩ := hc
  intro j
  by_cases hj : j = i
  · subst hj
    rw [hself, hvalid, hrank]
    exact h j
  · rw [hother j hj]
    exact h j

theorem Slot.aged_headroom {n : Nat} {sl : Slot} (h : sl.rank.toNat + (n + 1) ≤ 255) :
    sl.aged.rank.toNat + n ≤ 255 := by
  rw [Slot.aged_eq]
  split
  · show (sat8Inc sl.rank).toNat + n ≤ 255
    rw [sat8Inc_eq_satSucc, toNat_satSucc]
    omega
  · omega

/-- A bump costs one of the headroom. -/
theorem RankHeadroom.bumpedTo {n : Nat} {v w : Store} {i : Nat} {sl : Slot} (h : RankHeadroom (n + 1) v)
    (hn : n ≤ 254) (hb : BumpedTo v w i sl) (hrank : sl.rank = 1#8) : RankHeadroom n w := by
  rw [rankHeadroom_iff_slotAt] at h ⊢
  obtain ⟨-, hself, hother⟩ := hb
  intro j hv
  by_cases hj : j = i
  · subst hj
    rw [hself, hrank]
    show 1 + n ≤ 255
    omega
  · rw [hother j hj] at hv ⊢
    rw [Slot.aged_valid] at hv
    exact Slot.aged_headroom (h j hv)

/-! ### The scan of R243 under headroom -/

/-- A retry of a valid slot bumps at most once. -/
theorem retrySlot_headroom {n i : Nat} {s : State} (hv : (slotAt s.outb i).valid = true)
    (h : RankHeadroom (n + 1) s.outb) : RankHeadroom n (retrySlot i s).2.outb := by
  have hi := lt_of_slotAt_valid hv
  by_cases hspent : 3 ≤ (satSucc (slotAt s.outb i).txc).toNat
  · rw [retrySlot_spent hi hspent]
    exact (h.mono (Nat.le_succ n)).changedAt (countFailure_changedAt hi) rfl rfl
  · obtain ⟨w, hw, hb⟩ := retrySlot_resent hi (Nat.lt_of_not_le hspent)
    have hn := rankHeadroom_iff_slotAt.1 h i hv
    rw [hw]
    exact h.bumpedTo (by omega) hb rfl

theorem timeoutTurn_headroom {n : Nat} {acc : Bool × State} (i : Nat) (h : RankHeadroom (n + 1) acc.2.outb) :
    RankHeadroom n (timeoutTurn acc i).2.outb := by
  unfold timeoutTurn
  split
  · rename_i hlate
    rw [Slot.overdue, Bool.and_eq_true] at hlate
    exact retrySlot_headroom hlate.1 h
  · exact h.mono (Nat.le_succ n)

/-- The first `i` turns cost at most `i` of the headroom. -/
theorem foldl_timeoutTurn_headroom {n : Nat} {acc : Bool × State} (i : Nat) (h : RankHeadroom (n + i) acc.2.outb) :
    RankHeadroom n ((List.range i).foldl timeoutTurn acc).2.outb := by
  induction i generalizing n with
  | zero => exact h
  | succ i ih =>
    rw [List.range_succ, List.foldl_append]
    refine timeoutTurn_headroom i (ih ?_)
    rwa [Nat.add_right_comm n 1 i]

/-! ### The stop of each bumping operation under headroom -/

/-- The operation's stop is never reached in a block that exists and whose valid ranks are at most `255 - N_SLOTS`. -/
def ClearOfTop (top : State → Bool) : Prop :=
  ∀ s : State, s.cfg.wf = true → (∀ st, RankHeadroom s.cfg.nSlots (s.store st)) → top s = false

section
variable {s : State}

theorem retryMeetsTop_eq_false (h : RankHeadroom 1 s.outb) (i : Nat) : retryMeetsTop i s = false := by
  rw [retryMeetsTop, h.meetsTop_eq_false, Bool.and_false]

theorem fpMeetsTop_eq_false (h : RankHeadroom 1 s.inb) (d : Nat) : fpMeetsTop d s = false := by
  rw [fpMeetsTop, h.meetsTop_eq_false, Bool.and_false]

theorem dispatchMeetsTop_eq_false (h : RankHeadroom 1 s.outb) (d : Nat) : dispatchMeetsTop d s = false := by
  unfold dispatchMeetsTop
  split
  · rfl
  · split
    · simp [retryMeetsTop_eq_false h]
    · rfl

theorem fpParse_outb (d : Nat) (s : State) : (fpParse d s).2.outb = s.outb := by
  rw [fpParse_frame_eq d s]

theorem engParseMeetsTop_eq_false (hin : RankHeadroom 1 s.inb) (hout : RankHeadroom 1 s.outb) :
    engParseMeetsTop s = false := by
  have hdispatch (d : Nat) : dispatchMeetsTop d (fpParse d s).2 = false :=
    dispatchMeetsTop_eq_false (by rwa [fpParse_outb]) d
  simp [engParseMeetsTop, fpMeetsTop_eq_false hin, hdispatch]

theorem engTransmitMeetsTop_eq_false (h : RankHeadroom 1 s.outb) (cmd : Byte) (data : List Byte) :
    engTransmitMeetsTop cmd data s = false := by
  simp [engTransmitMeetsTop, h.meetsTop_eq_false]

theorem scanMeetsTop_eq_false (h : RankHeadroom s.cfg.nSlots s.outb) : scanMeetsTop s = false := by
  refine List.any_eq_false.2 fun i hi => ?_
  have hi := List.mem_range.1 hi
  have hrest := foldl_timeoutTurn_headroom (n := 1) (acc := (false, s)) i (h.mono (by omega))
  rw [turnMeetsTop, retryMeetsTop_eq_false hrest, Bool.and_false]
  exact Bool.false_ne_true

/-- A block that exists has at least one slot (R8 f), so there is headroom for one bump. -/
theorem headroom_one (hw : s.cfg.wf = true) (h : ∀ st, RankHeadroom s.cfg.nSlots (s.store st)) (st : StoreSel) :
    RankHeadroom 1 (s.store st) := (h st).mono (wf_nSlots hw).1

end

theorem meetsTop_clearOfTop (i : Nat) (st : StoreSel) : ClearOfTop fun s => meetsTop i (s.store st) :=
  fun _ hw h => (headroom_one hw h st).meetsTop_eq_false i

theorem fpMeetsTop_clearOfTop (d : Nat) : ClearOfTop (fpMeetsTop d) :=
  fun _ hw h => fpMeetsTop_eq_false (headroom_one hw h .inb) d

theorem engParseMeetsTop_clearOfTop : ClearOfTop engParseMeetsTop :=
  fun _ hw h => engParseMeetsTop_eq_false (headroom_one hw h .inb) (headroom_one hw h .outb)

theorem engTransmitMeetsTop_clearOfTop (cmd : Byte) (data : List Byte) :
    ClearOfTop (engTransmitMeetsTop cmd data) :=
  fun _ hw h => engTransmitMeetsTop_eq_false (headroom_one hw h .outb) cmd data

theorem scanMeetsTop_clearOfTop : ClearOfTop scanMeetsTop := fun _ _ h => scanMeetsTop_eq_false (h .outb)

/-- A selector that names nothing bumps nothing. -/
theorem ClearOfTop.and_legal {top : State → Bool} (h : ClearOfTop top) (legal : Bool) :
    ClearOfTop fun s => legal && top s :=
  fun s hw hr => by simp [h s hw hr]

/-! ### The shape of an instruction -/

theorem transactIf_eq_transact (legal : Bool) (s : State) (body : State → State) :
    transactIf legal s body = transact s fun s => if legal then body s else s.illegal := rfl

/-- Every instruction is one transaction, or is one of the six that bump and is a transaction with a stop that headroom
keeps it from. -/
theorem exec_shape (i : Instr) (s : State) :
    (∃ body, exec i s = transact s body) ∨
    (i.bumps = true ∧ ∃ top body, exec i s = transactBump top s body ∧ ClearOfTop top) := by
  unfold exec
  cases i with
  | msValidate sel _ | msMarkRetx sel _ =>
    exact .inr ⟨rfl, _, _, rfl, (meetsTop_clearOfTop sel.idx.toNat sel.store).and_legal _⟩
  | fpParse d => exact .inr ⟨rfl, _, _, rfl, (fpMeetsTop_clearOfTop d.toNat).and_legal _⟩
  | engParse => exact .inr ⟨rfl, _, _, rfl, engParseMeetsTop_clearOfTop⟩
  | engTransmit cmd data => exact .inr ⟨rfl, _, _, rfl, engTransmitMeetsTop_clearOfTop cmd data⟩
  | engHandleTimeouts => exact .inr ⟨rfl, _, _, rfl, scanMeetsTop_clearOfTop⟩
  | engDeleteRx _ | engRxLen _ | engRxByte _ _ | tmrStart _ _ | tmrStop _ | tmrRestart _ | tmrTimedout _
  | tmrRead _ _ | msAppend _ _ | msDelete _ | msIncTx _ | msResetDeadline _ | msReadByte _ _ | msReadInfo _ _
  | msDiscard _ => exact .inl ⟨_, transactIf_eq_transact _ s _⟩
  | _ => exact .inl ⟨_, rfl⟩

/-- In a block that exists an instruction completes, or is one that bumps and stops at rank 255. -/
theorem exec_total {s : State} (hw : s.cfg.wf = true) (i : Instr) :
    (∃ t, exec i s = .next t) ∨ (i.bumps = true ∧ exec i s = .fault .rankSaturation) := by
  obtain ⟨body, he⟩ | ⟨hbumps, top, body, he, -⟩ := exec_shape i s
  · exact .inl ⟨_, he.trans (transact_wf hw body)⟩
  · cases htop : top s.fresh with
    | false => exact .inl ⟨_, (he.trans (transactBump_below htop body)).trans (transact_wf hw body)⟩
    | true => exact .inr ⟨hbumps, he.trans (transactBump_top hw htop body)⟩

/-- With headroom in the ranks it completes. -/
theorem exec_total_of_headroom {s : State} (hw : s.cfg.wf = true)
    (hr : ∀ st, RankHeadroom s.cfg.nSlots (s.store st)) (i : Instr) : ∃ t, exec i s = .next t := by
  obtain ⟨body, he⟩ | ⟨-, top, body, he, hclear⟩ := exec_shape i s
  · exact ⟨_, he.trans (transact_wf hw body)⟩
  · have htop : top s.fresh = false := hclear s.fresh hw fun st => by rw [State.fresh_store]; exact hr st
    exact ⟨_, (he.trans (transactBump_below htop body)).trans (transact_wf hw body)⟩

theorem exec_ill {s : State} (hw : s.cfg.wf = false) (i : Instr) : exec i s = .fault .illFormedConfiguration := by
  obtain ⟨body, he⟩ | ⟨-, top, body, he, -⟩ := exec_shape i s
  · exact he.trans (transact_ill hw body)
  · exact he.trans (transactBump_ill hw top body)

/-- Settles O16: by the shape of each instruction, and the ranks' headroom over every bump an instruction makes. -/
theorem everyOperationIsTotal : Obligations.EveryOperationIsTotal := fun i _ =>
  ⟨fun hw => exec_total hw i, fun hw hr => exec_total_of_headroom hw hr i, fun hw => exec_ill hw i⟩

end Sys2Proof.Machine
end

section
/-! PROOFS. The ranks of a store (R39): each store operation as what it does to the list of valid ranks, up to order.
From that, the ranks stay distinct over an operation, their order is kept, and dense ranks stay dense. -/

namespace Sys2Proof.Machine

/-! ### The ranks of a store, as a list -/

theorem validRanks_cons (sl : Slot) (v : Store) :
    validRanks (sl :: v) = if sl.valid then sl.rank :: validRanks v else validRanks v := by
  unfold validRanks
  rw [List.filter_cons]
  split
  · rfl
  · rfl

theorem validRanks_perm {v w : Store} (h : v.Perm w) : (validRanks v).Perm (validRanks w) :=
  (h.filter _).map _

theorem mem_validRanks {v : Store} {r : BitVec 8} : r ∈ validRanks v ↔ ∃ sl ∈ v, sl.valid = true ∧ sl.rank = r := by
  simp [validRanks, and_assoc]

theorem validRanks_eq_nil {v : Store} (h : ∀ sl ∈ v, sl.valid = false) : validRanks v = [] := by
  simpa [validRanks, List.filter_eq_nil_iff] using h

/-- A change of each slot that keeps which slots are valid changes the list of ranks rank by rank. -/
theorem validRanks_map {v : Store} {f : Slot → Slot} {g : BitVec 8 → BitVec 8}
    (hvalid : ∀ sl, (f sl).valid = sl.valid) (hrank : ∀ sl, sl.valid = true → (f sl).rank = g sl.rank) :
    validRanks (v.map f) = (validRanks v).map g := by
  induction v with
  | nil => rfl
  | cons sl v ih =>
    rw [List.map_cons, validRanks_cons, validRanks_cons, hvalid, ih]
    split
    · rw [hrank sl ‹_›, List.map_cons]
    · rfl

/-! ### A store as one slot and the others -/

theorem perm_slotAt_cons_eraseIdx {v : Store} {i : Nat} (hi : i < v.length) :
    v.Perm (slotAt v i :: v.eraseIdx i) := by
  rw [slotAt_of_lt hi]
  exact (List.getElem_cons_eraseIdx_perm hi).symm

theorem exists_slotAt_of_mem_eraseIdx {v : Store} {i : Nat} {sl : Slot} (h : sl ∈ v.eraseIdx i) :
    ∃ j, j ≠ i ∧ slotAt v j = sl := by
  obtain ⟨j, hj, hne, rfl⟩ := List.mem_eraseIdx_iff_getElem.1 h
  exact ⟨j, hne, slotAt_of_lt hj⟩

/-- A store whose slot `i` was replaced and whose other slots were each changed by `f`. -/
theorem perm_cons_map_eraseIdx {v w : Store} {i : Nat} {sl : Slot} {f : Slot → Slot} (hi : i < v.length)
    (hlen : w.length = v.length) (hself : slotAt w i = sl) (hother : ∀ j, j ≠ i → slotAt w j = f (slotAt v j)) :
    w.Perm (sl :: (v.eraseIdx i).map f) := by
  have hrest : w.eraseIdx i = (v.eraseIdx i).map f := by
    rw [← List.eraseIdx_map]
    refine List.ext_getElem? fun j => ?_
    rw [List.getElem?_eraseIdx, List.getElem?_eraseIdx]
    have hat (k : Nat) (hk : k ≠ i) : w[k]? = (v.map f)[k]? := by
      by_cases hlt : k < v.length
      · have hf := hother k hk
        rw [slotAt_of_lt hlt, slotAt_of_lt (hlen ▸ hlt)] at hf
        rw [List.getElem?_eq_getElem (hlen ▸ hlt), List.getElem?_map, List.getElem?_eq_getElem hlt, hf]
        rfl
      · rw [List.getElem?_eq_none (by omega), List.getElem?_eq_none (by simpa using hlt)]
    split
    · exact hat j (by omega)
    · exact hat (j + 1) (by omega)
  rw [← hself, ← hrest]
  exact perm_slotAt_cons_eraseIdx (hlen ▸ hi)

/-- The ranks of the valid slots other than slot `i`. -/
def otherRanks (v : Store) (i : Nat) : List (BitVec 8) := validRanks (v.eraseIdx i)

theorem mem_otherRanks {v : Store} {i : Nat} {r : BitVec 8} (h : r ∈ otherRanks v i) :
    ∃ j, j ≠ i ∧ (slotAt v j).valid = true ∧ (slotAt v j).rank = r := by
  obtain ⟨sl, hsl, hvalid, rfl⟩ := mem_validRanks.1 h
  obtain ⟨j, hj, rfl⟩ := exists_slotAt_of_mem_eraseIdx hsl
  exact ⟨j, hj, hvalid, rfl⟩

theorem validRanks_perm_of_valid {v : Store} {i : Nat} (h : (slotAt v i).valid = true) :
    (validRanks v).Perm ((slotAt v i).rank :: otherRanks v i) := by
  have hp := validRanks_perm (perm_slotAt_cons_eraseIdx (lt_of_slotAt_valid h))
  rwa [validRanks_cons, if_pos h] at hp

theorem validRanks_perm_of_free {v : Store} {i : Nat} (hi : i < v.length) (h : (slotAt v i).valid = false) :
    (validRanks v).Perm (otherRanks v i) := by
  have hp := validRanks_perm (perm_slotAt_cons_eraseIdx hi)
  rwa [validRanks_cons, if_neg (by simp [h])] at hp

/-- The ranks of the other valid slots are part of the ranks of the valid slots. -/
theorem otherRanks_sublist (v : Store) (i : Nat) : (otherRanks v i).Sublist (validRanks v) :=
  ((List.eraseIdx_sublist v i).filter _).map _

/-! ### The list of ranks after each operation -/

/-- A rank one deletion of rank `r` later (R165). -/
def lowered (r q : BitVec 8) : BitVec 8 := if r < q then q - 1#8 else q

/-- A slot one deletion of a slot of rank `r` later (R165). -/
def Slot.lowered (r : BitVec 8) (sl : Slot) : Slot :=
  if sl.valid = true ∧ r < sl.rank then { sl with rank := sl.rank - 1#8 } else sl

theorem Slot.lowered_valid (r : BitVec 8) (sl : Slot) : (sl.lowered r).valid = sl.valid := by
  unfold Slot.lowered
  split
  · rfl
  · rfl

theorem Slot.lowered_rank {r : BitVec 8} {sl : Slot} (h : sl.valid = true) :
    (sl.lowered r).rank = Machine.lowered r sl.rank := by
  unfold Slot.lowered Machine.lowered
  simp only [h, true_and]
  split
  · rfl
  · rfl

/-- After a bump that leaves its slot valid: rank 1, and every other rank one higher (R159). -/
theorem validRanks_bumpedTo {v w : Store} {i : Nat} {sl : Slot} (hi : i < v.length) (h : BumpedTo v w i sl)
    (hvalid : sl.valid = true) (hrank : sl.rank = 1#8) :
    (validRanks w).Perm (1#8 :: (otherRanks v i).map sat8Inc) := by
  obtain ⟨hlen, hself, hother⟩ := h
  have hp := validRanks_perm (perm_cons_map_eraseIdx hi hlen hself hother)
  rwa [validRanks_cons, if_pos hvalid, hrank, validRanks_map (g := sat8Inc) Slot.aged_valid
    fun sl hsl => by rw [Slot.aged_eq, if_pos hsl]] at hp

/-- After a deletion: the ranks of the others, those above the deleted one each one lower (R165). -/
theorem validRanks_deletedFrom {v w : Store} {i : Nat} (hi : i < v.length) (h : DeletedFrom v w i) :
    (validRanks w).Perm ((otherRanks v i).map (lowered (slotAt v i).rank)) := by
  obtain ⟨hlen, hself, hother⟩ := h
  have hp := validRanks_perm (perm_cons_map_eraseIdx (f := Slot.lowered (slotAt v i).rank) hi hlen hself hother)
  rwa [validRanks_cons, if_neg (by simp), validRanks_map (Slot.lowered_valid _) fun _ => Slot.lowered_rank] at hp

theorem validRanks_msClearAll (v : Store) : validRanks (msClearAll v) = [] := by
  refine validRanks_eq_nil fun sl hsl => ?_
  obtain ⟨old, -, rfl⟩ := List.mem_map.1 hsl
  rfl

theorem validRanks_replicate_reset (n : Nat) : validRanks (List.replicate n Slot.reset) = [] :=
  validRanks_eq_nil fun sl hsl => by rw [List.eq_of_mem_replicate hsl, Slot.reset_valid]

/-! ### Ranks one bump or one deletion later -/

/-- Short of saturation a bump keeps the order of two ranks (R159). -/
theorem sat8Inc_lt_iff {q r : BitVec 8} (hq : q ≠ 255#8) (hr : r ≠ 255#8) : sat8Inc q < sat8Inc r ↔ q < r := by
  unfold sat8Inc
  rw [if_neg hq, if_neg hr]
  bv_omega

/-- A deletion keeps the order of two ranks other than the deleted one (R165). -/
theorem lowered_lt_iff {d q r : BitVec 8} (hq : q ≠ d) (hr : r ≠ d) : lowered d q < lowered d r ↔ q < r := by
  unfold lowered
  split <;> split <;> bv_omega

theorem sat8Inc_inj {q r : BitVec 8} (hq : q ≠ 255#8) (hr : r ≠ 255#8) (h : sat8Inc q = sat8Inc r) : q = r := by
  have hlt := sat8Inc_lt_iff hq hr
  have hgt := sat8Inc_lt_iff hr hq
  rw [h] at hlt hgt
  bv_omega

theorem lowered_inj {d q r : BitVec 8} (hq : q ≠ d) (hr : r ≠ d) (h : lowered d q = lowered d r) : q = r := by
  have hlt := lowered_lt_iff hq hr
  have hgt := lowered_lt_iff hr hq
  rw [h] at hlt hgt
  bv_omega

/-- No rank but 0 becomes 1 by a bump. -/
theorem sat8Inc_ne_one {r : BitVec 8} (h : r ≠ 0#8) : sat8Inc r ≠ 1#8 := by
  unfold sat8Inc
  split
  · decide
  · bv_omega

/-- Exactly the valid slots of the store have a rank other than 0 (R39 a). -/
def ValidIffRanked (v : Store) : Prop := ∀ sl ∈ v, sl.valid = true ↔ sl.rank ≠ 0#8

theorem Store.Inv.validIffRanked {cfg : Config} {v : Store} (h : Store.Inv cfg v) : ValidIffRanked v :=
  fun sl hsl => by
    obtain ⟨-, -, -, hrank, -⟩ := h.2 sl hsl
    exact hrank

theorem ValidIffRanked.slotAt_ne_zero {v : Store} (h : ValidIffRanked v) {j : Nat}
    (hvalid : (slotAt v j).valid = true) : (slotAt v j).rank ≠ 0#8 :=
  (h _ (slotAt_mem (lt_of_slotAt_valid hvalid))).1 hvalid

theorem ValidIffRanked.otherRanks_ne_zero {v : Store} (h : ValidIffRanked v) {i : Nat} {r : BitVec 8}
    (hr : r ∈ otherRanks v i) : r ≠ 0#8 := by
  obtain ⟨j, -, hvalid, rfl⟩ := mem_otherRanks hr
  exact h.slotAt_ne_zero hvalid

/-- After a bump in a store that ranks exactly its valid slots no other slot has rank 1. -/
theorem ValidIffRanked.one_not_mem_bumped {v : Store} (h : ValidIffRanked v) (i : Nat) :
    1#8 ∉ (otherRanks v i).map sat8Inc := by
  intro hmem
  obtain ⟨r, hr, hone⟩ := List.mem_map.1 hmem
  exact sat8Inc_ne_one (h.otherRanks_ne_zero hr) hone

/-! ### Distinct ranks (R39 b) -/

theorem RanksDistinct.of_validRanks_eq {v w : Store} (h : RanksDistinct v) (he : validRanks w = validRanks v) :
    RanksDistinct w := by
  rw [RanksDistinct, he]
  exact h

/-- A bump that meets no rank 255 keeps the ranks distinct (R159, R173). -/
theorem RanksDistinct.bumpedTo {v w : Store} {i : Nat} {sl : Slot} (h : RanksDistinct v) (hz : ValidIffRanked v)
    (htop : ¬ BumpMeetsTop i v) (hi : i < v.length) (hb : BumpedTo v w i sl) (hvalid : sl.valid = true)
    (hrank : sl.rank = 1#8) : RanksDistinct w := by
  have hbelow (r : BitVec 8) (hr : r ∈ otherRanks v i) : r ≠ 255#8 := by
    obtain ⟨j, hj, hjv, rfl⟩ := mem_otherRanks hr
    exact fun h255 => htop ⟨j, hj, hjv, h255⟩
  rw [RanksDistinct, (validRanks_bumpedTo hi hb hvalid hrank).nodup_iff, List.nodup_cons]
  exact ⟨hz.one_not_mem_bumped i, (h.sublist (otherRanks_sublist v i)).map_on
    fun q hq r hr he => sat8Inc_inj (hbelow q hq) (hbelow r hr) he⟩

/-- A deletion keeps the ranks distinct (R165). -/
theorem RanksDistinct.msDelete {v : Store} (h : RanksDistinct v) (i : Nat) : RanksDistinct (msDelete i v) := by
  cases hvalid : (slotAt v i).valid with
  | false => rwa [msDelete_free hvalid]
  | true =>
    rw [RanksDistinct, (validRanks_perm_of_valid hvalid).nodup_iff, List.nodup_cons] at h
    obtain ⟨hnew, hothers⟩ := h
    rw [RanksDistinct, (validRanks_deletedFrom (lt_of_slotAt_valid hvalid) (msDelete_deletedFrom hvalid)).nodup_iff]
    exact hothers.map_on fun q hq r hr he =>
      lowered_inj (ne_of_mem_of_not_mem hq hnew) (ne_of_mem_of_not_mem hr hnew) he

theorem RanksDistinct.msClearAll (v : Store) : RanksDistinct (msClearAll v) := by
  rw [RanksDistinct, validRanks_msClearAll]
  exact List.nodup_nil

/-! ### The newest slot and the order of the others (R39 c) -/

/-- After a bump exactly one valid slot has rank 1. -/
theorem count_one_bumpedTo {v w : Store} {i : Nat} {sl : Slot} (hz : ValidIffRanked v) (hi : i < v.length)
    (hb : BumpedTo v w i sl) (hvalid : sl.valid = true) (hrank : sl.rank = 1#8) :
    (validRanks w).count 1#8 = 1 := by
  rw [(validRanks_bumpedTo hi hb hvalid hrank).count_eq, List.count_cons_self,
    List.count_eq_zero.2 (hz.one_not_mem_bumped i)]

theorem slotAt_bump_rank {v : Store} {i j : Nat} (hj : j ≠ i) (hvalid : (slotAt v j).valid = true) :
    (slotAt (bump i v) j).rank = sat8Inc (slotAt v j).rank := by
  rw [slotAt_bump_other hj, Slot.aged_eq, if_pos hvalid]

theorem slotAt_msDelete_rank {v : Store} {i j : Nat} (hi : (slotAt v i).valid = true) (hj : j ≠ i)
    (hvalid : (slotAt v j).valid = true) :
    (slotAt (msDelete i v) j).rank = lowered (slotAt v i).rank (slotAt v j).rank := by
  obtain ⟨-, -, hother⟩ := msDelete_deletedFrom hi
  rw [hother j hj]
  exact Slot.lowered_rank hvalid

/-- Settles O40: by the list of ranks after a bump, and the order of two ranks one bump or deletion later. -/
theorem rankOrderIsKept : Obligations.RankOrderIsKept := by
  intro v i j k now d hi hz
  refine ⟨count_one_bumpedTo hz hi (msValidate_bumpedTo hi now d) rfl rfl,
    count_one_bumpedTo hz hi (msMarkRetx_bumpedTo hi now d) rfl rfl, fun hj hk hjv hkv => ⟨fun hj255 hk255 => ?_,
    fun hjd hkd => ?_⟩⟩
  · rw [slotAt_bump_rank hj hjv, slotAt_bump_rank hk hkv]
    exact sat8Inc_lt_iff hj255 hk255
  · cases hiv : (slotAt v i).valid with
    | false => rw [msDelete_free hiv]
    | true =>
      rw [slotAt_msDelete_rank hiv hj hjv, slotAt_msDelete_rank hiv hk hkv]
      exact lowered_lt_iff hjd hkd

/-! ### Dense ranks (R39 d) -/

/-- The ranks are exactly 1 to their number. -/
def DenseList (l : List (BitVec 8)) : Prop := (l.map (·.toNat)).Perm (List.range' 1 l.length)

theorem ranksDense_iff {v : Store} : RanksDense v ↔ DenseList (validRanks v) := Iff.rfl

theorem denseList_congr {l m : List (BitVec 8)} (h : l.Perm m) : DenseList l ↔ DenseList m := by
  rw [DenseList, DenseList, (h.map _).congr_left, h.length_eq]

theorem DenseList.mem_bounds {l : List (BitVec 8)} (h : DenseList l) {q : BitVec 8} (hq : q ∈ l) :
    1 ≤ q.toNat ∧ q.toNat ≤ l.length := by
  have hmem := h.mem_iff.1 (List.mem_map_of_mem hq)
  rw [List.mem_range'_1] at hmem
  omega

/-- A bump short of saturation leaves room for the new rank 1. -/
theorem DenseList.bump {l : List (BitVec 8)} (h : DenseList l) (hl : l.length < 255) :
    DenseList (1#8 :: l.map sat8Inc) := by
  have hsucc : (l.map sat8Inc).map (·.toNat) = (l.map (·.toNat)).map (· + 1) := by
    rw [List.map_map, List.map_map]
    refine List.map_congr_left fun q hq => ?_
    have hb := h.mem_bounds hq
    show (sat8Inc q).toNat = q.toNat + 1
    rw [sat8Inc_eq_satSucc, toNat_satSucc]
    omega
  have hshift : (List.range' 1 l.length).map (· + 1) = List.range' 2 l.length := by
    simpa [Nat.add_comm] using List.map_add_range' (a := 1) 1 l.length 1
  rw [DenseList, List.map_cons, hsucc, List.length_cons, List.length_map, List.range'_succ]
  exact ((h.map _).trans (.of_eq hshift)).cons 1

theorem toNat_lowered (r q : BitVec 8) :
    (lowered r q).toNat = if r.toNat < q.toNat then q.toNat - 1 else q.toNat := by
  unfold lowered
  split <;> split <;> bv_omega

/-- The ranks below a rank `r` and the ranks above it, these each one lower, are dense without `r`. -/
theorem range'_lowered (a b : Nat) :
    (List.range' 1 a ++ List.range' (a + 2) b).map (fun q => if a + 1 < q then q - 1 else q) =
      List.range' 1 (a + b) := by
  have hlow : (List.range' 1 a).map (fun q => if a + 1 < q then q - 1 else q) = List.range' 1 a := by
    refine (List.map_congr_left fun q hq => ?_).trans (List.map_id _)
    rw [List.mem_range'_1] at hq
    rw [if_neg (by omega), id]
  have hhigh : (List.range' (a + 2) b).map (fun q => if a + 1 < q then q - 1 else q) = List.range' (a + 1) b := by
    refine (List.map_congr_left (g := (· - 1)) fun q hq => ?_).trans ?_
    · rw [List.mem_range'_1] at hq
      rw [if_pos (by omega)]
    · exact List.map_sub_range' (a := 1) (s := a + 2) (by omega) b
  rw [List.map_append, hlow, hhigh, Nat.add_comm a 1, List.range'_append_1]

/-- Taking a rank out and lowering those above it closes the hole. -/
theorem DenseList.delete {r : BitVec 8} {l : List (BitVec 8)} (h : DenseList (r :: l)) :
    DenseList (l.map (lowered r)) := by
  obtain ⟨hpos, hle⟩ := h.mem_bounds List.mem_cons_self
  rw [List.length_cons] at hle
  obtain ⟨a, ha⟩ : ∃ a, r.toNat = a + 1 := ⟨r.toNat - 1, by omega⟩
  obtain ⟨b, hb⟩ : ∃ b, l.length = a + b := ⟨l.length - a, by omega⟩
  have hsplit : List.range' 1 (l.length + 1) = List.range' 1 a ++ (a + 1) :: List.range' (a + 2) b := by
    rw [hb, Nat.add_assoc, ← List.range'_append_1, Nat.add_comm 1 a, List.range'_succ]
  have hothers : (l.map (·.toNat)).Perm (List.range' 1 a ++ List.range' (a + 2) b) := by
    rw [DenseList, List.map_cons, List.length_cons, hsplit, ha] at h
    exact (h.trans List.perm_middle).cons_inv
  have hlower : (l.map (lowered r)).map (·.toNat) =
      (l.map (·.toNat)).map fun q => if a + 1 < q then q - 1 else q := by
    rw [List.map_map, List.map_map]
    refine List.map_congr_left fun q _ => ?_
    show (lowered r q).toNat = _
    rw [toNat_lowered, ha]
    rfl
  rw [DenseList, hlower, List.length_map, hb, ← range'_lowered]
  exact hothers.map _

/-- Taking the highest rank out leaves dense ranks. -/
theorem DenseList.of_cons_max {r : BitVec 8} {l : List (BitVec 8)} (h : DenseList (r :: l))
    (hmax : ∀ q ∈ l, ¬ r < q) : DenseList l := by
  have hid : l.map (lowered r) = l := (List.map_congr_left fun q hq => if_neg (hmax q hq)).trans (List.map_id l)
  rw [← hid]
  exact h.delete

/-- A bump keeps dense ranks dense when the ranks of the other slots are. -/
theorem RanksDense.bumpedTo {v w : Store} {i : Nat} {sl : Slot} (hl : v.length ≤ 127)
    (h : DenseList (otherRanks v i)) (hi : i < v.length) (hb : BumpedTo v w i sl) (hvalid : sl.valid = true)
    (hrank : sl.rank = 1#8) : RanksDense w := by
  have hlen : (otherRanks v i).length ≤ v.length := calc
    _ ≤ (validRanks v).length := (otherRanks_sublist v i).length_le
    _ ≤ v.length := by rw [validRanks, List.length_map]; exact List.length_filter_le _ v
  rw [ranksDense_iff, denseList_congr (validRanks_bumpedTo hi hb hvalid hrank)]
  exact h.bump (by omega)

theorem RanksDense.msDelete {v : Store} (h : RanksDense v) {i : Nat} (hvalid : (slotAt v i).valid = true) :
    RanksDense (msDelete i v) := by
  rw [ranksDense_iff, denseList_congr (validRanks_perm_of_valid hvalid)] at h
  rw [ranksDense_iff,
    denseList_congr (validRanks_deletedFrom (lt_of_slotAt_valid hvalid) (msDelete_deletedFrom hvalid))]
  exact h.delete

theorem RanksDense.otherRanks_free {v : Store} (h : RanksDense v) {i : Nat} (hi : i < v.length)
    (hfree : (slotAt v i).valid = false) : DenseList (otherRanks v i) :=
  (denseList_congr (validRanks_perm_of_free hi hfree)).1 h

theorem RanksDense.otherRanks_oldest {v : Store} (h : RanksDense v) {i : Nat} (ho : IsOldest v i) :
    DenseList (otherRanks v i) := by
  obtain ⟨hvalid, hmax⟩ := isOldest_iff_beats.1 ho
  refine ((denseList_congr (validRanks_perm_of_valid hvalid)).1 h).of_cons_max fun q hq => ?_
  obtain ⟨j, -, hjv, rfl⟩ := mem_otherRanks hq
  exact (hmax j hjv).1

/-- Settles O41: the other slots' ranks are dense without a free or the oldest slot's, and a bump leaves room for 1. -/
theorem denseRanksStayDense : Obligations.DenseRanksStayDense := by
  intro v i now d hl h
  refine ⟨h.msDelete, fun hi hfree => ?_, fun ho => ?_⟩
  · exact RanksDense.bumpedTo hl (h.otherRanks_free hi hfree) hi (msValidate_bumpedTo hi now d) rfl rfl
  · have hi := lt_of_slotAt_valid ho.1
    exact RanksDense.bumpedTo hl (h.otherRanks_oldest ho) hi (msMarkRetx_bumpedTo hi now d) rfl rfl

end Sys2Proof.Machine
end

section
/-! PROOFS. What the engine's operations leave alone, and the sticky flags (R26, R41, R42, R44): which instructions
change the overflow latch, the "too many" flag and the reception-enable level. -/

namespace Sys2Proof.Machine

/-! ### What the engine leaves alone -/

/-- What stays the same over a retry or a confirmation: all but the outbound store and the trace. -/
def OutboundFrame (s t : State) : Prop := t = { s with outb := t.outb, trace := t.trace }

theorem OutboundFrame.trans {s t u : State} (h : OutboundFrame s t) (h' : OutboundFrame t u) : OutboundFrame s u := by
  unfold OutboundFrame at *
  rw [h', h]

theorem OutboundFrame.inb_eq {s t : State} (h : OutboundFrame s t) : t.inb = s.inb := by
  rw [h]

/-- What stays the same over the dispatch on a clean frame: all but the two stores and the trace. -/
def EngineFrame (s t : State) : Prop := t = { s with inb := t.inb, outb := t.outb, trace := t.trace }

theorem EngineFrame.of_outbound {s t : State} (h : OutboundFrame s t) : EngineFrame s t := by
  unfold OutboundFrame at h
  unfold EngineFrame
  rw [h]

theorem EngineFrame.trans {s t u : State} (h : EngineFrame s t) (h' : EngineFrame t u) : EngineFrame s u := by
  unfold EngineFrame at *
  rw [h', h]

theorem retrySlot_frame (i : Nat) (s : State) : OutboundFrame s (retrySlot i s).2 := by
  unfold retrySlot
  split
  · rfl
  · rfl

theorem confirmOldest_frame (s : State) : OutboundFrame s (confirmOldest s) := by
  unfold confirmOldest
  split
  · rfl
  · rfl

theorem retryOldest_frame (s : State) : OutboundFrame s (retryOldest s).2 := by
  unfold retryOldest
  split
  · rfl
  · exact retrySlot_frame _ s

theorem freeInbound_frame (d : Nat) (s : State) : EngineFrame s (freeInbound d s) := rfl

theorem engDispatch_frame (d : Nat) (s : State) : EngineFrame s (engDispatch d s).2 := by
  unfold engDispatch
  split
  · exact (freeInbound_frame d s).trans (.of_outbound (confirmOldest_frame _))
  · split
    · exact (freeInbound_frame d s).trans (.of_outbound (retryOldest_frame _))
    · rfl

theorem engSend_frame (cmd : Byte) (data : List Byte) (o : Nat) (s : State) :
    OutboundFrame s (engSend cmd data o s).2 := by
  unfold engSend
  dsimp only
  split
  · rfl
  · rfl

theorem engTransmit_frame (cmd : Byte) (data : List Byte) (s : State) :
    OutboundFrame s (engTransmit cmd data s).2 := by
  unfold engTransmit
  split
  · rfl
  · split
    · split
      · rfl
      · exact engSend_frame cmd data _ s
    · rfl

theorem timeoutTurn_frame (acc : Bool × State) (i : Nat) : OutboundFrame acc.2 (timeoutTurn acc i).2 := by
  unfold timeoutTurn
  split
  · exact retrySlot_frame i acc.2
  · rfl

theorem foldl_timeoutTurn_frame (is : List Nat) (acc : Bool × State) :
    OutboundFrame acc.2 (is.foldl timeoutTurn acc).2 := by
  induction is generalizing acc with
  | nil => rfl
  | cons i is ih => exact (timeoutTurn_frame acc i).trans (ih (timeoutTurn acc i))

theorem handleTimeouts_frame (s : State) : OutboundFrame s (handleTimeouts s).2 :=
  foldl_timeoutTurn_frame _ (false, s)

/-! ### Operations that leave the three flags alone -/

/-- The overflow latch, the "too many" flag and the reception-enable level are as they were. -/
def SameFlags (s t : State) : Prop := t.rxb.ovf = s.rxb.ovf ∧ t.nak.many = s.nak.many ∧ t.eng = s.eng

theorem SameFlags.trans {s t u : State} (h : SameFlags s t) (h' : SameFlags t u) : SameFlags s u := by
  obtain ⟨hovf, hmany, heng⟩ := h
  obtain ⟨hovf', hmany', heng'⟩ := h'
  exact ⟨hovf'.trans hovf, hmany'.trans hmany, heng'.trans heng⟩

theorem EngineFrame.sameFlags {s t : State} (h : EngineFrame s t) : SameFlags s t := by
  rw [h]
  exact ⟨rfl, rfl, rfl⟩

theorem OutboundFrame.sameFlags {s t : State} (h : OutboundFrame s t) : SameFlags s t :=
  (EngineFrame.of_outbound h).sameFlags

theorem State.ok_sameFlags (s : State) (v : U32) : SameFlags s (s.ok v) := ⟨rfl, rfl, rfl⟩

theorem State.okUnit_sameFlags (s : State) (b : Bool) : SameFlags s (s.okUnit b) := by simp [SameFlags]

theorem State.okByte_sameFlags (s : State) (o : Option Byte) : SameFlags s (s.okByte o) := by simp [SameFlags]

theorem State.okIndex_sameFlags (s : State) (o : Option Nat) : SameFlags s (s.okIndex o) := by simp [SameFlags]

theorem State.setStore_sameFlags (s : State) (st : StoreSel) (v : Store) : SameFlags s (s.setStore st v) := by
  simp [SameFlags]

theorem State.mapSlot_sameFlags (s : State) (sel : SSel) (f : Slot → Slot) : SameFlags s (s.mapSlot sel f) :=
  s.setStore_sameFlags _ _

theorem State.mapTimer_sameFlags (s : State) (t : TSel) (f : Timer → Timer) : SameFlags s (s.mapTimer t f) := by
  cases t with
  | itmr => exact ⟨rfl, rfl, rfl⟩
  | slot sel => exact s.mapSlot_sameFlags sel _

/-! ### Operations that change a flag -/

/-- A push sets the overflow latch exactly on a full ring (R115). -/
theorem rxbPush_ovf (cap : Nat) (b : Byte) (r : RxBuffer) :
    (rxbPush cap b r).2.ovf = true ↔ r.cnt = cap ∨ r.ovf = true := by
  by_cases h : r.cnt = cap
  · simp [rxbPush_full h, h]
  · simp [rxbPush_room h, h]

theorem fpFrame_ovf (d : Nat) (s : State) : (fpFrame d s).2.rxb.ovf = s.rxb.ovf := by
  unfold fpFrame
  split
  · split
    · rfl
    · unfold fpTake
      split
      · exact rxbPopN_ovf _ _ _
      · exact rxbPop_ovf _ _
  · exact rxbPop_ovf _ _

/-- The parser never sets the overflow latch: it clears it with the ring, or leaves it (R193, R195). -/
theorem fpParse_ovf {s : State} (d : Nat) (h : s.rxb.ovf = false) : (fpParse d s).2.rxb.ovf = false := by
  unfold fpParse
  rw [h, if_neg Bool.false_ne_true]
  split
  · rwa [fpArm_rxb]
  · unfold fpPending
    split
    · rfl
    · split
      · rwa [fpArm_rxb]
      · rwa [fpFrame_ovf, fpArm_rxb]

theorem fpParse_many (d : Nat) (s : State) : (fpParse d s).2.nak.many = s.nak.many := by
  rw [fpParse_frame_eq d s]

theorem fpParse_eng (d : Nat) (s : State) : (fpParse d s).2.eng = s.eng := by
  rw [fpParse_frame_eq d s]

/-- What a request for a NAK, or the engine after the parser, may do to the flags: set "too many" (R220). -/
def OnlySetsMany (s t : State) : Prop :=
  t.rxb.ovf = s.rxb.ovf ∧ (s.nak.many = true → t.nak.many = true) ∧ t.eng = s.eng

theorem SameFlags.onlySetsMany {s t : State} (h : SameFlags s t) : OnlySetsMany s t := by
  obtain ⟨hovf, hmany, heng⟩ := h
  exact ⟨hovf, fun hs => hmany.trans hs, heng⟩

theorem nakRequest_onlySetsMany (s : State) : OnlySetsMany s (nakRequest s) := by
  unfold nakRequest
  split
  · exact ⟨rfl, fun _ => rfl, rfl⟩
  · exact ⟨rfl, id, rfl⟩

theorem engAfterParse_onlySetsMany (d : Nat) (r : ParserOutcome) (s : State) :
    OnlySetsMany s (engAfterParse d r s).2 := by
  cases r with
  | tooFew | byteDropped | timeout => exact ⟨rfl, id, rfl⟩
  | reqNak => exact nakRequest_onlySetsMany s
  | ok =>
    have hreset : SameFlags s (nakResetCounter s) := ⟨rfl, rfl, rfl⟩
    exact (hreset.trans (engDispatch_frame d _).sameFlags).onlySetsMany

/-- `eng_parse` may clear the overflow latch and set "too many", and nothing else of the three flags. -/
theorem engParse_flags (s : State) :
    (s.rxb.ovf = false → (engParse s).2.rxb.ovf = false) ∧
    (s.nak.many = true → (engParse s).2.nak.many = true) ∧ (engParse s).2.eng = s.eng := by
  unfold engParse
  split
  · exact ⟨id, id, rfl⟩
  · rename_i d _
    obtain ⟨hovf, hmany, heng⟩ := engAfterParse_onlySetsMany d (fpParse d s).1 (fpParse d s).2
    exact ⟨fun h => hovf.trans (fpParse_ovf d h), fun h => hmany ((fpParse_many d s).trans h),
      heng.trans (fpParse_eng d s)⟩

theorem rxRestart_sameFlags (s : State) : SameFlags s (rxRestart s) := by
  unfold rxRestart
  split
  · exact ⟨rfl, rfl, rfl⟩
  · exact ⟨rfl, rfl, rfl⟩

/-! ### Transactions and instructions -/

/-- The instruction changes the three flags at most as R44 lists. -/
def FlagChangesListed (i : Instr) (s t : State) : Prop :=
  (s.rxb.ovf = true → t.rxb.ovf = false →
    i = .rxbClear ∨ i = .fpReset ∨ i = .engParse ∨ i = .engResetAll ∨ ∃ d, i = .fpParse d) ∧
  (s.rxb.ovf = false → t.rxb.ovf = true →
    s.rxb.cnt = s.cfg.ringCap ∧ ∃ b, i = .rxbPush b ∨ i = .rxByte b) ∧
  (s.nak.many = true → t.nak.many = false → i = .nakResetState ∨ i = .engResetAll) ∧
  (s.nak.many = false → t.nak.many = true → i = .nakRequest ∨ i = .engParse) ∧
  (t.eng ≠ s.eng → i = .engResetAll)

section
variable {s t : State} {i : Instr} {b : Byte}

theorem absurd_flag {x : Bool} {p : Prop} (hset : x = true) (hclear : x = false) : p := by
  rw [hset] at hclear
  cases hclear

theorem SameFlags.listed (h : SameFlags s t) : FlagChangesListed i s t := by
  obtain ⟨hovf, hmany, heng⟩ := h
  exact ⟨fun hs ht => absurd_flag (hovf.trans hs) ht, fun hs ht => absurd_flag ht (hovf.trans hs),
    fun hs ht => absurd_flag (hmany.trans hs) ht, fun hs ht => absurd_flag ht (hmany.trans hs),
    fun ht => absurd heng ht⟩

/-- A command of the parser or the ring that may clear the overflow latch and leaves the other flags alone. -/
theorem FlagChangesListed.of_clears (hi : i = .rxbClear ∨ i = .fpReset ∨ ∃ d, i = .fpParse d)
    (hovf : s.rxb.ovf = false → t.rxb.ovf = false) (hmany : t.nak.many = s.nak.many) (heng : t.eng = s.eng) :
    FlagChangesListed i s t :=
  ⟨fun _ _ => hi.imp_right (Or.imp_right fun hd => .inr (.inr hd)), fun hs ht => absurd_flag ht (hovf hs),
    fun hs ht => absurd_flag (hmany.trans hs) ht, fun hs ht => absurd_flag ht (hmany.trans hs),
    fun ht => absurd heng ht⟩

/-- A push, by command or as a received byte. -/
theorem FlagChangesListed.of_push (hi : ∃ b, i = .rxbPush b ∨ i = .rxByte b)
    (hrxb : t.rxb = (rxbPush s.cfg.ringCap b s.rxb).2) (hmany : t.nak.many = s.nak.many) (heng : t.eng = s.eng) :
    FlagChangesListed i s t := by
  have hovf := rxbPush_ovf s.cfg.ringCap b s.rxb
  rw [← hrxb] at hovf
  refine ⟨fun hs ht => absurd_flag (hovf.2 (.inr hs)) ht, fun hs ht => ⟨?_, hi⟩,
    fun hs ht => absurd_flag (hmany.trans hs) ht, fun hs ht => absurd_flag ht (hmany.trans hs),
    fun ht => absurd heng ht⟩
  exact (hovf.1 ht).resolve_right (by simp [hs])

theorem OnlySetsMany.listed_nakRequest (h : OnlySetsMany s t) : FlagChangesListed .nakRequest s t := by
  obtain ⟨hovf, hmany, heng⟩ := h
  exact ⟨fun hs ht => absurd_flag (hovf.trans hs) ht, fun hs ht => absurd_flag ht (hovf.trans hs),
    fun hs ht => absurd_flag (hmany hs) ht, fun _ _ => .inl rfl, fun ht => absurd heng ht⟩

theorem nakResetState_listed (s : State) (v : U32) : FlagChangesListed .nakResetState s ((nakResetState s).ok v) :=
  ⟨fun hs ht => absurd_flag hs ht, fun hs ht => absurd_flag ht hs, fun _ _ => .inl rfl,
    fun _ ht => absurd_flag ht rfl, fun ht => absurd rfl ht⟩

theorem engParse_listed (s : State) (v : U32) : FlagChangesListed .engParse s ((engParse s).2.ok v) := by
  obtain ⟨hovf, hmany, heng⟩ := engParse_flags s
  exact ⟨fun _ _ => .inr (.inr (.inl rfl)), fun hs ht => absurd_flag ht (hovf hs),
    fun hs ht => absurd_flag (hmany hs) ht, fun _ _ => .inr rfl, fun ht => absurd heng ht⟩

theorem resetAll_listed (s : State) (v : U32) : FlagChangesListed .engResetAll s ((resetAll s).ok v) := by
  rw [resetAll_eq]
  exact ⟨fun _ _ => .inr (.inr (.inr (.inl rfl))), fun _ ht => absurd_flag ht rfl, fun _ _ => .inr rfl,
    fun _ ht => absurd_flag ht rfl, fun _ => rfl⟩

variable {legal : Bool} {top : State → Bool} {body : State → State}

theorem transact_sameFlags (h : transact s body = .next t) (hb : ∀ u, SameFlags u (body u)) :
    FlagChangesListed i s t := by
  obtain ⟨-, rfl⟩ := transact_next h
  exact SameFlags.listed (hb s.fresh)

theorem transactIf_sameFlags (h : transactIf legal s body = .next t) (hb : ∀ u, SameFlags u (body u)) :
    FlagChangesListed i s t := by
  obtain ⟨-, ⟨-, rfl⟩ | ⟨-, rfl⟩⟩ := transactIf_next h
  · exact SameFlags.listed (hb s.fresh)
  · exact SameFlags.listed ⟨rfl, rfl, rfl⟩

theorem transactBump_sameFlags (h : transactBump top s body = .next t) (hb : ∀ u, SameFlags u (body u)) :
    FlagChangesListed i s t := by
  obtain ⟨-, -, rfl⟩ := transactBump_next h
  exact SameFlags.listed (hb s.fresh)

theorem transactBumpIf_listed (h : transactBumpIf legal top s body = .next t)
    (hb : FlagChangesListed i s (body s.fresh)) : FlagChangesListed i s t := by
  obtain ⟨-, ⟨-, -, rfl⟩ | ⟨-, rfl⟩⟩ := transactBumpIf_next h
  · exact hb
  · exact SameFlags.listed ⟨rfl, rfl, rfl⟩

theorem exec_flagChangesListed (h : exec i s = .next t) : FlagChangesListed i s t := by
  unfold exec at h
  cases i with
  -- the operations that only answer a value (R70)
  | engCountTimeouts | rxbCount | rxbOvf | cksCompute _ | cksVerify _ | msCountTimedout _ | msOldestTimedout _
  | fpRead | nakRead _ => exact transact_sameFlags h fun u => u.ok_sameFlags _
  | tmrTimedout _ | tmrRead _ _ | msReadInfo _ _ | engRxLen _ =>
    exact transactIf_sameFlags h fun u => u.ok_sameFlags _
  | engGetNewestRx | msGetFree _ | msGetOldest _ | msGetNewest _ =>
    exact transact_sameFlags h fun u => u.okIndex_sameFlags _
  | rxbPeek _ => exact transact_sameFlags h fun u => u.okByte_sameFlags _
  | engRxByte _ _ | msReadByte _ _ => exact transactIf_sameFlags h fun u => u.okByte_sameFlags _
  -- the timers and the slot stores
  | tmrStart tsel _ | tmrStop tsel | tmrRestart tsel =>
    exact transactIf_sameFlags h fun u => (u.mapTimer_sameFlags tsel _).trans (State.ok_sameFlags _ _)
  | msAppend sel _ =>
    exact transactIf_sameFlags h fun u => (u.mapSlot_sameFlags sel _).trans (State.okUnit_sameFlags _ _)
  | msDiscard sel | msIncTx sel | msResetDeadline sel =>
    exact transactIf_sameFlags h fun u => (u.mapSlot_sameFlags sel _).trans (State.ok_sameFlags _ _)
  | msDelete sel => exact transactIf_sameFlags h fun u => (u.setStore_sameFlags _ _).trans (State.ok_sameFlags _ _)
  | msClearAll st => exact transact_sameFlags h fun u => (u.setStore_sameFlags _ _).trans (State.ok_sameFlags _ _)
  | engDeleteRx j => exact transactIf_sameFlags h fun _ => ⟨rfl, rfl, rfl⟩
  | msValidate sel _ | msMarkRetx sel _ =>
    exact transactBumpIf_listed h
      (SameFlags.listed ((s.fresh.setStore_sameFlags sel.store _).trans (State.ok_sameFlags _ _)))
  -- the engine's sending half and the guard's counter
  | engTransmit cmd data =>
    exact transactBump_sameFlags h fun u => (engTransmit_frame cmd data u).sameFlags.trans (State.okUnit_sameFlags _ _)
  | engHandleTimeouts =>
    exact transactBump_sameFlags h fun u => (handleTimeouts_frame u).sameFlags.trans (State.ok_sameFlags _ _)
  | nakResetCounter => exact transact_sameFlags h fun _ => ⟨rfl, rfl, rfl⟩
  -- the ring
  | rxbPop => exact transact_sameFlags h fun _ => ⟨by simp, by simp, by simp⟩
  | rxbPush b =>
    obtain ⟨-, rfl⟩ := transact_next h
    exact FlagChangesListed.of_push (b := b) ⟨b, .inl rfl⟩ (by simp) (by simp) (by simp)
  | rxByte b =>
    obtain ⟨-, rfl⟩ := transact_next h
    obtain ⟨-, hmany, heng⟩ := rxRestart_sameFlags s.fresh
    exact FlagChangesListed.of_push (b := b) ⟨b, .inr rfl⟩ rfl hmany heng
  | rxbClear =>
    obtain ⟨-, rfl⟩ := transact_next h
    exact FlagChangesListed.of_clears (.inl rfl) (fun _ => rfl) rfl rfl
  -- the parser
  | fpReset =>
    obtain ⟨-, rfl⟩ := transact_next h
    exact FlagChangesListed.of_clears (.inr (.inl rfl)) (fun _ => rfl) rfl rfl
  | fpParse d =>
    exact transactBumpIf_listed h (FlagChangesListed.of_clears (.inr (.inr ⟨d, rfl⟩))
      (fpParse_ovf (s := s.fresh) d.toNat) (fpParse_many d.toNat s.fresh) (fpParse_eng d.toNat s.fresh))
  -- the guard and the engine
  | nakRequest =>
    obtain ⟨-, rfl⟩ := transact_next h
    exact OnlySetsMany.listed_nakRequest (nakRequest_onlySetsMany s.fresh)
  | nakResetState =>
    obtain ⟨-, rfl⟩ := transact_next h
    exact nakResetState_listed s.fresh _
  | engParse =>
    obtain ⟨-, -, rfl⟩ := transactBump_next h
    exact engParse_listed s.fresh _
  | engResetAll =>
    obtain ⟨-, rfl⟩ := transact_next h
    exact resetAll_listed s.fresh _

end

/-- Settles O20: by what each instruction may do to the three flags. -/
theorem stickyFlagsChangeOnlyWhereListed : Obligations.StickyFlagsChangeOnlyWhereListed :=
  fun _ _ _ h => exec_flagChangesListed h

end Sys2Proof.Machine
end

section
/-! PROOFS. Every step keeps the ranks of valid slots distinct (R39 b, R173): an operation that does not stop bumps only
where no other valid slot is at rank 255. -/

namespace Sys2Proof.Machine

/-! ### Changes of a slot that keep its rank -/

/-- The change of a slot keeps whether it is valid, and its rank. -/
def KeepsRank (f : Slot → Slot) : Prop := ∀ sl, (f sl).valid = sl.valid ∧ (f sl).rank = sl.rank

theorem keepsRank_id : KeepsRank id := fun _ => ⟨rfl, rfl⟩

theorem KeepsRank.comp {f g : Slot → Slot} (hf : KeepsRank f) (hg : KeepsRank g) : KeepsRank fun sl => f (g sl) :=
  fun sl => by
    obtain ⟨hfv, hfr⟩ := hf (g sl)
    obtain ⟨hgv, hgr⟩ := hg sl
    exact ⟨hfv.trans hgv, hfr.trans hgr⟩

theorem msDiscard_keepsRank : KeepsRank msDiscard := fun _ => ⟨rfl, rfl⟩

theorem msIncTx_keepsRank : KeepsRank msIncTx := fun _ => ⟨rfl, rfl⟩

theorem msAppend_keepsRank (cap : Nat) (b : Byte) : KeepsRank fun sl => (msAppend cap b sl).2 := fun sl => by
  dsimp only
  unfold msAppend
  split
  · exact ⟨rfl, rfl⟩
  · exact ⟨rfl, rfl⟩

theorem msAppendEach_keepsRank (cap : Nat) (bs : List Byte) : KeepsRank (msAppendEach cap bs) := by
  induction bs with
  | nil => exact keepsRank_id
  | cons b bs ih => exact ih.comp (msAppend_keepsRank cap b)

theorem msAppendAll_keepsRank (cap : Nat) (bs : List Byte) : KeepsRank fun sl => (msAppendAll cap bs sl).2 := by
  induction bs with
  | nil => exact keepsRank_id
  | cons b bs ih =>
    intro sl
    dsimp only
    rw [msAppendAll]
    split
    · exact ih.comp (msAppend_keepsRank cap b) sl
    · exact msAppend_keepsRank cap b sl

theorem fpCopy_keepsRank (s : State) (full : Nat) : KeepsRank fun sl => (fpCopy s full sl).2 :=
  (msAppendAll_keepsRank _ _).comp msDiscard_keepsRank

theorem stage_keepsRank (cfg : Config) (cmd : Byte) (data : List Byte) : KeepsRank (stage cfg cmd data) := fun sl =>
  (msAppendEach_keepsRank _ _).comp ((msAppendEach_keepsRank _ _).comp msDiscard_keepsRank) sl

theorem validRanks_modify {f : Slot → Slot} (hf : KeepsRank f) (v : Store) (i : Nat) :
    validRanks (v.modify i f) = validRanks v := by
  induction v generalizing i with
  | nil => cases i <;> rfl
  | cons sl v ih =>
    obtain ⟨hvalid, hrank⟩ := hf sl
    cases i with
    | zero => rw [List.modify_zero_cons, validRanks_cons, validRanks_cons, hvalid, hrank]
    | succ i => rw [List.modify_succ_cons, validRanks_cons, validRanks_cons, ih]

theorem slotAt_modify_keepsRank {f : Slot → Slot} (hf : KeepsRank f) (v : Store) (i j : Nat) :
    (slotAt (v.modify i f) j).valid = (slotAt v j).valid ∧ (slotAt (v.modify i f) j).rank = (slotAt v j).rank := by
  rw [slotAt_modify]
  split
  · rename_i h
    rw [h.1]
    exact hf (slotAt v i)
  · exact ⟨rfl, rfl⟩

theorem bumpMeetsTop_modify {f : Slot → Slot} (hf : KeepsRank f) (v : Store) (i k : Nat) :
    BumpMeetsTop i (v.modify k f) ↔ BumpMeetsTop i v := by
  refine exists_congr fun j => ?_
  obtain ⟨hvalid, hrank⟩ := slotAt_modify_keepsRank hf v k j
  rw [hvalid, hrank]

theorem RanksDistinct.modify {v : Store} (h : RanksDistinct v) (i : Nat) {f : Slot → Slot} (hf : KeepsRank f) :
    RanksDistinct (v.modify i f) := h.of_validRanks_eq (validRanks_modify hf v i)

theorem ValidIffRanked.modify {v : Store} (h : ValidIffRanked v) (i : Nat) {f : Slot → Slot} (hf : KeepsRank f) :
    ValidIffRanked (v.modify i f) := by
  refine forall_mem_iff_slotAt.2 fun j hj => ?_
  obtain ⟨hvalid, hrank⟩ := slotAt_modify_keepsRank hf v i j
  rw [hvalid, hrank]
  exact h _ (slotAt_mem (by simpa using hj))

theorem RanksDistinct.msValidate {v : Store} (h : RanksDistinct v) (hz : ValidIffRanked v) {i : Nat}
    (hi : i < v.length) (htop : ¬ BumpMeetsTop i v) (now d : U32) : RanksDistinct (msValidate i now d v) :=
  h.bumpedTo hz htop hi (msValidate_bumpedTo hi now d) rfl rfl

theorem RanksDistinct.msMarkRetx {v : Store} (h : RanksDistinct v) (hz : ValidIffRanked v) {i : Nat}
    (hi : i < v.length) (htop : ¬ BumpMeetsTop i v) (now d : U32) : RanksDistinct (msMarkRetx i now d v) :=
  h.bumpedTo hz htop hi (msMarkRetx_bumpedTo hi now d) rfl rfl

/-- Changing a slot but not its rank, then validating it: what the parser and `eng_transmit` do with a frame. -/
theorem RanksDistinct.modify_msValidate {v : Store} (h : RanksDistinct v) (hz : ValidIffRanked v) {i : Nat}
    (hi : i < v.length) (htop : ¬ BumpMeetsTop i v) {f : Slot → Slot} (hf : KeepsRank f) (now d : U32) :
    RanksDistinct (Machine.msValidate i now d (v.modify i f)) :=
  (h.modify i hf).msValidate (hz.modify i hf) (by simpa using hi) (by rwa [bumpMeetsTop_modify hf]) now d

/-! ### The state -/

/-- The ranks of the valid slots are distinct in either store. -/
def State.Distinct (s : State) : Prop := RanksDistinct s.inb ∧ RanksDistinct s.outb

theorem State.distinct_iff {s : State} : s.Distinct ↔ ∀ st, RanksDistinct (s.store st) :=
  ⟨fun h st => by cases st with
    | inb => exact h.1
    | outb => exact h.2, fun h => ⟨h .inb, h .outb⟩⟩

section
variable {s : State}

theorem State.Distinct.of_stores_eq {t : State} (h : s.Distinct) (hin : t.inb = s.inb) (hout : t.outb = s.outb) :
    t.Distinct := by
  rw [State.Distinct, hin, hout]
  exact h

theorem State.Distinct.set_rxb (h : s.Distinct) (r : RxBuffer) : State.Distinct { s with rxb := r } := h

theorem State.Distinct.setStore (h : s.Distinct) (st : StoreSel) {v : Store} (hv : RanksDistinct v) :
    (s.setStore st v).Distinct := by
  obtain ⟨hin, hout⟩ := h
  cases st with
  | inb => exact ⟨hv, hout⟩
  | outb => exact ⟨hin, hv⟩

theorem State.Distinct.store (h : s.Distinct) (st : StoreSel) : RanksDistinct (s.store st) :=
  State.distinct_iff.1 h st

theorem State.Distinct.mapSlot (h : s.Distinct) (sel : SSel) {f : Slot → Slot} (hf : KeepsRank f) :
    (s.mapSlot sel f).Distinct := h.setStore sel.store ((h.store sel.store).modify _ hf)

theorem State.Distinct.mapTimer (h : s.Distinct) (t : TSel) (f : Timer → Timer) : (s.mapTimer t f).Distinct := by
  cases t with
  | itmr => exact h
  | slot sel => exact h.mapSlot sel fun _ => ⟨rfl, rfl⟩

theorem State.Distinct.okUnit (h : s.Distinct) (b : Bool) : (s.okUnit b).Distinct :=
  h.of_stores_eq (by simp) (by simp)

theorem State.Distinct.okByte (h : s.Distinct) (o : Option Byte) : (s.okByte o).Distinct :=
  h.of_stores_eq (by simp) (by simp)

theorem State.Distinct.okIndex (h : s.Distinct) (o : Option Nat) : (s.okIndex o).Distinct :=
  h.of_stores_eq (by simp) (by simp)

/-! ### The parser -/

/-- All the parser can do to the inbound store: change slot `d` but not its rank, and, exactly where it accepts,
validate it. -/
def ParserInbound (d : Nat) (s : State) (r : ParserOutcome × State) : Prop :=
  ∃ f, KeepsRank f ∧ (r.2.inb = s.inb.modify d f ∨
    (r.1 = .ok ∧ r.2.inb = msValidate d s.now tAckWin (s.inb.modify d f)))

theorem ParserInbound.of_inb_eq {d : Nat} {r : ParserOutcome × State} (h : r.2.inb = s.inb) : ParserInbound d s r :=
  ⟨id, keepsRank_id, .inl (by rw [h, List.modify_id])⟩

theorem fpTake_inbound (d full : Nat) (s : State) : ParserInbound d s (fpTake d full s) := by
  unfold fpTake
  split
  · exact ⟨_, fpCopy_keepsRank s full, .inr ⟨rfl, rfl⟩⟩
  · exact ⟨_, msDiscard_keepsRank.comp (fpCopy_keepsRank s full), .inl rfl⟩

theorem fpFrame_inbound (d : Nat) (s : State) : ParserInbound d s (fpFrame d s) := by
  unfold fpFrame
  split
  · split
    · exact .of_inb_eq rfl
    · exact fpTake_inbound d _ s
  · exact .of_inb_eq rfl

theorem fpPending_inbound (d : Nat) (s : State) : ParserInbound d s (fpPending d s) := by
  unfold fpPending
  split
  · exact .of_inb_eq rfl
  · split
    · exact .of_inb_eq rfl
    · exact fpFrame_inbound d s

theorem fpParse_inbound (d : Nat) (s : State) : ParserInbound d s (fpParse d s) := by
  unfold fpParse
  split
  · exact .of_inb_eq rfl
  · split
    · exact .of_inb_eq (fpArm_inb s)
    · have h := fpPending_inbound d (fpArm s)
      rwa [ParserInbound, fpArm_inb, fpArm_now] at h

theorem fpParse_distinct (hs : s.Inv) (h : s.Distinct) {d : Nat} (hd : d < s.inb.length)
    (htop : fpMeetsTop d s = false) : (fpParse d s).2.Distinct := by
  obtain ⟨hin, hout⟩ := h
  refine ⟨?_, by rwa [fpParse_outb]⟩
  obtain ⟨f, hf, hmod | ⟨hok, hval⟩⟩ := fpParse_inbound d s
  · rw [hmod]
    exact hin.modify d hf
  · have hnb : ¬ BumpMeetsTop d s.inb := fun hb => by simp [fpMeetsTop_iff.2 ⟨hok, hb⟩] at htop
    rw [hval]
    exact hin.modify_msValidate hs.inb_inv.validIffRanked hd hnb hf s.now tAckWin

/-! ### The engine -/

theorem retrySlot_fst (i : Nat) (s : State) :
    (retrySlot i s).1 = retriesUsedUp (slotAt (s.outb.modify i msIncTx) i).txc := by
  unfold retrySlot
  split
  · rename_i h
    exact h.symm
  · rename_i h
    exact (Bool.not_eq_true _ ▸ h).symm

/-- Whether a retry stops depends on the outbound store alone. -/
theorem retryMeetsTop_congr {t : State} (h : t.outb = s.outb) (i : Nat) : retryMeetsTop i t = retryMeetsTop i s := by
  rw [retryMeetsTop, retryMeetsTop, retrySlot_fst, retrySlot_fst, h]

theorem retrySlot_distinct (hs : s.Inv) (h : s.Distinct) {i : Nat} (hi : i < s.outb.length)
    (htop : retryMeetsTop i s = false) : (retrySlot i s).2.Distinct := by
  obtain ⟨hin, hout⟩ := h
  refine ⟨by rwa [(retrySlot_frame i s).inb_eq], ?_⟩
  by_cases hspent : 3 ≤ (satSucc (slotAt s.outb i).txc).toNat
  · rw [retrySlot_spent hi hspent]
    exact hout.modify i msIncTx_keepsRank
  · have hbelow := Nat.lt_of_not_le hspent
    have hnb : ¬ BumpMeetsTop i s.outb := fun hb => by simp [(retryMeetsTop_iff hi).2 ⟨hbelow, hb⟩] at htop
    obtain ⟨w, hw, hb⟩ := retrySlot_resent hi hbelow
    rw [hw]
    exact hout.bumpedTo hs.outb_inv.validIffRanked hnb hi hb rfl rfl

theorem freeInbound_distinct (h : s.Distinct) (d : Nat) : (freeInbound d s).Distinct := by
  obtain ⟨hin, hout⟩ := h
  exact ⟨hin.msDelete d, hout⟩

theorem confirmOldest_distinct (h : s.Distinct) : (confirmOldest s).Distinct := by
  obtain ⟨hin, hout⟩ := h
  unfold confirmOldest
  split
  · exact ⟨hin, hout⟩
  · exact ⟨hin, hout.msDelete _⟩

theorem retryOldest_distinct (hs : s.Inv) (h : s.Distinct)
    (htop : ∀ o, msGetOldest s.outb = some o → retryMeetsTop o s = false) : (retryOldest s).2.Distinct := by
  unfold retryOldest
  split
  · exact h
  · rename_i o ho
    exact retrySlot_distinct hs h (lt_of_slotAt_valid (msGetOldest_some.1 ho).1) (htop o ho)

/-- Where the dispatch does not stop, the retry of R238 does not. -/
theorem retryMeetsTop_of_dispatch {d o : Nat} (htop : dispatchMeetsTop d s = false)
    (hack : (slotAt s.inb d).buf.read 1 ≠ cmdAck) (hnak : (slotAt s.inb d).buf.read 1 = s.cfg.cmdNak)
    (ho : msGetOldest s.outb = some o) : retryMeetsTop o s = false := by
  rwa [dispatchMeetsTop, if_neg hack, if_pos hnak, ho, Option.any_some] at htop

theorem engDispatch_distinct (hs : s.Inv) (h : s.Distinct) {d : Nat} (htop : dispatchMeetsTop d s = false) :
    (engDispatch d s).2.Distinct := by
  unfold engDispatch
  split
  · exact confirmOldest_distinct (freeInbound_distinct h d)
  · rename_i hack
    split
    · rename_i hnak
      refine retryOldest_distinct (freeInbound_inv hs d) (freeInbound_distinct h d) fun o ho => ?_
      rw [retryMeetsTop_congr (freeInbound_outb s d)]
      exact retryMeetsTop_of_dispatch htop hack hnak ho
    · exact h

/-- Resetting the guard's counter does not change whether the dispatch stops. -/
theorem dispatchMeetsTop_nakResetCounter (d : Nat) (s : State) :
    dispatchMeetsTop d (nakResetCounter s) = dispatchMeetsTop d s := by
  simp only [dispatchMeetsTop, nakResetCounter_inb, nakResetCounter_cfg, nakResetCounter_outb,
    retryMeetsTop_congr (nakResetCounter_outb s)]

theorem nakRequest_distinct (h : s.Distinct) : (nakRequest s).Distinct := by
  unfold nakRequest
  split
  · exact h
  · exact h

theorem engAfterParse_distinct (hs : s.Inv) (h : s.Distinct) {d : Nat} {r : ParserOutcome}
    (htop : r = .ok → dispatchMeetsTop d s = false) : (engAfterParse d r s).2.Distinct := by
  cases r with
  | tooFew | byteDropped | timeout => exact h
  | reqNak => exact nakRequest_distinct h
  | ok =>
    have hreset : (nakResetCounter s).Inv := hs
    exact engDispatch_distinct hreset h ((dispatchMeetsTop_nakResetCounter d s).trans (htop rfl))

theorem engParse_distinct (hs : s.Inv) (h : s.Distinct) (htop : engParseMeetsTop s = false) :
    (engParse s).2.Distinct := by
  unfold engParse
  split
  · exact h
  · rename_i d hd
    rw [engParseMeetsTop, hd, Option.any_some, Bool.or_eq_false_iff] at htop
    obtain ⟨hparse, hdispatch⟩ := htop
    have hparsed := fpParse_distinct hs h (msGetFree_some.1 hd).1 hparse
    refine engAfterParse_distinct (fpParse_inv hs d) hparsed fun hok => ?_
    simpa [hok] using hdispatch

theorem engSend_distinct (hs : s.Inv) (h : s.Distinct) {cmd : Byte} {data : List Byte} {o : Nat}
    (ho : o < s.outb.length) (htop : (engSend cmd data o s).1 = true → meetsTop o s.outb = false) :
    (engSend cmd data o s).2.Distinct := by
  obtain ⟨hin, hout⟩ := h
  have hstage := stage_keepsRank s.cfg cmd data
  unfold engSend at htop ⊢
  dsimp only at htop ⊢
  split at htop
  · rename_i hsent
    have hnb := meetsTop_false.1 (htop rfl)
    have hsaved := hout.modify_msValidate hs.outb_inv.validIffRanked ho hnb hstage s.now s.cfg.tTxDeadline
    rw [if_pos hsent]
    exact ⟨hin, hsaved⟩
  · rename_i hshort
    rw [if_neg hshort]
    exact ⟨hin, (hout.modify o hstage).modify o msDiscard_keepsRank⟩

theorem engTransmit_distinct (hs : s.Inv) (h : s.Distinct) {cmd : Byte} {data : List Byte}
    (htop : engTransmitMeetsTop cmd data s = false) : (engTransmit cmd data s).2.Distinct := by
  unfold engTransmitMeetsTop at htop
  unfold engTransmit at htop ⊢
  split
  · exact h
  · rename_i hlen
    split
    · rename_i hwl
      split
      · exact h
      · rename_i o ho
        refine engSend_distinct hs h (msGetFree_some.1 ho).1 fun hsent => ?_
        simpa [hlen, hwl, ho, hsent] using htop
    · exact h

theorem timeoutTurn_distinct {acc : Bool × State} (hs : acc.2.Inv) (h : acc.2.Distinct) {i : Nat}
    (htop : turnMeetsTop i acc.2 = false) : (timeoutTurn acc i).2.Distinct := by
  unfold timeoutTurn
  split
  · rename_i hlate
    rw [turnMeetsTop, hlate, Bool.true_and] at htop
    rw [Slot.overdue, Bool.and_eq_true] at hlate
    exact retrySlot_distinct hs h (lt_of_slotAt_valid hlate.1) htop
  · exact h

/-- The ranks are distinct after the first `n` turns of a scan none of whose turns stops. -/
theorem foldl_timeoutTurn_distinct (hs : s.Inv) (h : s.Distinct) (n : Nat)
    (htop : ∀ i, i < n → turnMeetsTop i ((List.range i).foldl timeoutTurn (false, s)).2 = false) :
    ((List.range n).foldl timeoutTurn (false, s)).2.Distinct := by
  induction n with
  | zero => exact h
  | succ n ih =>
    have hearlier := foldl_timeoutTurn_inv (acc := (false, s)) (List.range n) hs
    rw [List.range_succ, List.foldl_append, List.foldl_cons, List.foldl_nil]
    exact timeoutTurn_distinct hearlier (ih fun i hi => htop i (Nat.lt_succ_of_lt hi)) (htop n (Nat.lt_succ_self n))

theorem handleTimeouts_distinct (hs : s.Inv) (h : s.Distinct) (htop : scanMeetsTop s = false) :
    (handleTimeouts s).2.Distinct := by
  refine foldl_timeoutTurn_distinct hs h _ fun i hi => ?_
  have hturn := List.any_eq_false.1 htop i (List.mem_range.2 hi)
  rwa [Bool.not_eq_true] at hturn

theorem resetAll_distinct (s : State) : (resetAll s).Distinct := by
  rw [resetAll_eq]
  exact ⟨RanksDistinct.msClearAll s.inb, RanksDistinct.msClearAll s.outb⟩

theorem State.resetOf_distinct (c : Config) (p : List Transaction) : (State.resetOf c p).Distinct := by
  have h : RanksDistinct (List.replicate c.nSlots Slot.reset) := by
    rw [RanksDistinct, validRanks_replicate_reset]
    exact List.nodup_nil
  exact ⟨h, h⟩

theorem rxRestart_distinct (h : s.Distinct) : (rxRestart s).Distinct := by
  unfold rxRestart
  split
  · exact h
  · exact h

end

/-! ### Transactions, instructions and steps -/

section
variable {s t : State} {legal : Bool} {top : State → Bool} {body : State → State}

theorem transact_distinct (h : transact s body = .next t) (hb : (body s.fresh).Distinct) : t.Distinct := by
  obtain ⟨-, rfl⟩ := transact_next h
  exact hb

theorem transactIf_distinct (h : transactIf legal s body = .next t) (hd : s.Distinct)
    (hb : (body s.fresh).Distinct) : t.Distinct := by
  obtain ⟨-, ⟨-, rfl⟩ | ⟨-, rfl⟩⟩ := transactIf_next h
  · exact hb
  · exact hd

theorem transactBump_distinct (h : transactBump top s body = .next t)
    (hb : top s.fresh = false → (body s.fresh).Distinct) : t.Distinct := by
  obtain ⟨-, htop, rfl⟩ := transactBump_next h
  exact hb htop

theorem transactBumpIf_distinct (h : transactBumpIf legal top s body = .next t) (hd : s.Distinct)
    (hb : legal = true → top s.fresh = false → (body s.fresh).Distinct) : t.Distinct := by
  obtain ⟨-, ⟨hlegal, htop, rfl⟩ | ⟨-, rfl⟩⟩ := transactBumpIf_next h
  · exact hb hlegal htop
  · exact hd

theorem idx_lt_of_legal (hs : s.Inv) {i : BitVec 7} (h : idxLegal s.cfg i = true) (st : StoreSel) :
    i.toNat < (s.store st).length := by
  obtain ⟨hlen, -⟩ := hs.store_inv st
  rw [hlen]
  exact of_decide_eq_true h

/-- Every instruction that answers a next state keeps the ranks distinct. -/
theorem exec_distinct {i : Instr} (h : exec i s = .next t) (hs : s.Inv) (hd : s.Distinct) : t.Distinct := by
  have hs' : s.fresh.Inv := hs
  have hd' : s.fresh.Distinct := hd
  unfold exec at h
  cases i with
  -- the operations that touch no store
  | engCountTimeouts | rxbCount | rxbOvf | cksCompute _ | cksVerify _ | msCountTimedout _ | msOldestTimedout _
  | fpRead | nakRead _ | rxbClear | fpReset | nakResetCounter | nakResetState => exact transact_distinct h hd'
  | tmrTimedout _ | tmrRead _ _ | msReadInfo _ _ | engRxLen _ => exact transactIf_distinct h hd hd'
  | engGetNewestRx | msGetFree _ | msGetOldest _ | msGetNewest _ => exact transact_distinct h (hd'.okIndex _)
  | rxbPeek _ => exact transact_distinct h (hd'.okByte _)
  | engRxByte _ _ | msReadByte _ _ => exact transactIf_distinct h hd (hd'.okByte _)
  | rxbPush _ => exact transact_distinct h ((hd'.set_rxb _).okUnit _)
  | rxbPop => exact transact_distinct h ((hd'.set_rxb _).okByte _)
  | rxByte _ => exact transact_distinct h (rxRestart_distinct hd')
  | nakRequest => exact transact_distinct h (nakRequest_distinct hd')
  -- the timers and the slot stores
  | tmrStart tsel _ | tmrStop tsel | tmrRestart tsel => exact transactIf_distinct h hd (hd'.mapTimer tsel _)
  | msAppend sel b => exact transactIf_distinct h hd ((hd'.mapSlot sel (msAppend_keepsRank _ b)).okUnit _)
  | msDiscard sel => exact transactIf_distinct h hd (hd'.mapSlot sel msDiscard_keepsRank)
  | msIncTx sel => exact transactIf_distinct h hd (hd'.mapSlot sel msIncTx_keepsRank)
  | msResetDeadline sel => exact transactIf_distinct h hd (hd'.mapSlot sel fun _ => ⟨rfl, rfl⟩)
  | msValidate sel d =>
    exact transactBumpIf_distinct h hd fun hlegal htop => hd'.setStore _
      ((hd'.store _).msValidate (hs'.store_inv _).validIffRanked (idx_lt_of_legal hs' hlegal _)
        (meetsTop_false.1 htop) _ d)
  | msMarkRetx sel d =>
    exact transactBumpIf_distinct h hd fun hlegal htop => hd'.setStore _
      ((hd'.store _).msMarkRetx (hs'.store_inv _).validIffRanked (idx_lt_of_legal hs' hlegal _)
        (meetsTop_false.1 htop) _ d)
  | msDelete sel => exact transactIf_distinct h hd (hd'.setStore _ ((hd'.store _).msDelete _))
  | msClearAll st => exact transact_distinct h (hd'.setStore st (.msClearAll _))
  | engDeleteRx j => exact transactIf_distinct h hd (freeInbound_distinct hd' j.toNat)
  -- the parser and the engine
  | fpParse d =>
    exact transactBumpIf_distinct h hd fun hlegal htop =>
      fpParse_distinct hs' hd' (idx_lt_of_legal hs' hlegal .inb) htop
  | engParse => exact transactBump_distinct h fun htop => engParse_distinct hs' hd' htop
  | engTransmit _ _ => exact transactBump_distinct h fun htop => (engTransmit_distinct hs' hd' htop).okUnit _
  | engHandleTimeouts => exact transactBump_distinct h fun htop => handleTimeouts_distinct hs' hd' htop
  | engResetAll => exact transact_distinct h (resetAll_distinct s.fresh)

/-- Every step that gives a next state keeps the ranks distinct. -/
theorem step_distinct (h : step s = .next t) (hs : s.Inv) (hd : s.Distinct) : t.Distinct := by
  obtain ⟨-, rfl⟩ | ⟨rest, -, -, rfl⟩ | ⟨now, txAnswer, _, rest, _, -, -, hexec⟩ | ⟨_, _, _, _, -, -, rfl⟩ :=
    step_cases h
  · exact hd
  · exact State.resetOf_distinct s.cfg rest
  · have hsampled : (s.sample now txAnswer rest).Inv := hs
    exact exec_distinct hexec hsampled hd
  · exact hd

end

/-- Settles O13: the distinctness of the ranks goes through each store operation, each operation of the parser and the
engine that does not stop, and each instruction. -/
theorem everyStepKeepsRanksDistinct : Obligations.EveryStepKeepsRanksDistinct := fun _ _ hs hd h =>
  State.distinct_iff.1 (step_distinct h hs (State.distinct_iff.2 hd))

end Sys2Proof.Machine
end

section
/-! PROOFS. What no operation can observe (R25, R33, I4), on the records: slots that differ beyond `len`, stores of such
slots, and rings with the same contents, answer alike and stay alike under each operation. -/

namespace Sys2Proof.Machine

/-! ### Slots -/

theorem Slot.Alike.refl (sl : Slot) : sl.Alike sl := ⟨rfl, rfl, rfl, rfl, rfl, fun _ _ => rfl⟩

section
variable {a b : Slot}

theorem Slot.Alike.len_eq (h : a.Alike b) : b.len = a.len := by
  obtain ⟨hlen, -⟩ := h
  exact hlen.symm

theorem Slot.Alike.rank_eq (h : a.Alike b) : b.rank = a.rank := by
  obtain ⟨-, hrank, -⟩ := h
  exact hrank.symm

theorem Slot.Alike.valid_eq (h : a.Alike b) : b.valid = a.valid := by
  obtain ⟨-, -, hvalid, -⟩ := h
  exact hvalid.symm

theorem Slot.Alike.txc_eq (h : a.Alike b) : b.txc = a.txc := by
  obtain ⟨-, -, -, htxc, -⟩ := h
  exact htxc.symm

theorem Slot.Alike.tmr_eq (h : a.Alike b) : b.tmr = a.tmr := by
  obtain ⟨-, -, -, -, htmr, -⟩ := h
  exact htmr.symm

theorem Slot.Alike.read_eq (h : a.Alike b) {k : Nat} (hk : k < a.len.toNat) : b.buf.read k = a.buf.read k := by
  obtain ⟨-, -, -, -, -, hread⟩ := h
  exact (hread k hk).symm

theorem Slot.Alike.field_eq (h : a.Alike b) (f : SlotField) : b.field f = a.field f := by
  cases f with
  | len => exact congrArg byteCode h.len_eq
  | rank => exact congrArg byteCode h.rank_eq
  | valid => exact congrArg boolCode h.valid_eq
  | txc => exact congrArg byteCode h.txc_eq

theorem Slot.Alike.overdue_eq (h : a.Alike b) (now : U32) : b.overdue now = a.overdue now := by
  rw [Slot.overdue, Slot.overdue, h.valid_eq, h.tmr_eq]

theorem Slot.Alike.msReadByte_eq (h : a.Alike b) (off : Nat) : msReadByte off b = msReadByte off a := by
  unfold msReadByte
  rw [h.len_eq]
  split
  · rw [h.read_eq ‹_›]
  · rfl

theorem Slot.Alike.bytes_eq (h : a.Alike b) : b.buf.bytes b.len.toNat = a.buf.bytes a.len.toNat := by
  rw [h.len_eq]
  exact Memory.bytes_congr fun _ hk => h.read_eq hk

end

/-- A change of a slot that neither reads nor writes `buf`, and does not grow `len`. -/
def BufBlind (f : Slot → Slot) : Prop :=
  ∀ sl, (f sl).len.toNat ≤ sl.len.toNat ∧ ∀ buf, f { sl with buf := buf } = { f sl with buf := buf }

theorem BufBlind.buf_eq {f : Slot → Slot} (hf : BufBlind f) (sl : Slot) : (f sl).buf = sl.buf := by
  obtain ⟨-, hcomm⟩ := hf sl
  have hself : f sl = { f sl with buf := sl.buf } := hcomm sl.buf
  rw [hself]

/-- Such a change shows nothing of the hidden bytes. -/
theorem BufBlind.alike {f : Slot → Slot} (hf : BufBlind f) {a b : Slot} (h : a.Alike b) : (f a).Alike (f b) := by
  obtain ⟨buf, rfl⟩ : ∃ buf, b = { a with buf := buf } := by
    obtain ⟨hlen, hrank, hvalid, htxc, htmr, -⟩ := h
    exact ⟨b.buf, by rw [hlen, hrank, hvalid, htxc, htmr]⟩
  obtain ⟨hle, hcomm⟩ := hf a
  rw [hcomm buf]
  refine ⟨rfl, rfl, rfl, rfl, rfl, fun k hk => ?_⟩
  rw [hf.buf_eq]
  exact (h.read_eq (hk.trans_le hle)).symm

theorem bufBlind_id : BufBlind id := fun _ => ⟨le_rfl, fun _ => rfl⟩

theorem bufBlind_set_tmr (f : Timer → Timer) : BufBlind fun sl => { sl with tmr := f sl.tmr } :=
  fun _ => ⟨le_rfl, fun _ => rfl⟩

theorem msDiscard_bufBlind : BufBlind msDiscard := fun _ => ⟨Nat.zero_le _, fun _ => rfl⟩

theorem freed_bufBlind : BufBlind freed := fun _ => ⟨Nat.zero_le _, fun _ => rfl⟩

theorem msIncTx_bufBlind : BufBlind msIncTx := fun _ => ⟨le_rfl, fun _ => rfl⟩

theorem msResetDeadline_bufBlind (now : U32) : BufBlind (msResetDeadline now) := fun _ => ⟨le_rfl, fun _ => rfl⟩

theorem BufBlind.ite {f g : Slot → Slot} (hf : BufBlind f) (hg : BufBlind g) (c : Slot → Prop) [DecidablePred c]
    (hc : ∀ sl buf, c { sl with buf := buf } ↔ c sl) : BufBlind fun sl => if c sl then f sl else g sl := fun sl => by
  simp only [hc]
  split
  · exact hf sl
  · exact hg sl

/-- Appending the same byte to slots alike (R157): both grow by it, or both are full. -/
theorem Slot.Alike.msAppend {a b : Slot} (h : a.Alike b) {cap : Nat} (hcap : cap ≤ 255) (ha : a.buf.wf) (hb : b.buf.wf)
    (hlen : a.len.toNat ≤ cap) (x : Byte) :
    (msAppend cap x b).1 = (msAppend cap x a).1 ∧ (msAppend cap x a).2.Alike (msAppend cap x b).2 := by
  by_cases hfull : a.len.toNat = cap
  · rw [msAppend_full hfull, msAppend_full (by rwa [h.len_eq])]
    exact ⟨rfl, h⟩
  · rw [msAppend_room hfull, msAppend_room (by rwa [h.len_eq])]
    refine ⟨rfl, by rw [h.len_eq], h.rank_eq.symm, h.valid_eq.symm, h.txc_eq.symm, h.tmr_eq.symm, fun k hk => ?_⟩
    have hsucc : (a.len + 1#8).toNat = a.len.toNat + 1 := toNat_len_succ (by omega)
    have hk' : k < a.len.toNat + 1 := hsucc ▸ hk
    show (a.buf.write a.len.toNat x).read k = (b.buf.write b.len.toNat x).read k
    rw [h.len_eq, Memory.read_write ha, Memory.read_write hb]
    split
    · rfl
    · exact (h.read_eq (by omega)).symm

theorem Slot.Alike.msAppendAll {cfg : Config} (hcap : cfg.slotCap ≤ 255) (bs : List Byte) {a b : Slot} (h : a.Alike b)
    (ha : a.Inv cfg) (hb : b.Inv cfg) : (msAppendAll cfg.slotCap bs a).2.Alike (msAppendAll cfg.slotCap bs b).2 := by
  induction bs generalizing a b with
  | nil => exact h
  | cons x bs ih =>
    have ⟨hbufa, _, hlena, _⟩ := ha
    have ⟨hbufb, _⟩ := hb
    obtain ⟨hfst, hnext⟩ := h.msAppend hcap hbufa hbufb hlena x
    rw [Machine.msAppendAll, Machine.msAppendAll, hfst]
    split
    · exact ih hnext (msAppend_inv hcap ha x) (msAppend_inv hcap hb x)
    · exact hnext

/-- Slots filled with the same bytes are alike where their other fields are. -/
theorem Slot.Holds.alike {a b a' b' : Slot} {f : List Byte} (ha : a.Holds a' f) (hb : b.Holds b' f)
    (hrank : a.rank = b.rank) (hvalid : a.valid = b.valid) (htxc : a.txc = b.txc) (htmr : a.tmr = b.tmr) :
    a.Alike b := by
  obtain ⟨hla, hba, -⟩ := ha
  obtain ⟨hlb, hbb, -⟩ := hb
  refine ⟨BitVec.eq_of_toNat_eq (hla.trans hlb.symm), hrank, hvalid, htxc, htmr, fun k hk => ?_⟩
  have hbytes := congrArg (·[k]?) (hba.trans hbb.symm)
  simpa only [Memory.getElem?_bytes, ← hla, hk, if_true, Option.some.injEq] using hbytes

/-- Staging the same frame in slots alike (R240). -/
theorem Slot.Alike.stage {cfg : Config} (hcap : cfg.slotCap ≤ 255) {a b : Slot} (h : a.Alike b) (ha : a.Inv cfg)
    (hb : b.Inv cfg) (cmd : Byte) {data : List Byte} (hfit : data.length + 4 ≤ cfg.slotCap) :
    (stage cfg cmd data a).Alike (stage cfg cmd data b) := by
  obtain ⟨_, _, heqa, hha, -⟩ := stage_holds hcap cmd data a ha hfit
  obtain ⟨_, _, heqb, hhb, -⟩ := stage_holds hcap cmd data b hb hfit
  rw [heqa, heqb]
  exact hha.alike hhb h.rank_eq.symm h.valid_eq.symm h.txc_eq.symm h.tmr_eq.symm

/-! ### Stores -/

/-- Stores whose slots differ at most in hidden bytes. -/
def Store.Alike (v w : Store) : Prop := List.Forall₂ Slot.Alike v w

theorem storeAlike_iff {v w : Store} :
    Store.Alike v w ↔ w.length = v.length ∧ ∀ j, (slotAt v j).Alike (slotAt w j) := by
  rw [Store.Alike, List.forall₂_iff_get]
  constructor
  · rintro ⟨hlen, hget⟩
    refine ⟨hlen.symm, fun j => ?_⟩
    by_cases hj : j < v.length
    · rw [slotAt_of_lt hj, slotAt_of_lt (hlen ▸ hj)]
      exact hget j hj (hlen ▸ hj)
    · rw [slotAt_of_le (by omega), slotAt_of_le (by omega)]
      exact .refl _
  · rintro ⟨hlen, hslot⟩
    refine ⟨hlen.symm, fun j hv hw => ?_⟩
    have hj := hslot j
    rwa [slotAt_of_lt hv, slotAt_of_lt hw] at hj

theorem Store.Alike.refl (v : Store) : Store.Alike v v := storeAlike_iff.2 ⟨rfl, fun _ => .refl _⟩

section
variable {v w : Store}

theorem Store.Alike.length_eq (h : Store.Alike v w) : w.length = v.length := (storeAlike_iff.1 h).1

theorem Store.Alike.slotAt (h : Store.Alike v w) (j : Nat) : (slotAt v j).Alike (slotAt w j) :=
  (storeAlike_iff.1 h).2 j

/-- Changing the same slot of both, to slots alike. -/
theorem Store.Alike.modify (h : Store.Alike v w) {i : Nat} {f g : Slot → Slot}
    (hfg : (f (Machine.slotAt v i)).Alike (g (Machine.slotAt w i))) :
    Store.Alike (v.modify i f) (w.modify i g) := by
  refine storeAlike_iff.2 ⟨by simpa using h.length_eq, fun j => ?_⟩
  rw [slotAt_modify, slotAt_modify, h.length_eq]
  split
  · exact hfg
  · exact h.slotAt j

theorem Store.Alike.modify_blind (h : Store.Alike v w) (i : Nat) {f : Slot → Slot} (hf : BufBlind f) :
    Store.Alike (v.modify i f) (w.modify i f) := h.modify (hf.alike (h.slotAt i))

theorem Store.Alike.mapIdx_blind (h : Store.Alike v w) {f : Nat → Slot → Slot} (hf : ∀ j, BufBlind (f j)) :
    Store.Alike (v.mapIdx f) (w.mapIdx f) := by
  refine storeAlike_iff.2 ⟨by simpa using h.length_eq, fun j => ?_⟩
  rw [slotAt_mapIdx, slotAt_mapIdx, h.length_eq]
  split
  · exact (hf j).alike (h.slotAt j)
  · exact .refl _

theorem Store.Alike.bump (h : Store.Alike v w) (i : Nat) : Store.Alike (bump i v) (bump i w) := by
  refine h.mapIdx_blind fun j => ?_
  split
  · exact fun _ => ⟨le_rfl, fun _ => rfl⟩
  · exact BufBlind.ite (f := fun sl => { sl with rank := sat8Inc sl.rank }) (fun _ => ⟨le_rfl, fun _ => rfl⟩)
      bufBlind_id (fun sl => sl.valid = true) fun _ _ => Iff.rfl

theorem Store.Alike.msValidate (h : Store.Alike v w) (i : Nat) {now now' d d' : U32} (hnow : now' = now) (hd : d' = d) :
    Store.Alike (msValidate i now d v) (msValidate i now' d' w) := by
  rw [hnow, hd]
  exact (h.bump i).modify_blind i fun _ => ⟨le_rfl, fun _ => rfl⟩

theorem Store.Alike.msMarkRetx (h : Store.Alike v w) (i : Nat) {now now' d d' : U32} (hnow : now' = now) (hd : d' = d) :
    Store.Alike (msMarkRetx i now d v) (msMarkRetx i now' d' w) := by
  rw [hnow, hd]
  exact (h.bump i).modify_blind i fun _ => ⟨le_rfl, fun _ => rfl⟩

theorem Store.Alike.msDelete (h : Store.Alike v w) (i : Nat) : Store.Alike (msDelete i v) (msDelete i w) := by
  unfold Machine.msDelete
  rw [(h.slotAt i).valid_eq, (h.slotAt i).rank_eq]
  split
  · refine h.mapIdx_blind fun j => ?_
    split
    · exact freed_bufBlind
    · exact BufBlind.ite (f := fun sl => { sl with rank := sl.rank - 1#8 }) (fun _ => ⟨le_rfl, fun _ => rfl⟩)
        bufBlind_id (fun sl => (sl.valid && decide ((Machine.slotAt v i).rank < sl.rank)) = true) fun _ _ => Iff.rfl
  · exact h

theorem Store.Alike.msClearAll (h : Store.Alike v w) : Store.Alike (msClearAll v) (msClearAll w) := by
  refine storeAlike_iff.2 ⟨by simpa [Machine.msClearAll] using h.length_eq, fun j => ?_⟩
  rw [Machine.msClearAll, Machine.msClearAll, slotAt_map, slotAt_map, h.length_eq]
  split
  · exact freed_bufBlind.alike (h.slotAt j)
  · exact .refl _

theorem Store.Alike.isFirstFree_iff (h : Store.Alike v w) (d : Nat) : IsFirstFree w d ↔ IsFirstFree v d := by
  simp only [IsFirstFree, h.length_eq, (h.slotAt _).valid_eq]

theorem Store.Alike.isOldest_iff (h : Store.Alike v w) (o : Nat) : IsOldest w o ↔ IsOldest v o := by
  simp only [IsOldest, (h.slotAt _).valid_eq, (h.slotAt _).rank_eq]

theorem Store.Alike.isNewest_iff (h : Store.Alike v w) (o : Nat) : IsNewest w o ↔ IsNewest v o := by
  simp only [IsNewest, (h.slotAt _).valid_eq, (h.slotAt _).rank_eq]

theorem Store.Alike.msGetFree_eq (h : Store.Alike v w) : msGetFree w = msGetFree v :=
  Option.ext fun d => msGetFree_some.trans ((h.isFirstFree_iff d).trans msGetFree_some.symm)

theorem Store.Alike.msGetOldest_eq (h : Store.Alike v w) : msGetOldest w = msGetOldest v :=
  Option.ext fun o => msGetOldest_some.trans ((h.isOldest_iff o).trans msGetOldest_some.symm)

theorem Store.Alike.msGetNewest_eq (h : Store.Alike v w) : msGetNewest w = msGetNewest v :=
  Option.ext fun o => msGetNewest_some.trans ((h.isNewest_iff o).trans msGetNewest_some.symm)

theorem Store.Alike.meetsTop_eq (h : Store.Alike v w) (i : Nat) : meetsTop i w = meetsTop i v := by
  simp only [meetsTop, h.length_eq, (h.slotAt _).valid_eq, (h.slotAt _).rank_eq]

theorem Store.Alike.msCountTimedout_eq (h : Store.Alike v w) (now : U32) :
    msCountTimedout now w = msCountTimedout now v := by
  unfold msCountTimedout
  induction h with
  | nil => rfl
  | cons hslot _ ih => rw [List.countP_cons, List.countP_cons, hslot.overdue_eq, ih]

theorem Store.Alike.msOldestTimedout_eq (h : Store.Alike v w) (now : U32) :
    msOldestTimedout now w = msOldestTimedout now v := by
  unfold msOldestTimedout
  rw [h.msGetOldest_eq]
  split
  · rfl
  · rw [(h.slotAt _).tmr_eq]

end

/-! ### Rings -/

/-- Rings with the same contents and the same overflow latch. -/
def RxBuffer.Alike (cap : Nat) (r r' : RxBuffer) : Prop := contents cap r = contents cap r' ∧ r.ovf = r'.ovf

section
variable {cap : Nat} {r r' : RxBuffer}

theorem RxBuffer.Alike.contents_eq (h : RxBuffer.Alike cap r r') : contents cap r' = contents cap r := h.1.symm

theorem RxBuffer.Alike.ovf_eq (h : RxBuffer.Alike cap r r') : r'.ovf = r.ovf := h.2.symm

theorem RxBuffer.Alike.cnt_eq (h : RxBuffer.Alike cap r r') : r'.cnt = r.cnt := by
  rw [← length_contents cap r', h.contents_eq, length_contents]

theorem RxBuffer.Alike.ringByte_eq (h : RxBuffer.Alike cap r r') {k : Nat} (hk : k < r.cnt) :
    ringByte cap r' k = ringByte cap r k := by
  have hget := congrArg (·[k]?) h.contents_eq
  simpa only [getElem?_contents, h.cnt_eq, hk, if_true, Option.some.injEq] using hget

theorem RxBuffer.Alike.rxbPeek_eq (h : RxBuffer.Alike cap r r') (off : Nat) :
    rxbPeek cap off r' = rxbPeek cap off r := by
  rw [Machine.rxbPeek_eq, Machine.rxbPeek_eq, h.contents_eq]

theorem RxBuffer.Alike.clear (cap : Nat) (r r' : RxBuffer) : RxBuffer.Alike cap (rxbClear r) (rxbClear r') := ⟨rfl, rfl⟩

theorem RxBuffer.Alike.pop (h : RxBuffer.Alike cap r r') : RxBuffer.Alike cap (rxbPop cap r).2 (rxbPop cap r').2 := by
  refine ⟨?_, by rw [rxbPop_ovf, rxbPop_ovf, h.ovf_eq]⟩
  rw [contents_pop, contents_pop, h.contents_eq]

theorem RxBuffer.Alike.popN (h : RxBuffer.Alike cap r r') (n : Nat) :
    RxBuffer.Alike cap (rxbPopN cap n r) (rxbPopN cap n r') := by
  refine ⟨?_, by rw [rxbPopN_ovf, rxbPopN_ovf, h.ovf_eq]⟩
  rw [contents_popN, contents_popN, h.contents_eq]

theorem RxBuffer.Alike.pop_answer_eq (h : RxBuffer.Alike cap r r') (hr : r.rd < cap) (hr' : r'.rd < cap) :
    (rxbPop cap r').1 = (rxbPop cap r).1 := by
  rw [rxbPop_answer hr, rxbPop_answer hr', h.contents_eq]

theorem RxBuffer.Alike.push_answer_eq (h : RxBuffer.Alike cap r r') (b : Byte) :
    (rxbPush cap b r').1 = (rxbPush cap b r).1 := by
  by_cases hfull : r.cnt = cap
  · rw [rxbPush_full hfull, rxbPush_full (by rwa [h.cnt_eq])]
  · rw [rxbPush_room hfull, rxbPush_room (by rwa [h.cnt_eq])]

theorem RxBuffer.Alike.push (h : RxBuffer.Alike cap r r') (hr : r.mem.wf) (hr' : r'.mem.wf) (hc : r.cnt ≤ cap)
    (b : Byte) : RxBuffer.Alike cap (rxbPush cap b r).2 (rxbPush cap b r').2 := by
  have hcnt := h.cnt_eq
  refine ⟨?_, ?_⟩
  · by_cases hfull : r.cnt = cap
    · rw [rxbPush_full hfull, rxbPush_full (by omega)]
      exact h.contents_eq.symm
    · rw [contents_push hr (by omega), contents_push hr' (by omega), h.contents_eq]
  · rw [Bool.eq_iff_iff, rxbPush_ovf, rxbPush_ovf, hcnt, h.ovf_eq]

end

end Sys2Proof.Machine
end

section
/-! PROOFS. What no operation can observe (R25, R33, I4), on the machine: states that differ at most in hidden bytes and
in where the ring lies stay so under each update of the state and each step of the parser. -/

namespace Sys2Proof.Machine

/-! ### Two states alike -/

theorem State.alike_iff {s t : State} : s.Alike t ↔
    RxBuffer.Alike s.cfg.ringCap s.rxb t.rxb ∧ Store.Alike s.inb t.inb ∧ Store.Alike s.outb t.outb ∧
      t = { s with rxb := t.rxb, inb := t.inb, outb := t.outb } := by
  constructor
  · rintro ⟨hq, hin, hout, hovf, hcfg, hfp, hnak, heng, hnow, htx, hrsp, htrace, hpending⟩
    refine ⟨⟨?_, hovf⟩, hin, hout, ?_⟩
    · rw [State.q, State.q, ← hcfg] at hq
      exact hq
    · rw [hcfg, hfp, hnak, heng, hnow, htx, hrsp, htrace, hpending]
  · rintro ⟨⟨hq, hovf⟩, hin, hout, heq⟩
    rw [heq]
    exact ⟨hq, hin, hout, hovf, rfl, rfl, rfl, rfl, rfl, rfl, rfl, rfl, rfl⟩

theorem State.Alike.refl (s : State) : s.Alike s :=
  State.alike_iff.2 ⟨⟨rfl, rfl⟩, .refl _, .refl _, rfl⟩

section
variable {s t : State}

theorem State.Alike.rxb (h : s.Alike t) : RxBuffer.Alike s.cfg.ringCap s.rxb t.rxb := (State.alike_iff.1 h).1

theorem State.Alike.inb (h : s.Alike t) : Store.Alike s.inb t.inb := h.2.1

theorem State.Alike.outb (h : s.Alike t) : Store.Alike s.outb t.outb := h.2.2.1

/-- The fields that two states alike share. -/
theorem State.Alike.shared (h : s.Alike t) : t = { s with rxb := t.rxb, inb := t.inb, outb := t.outb } :=
  (State.alike_iff.1 h).2.2.2

theorem State.Alike.cfg_eq (h : s.Alike t) : t.cfg = s.cfg := by rw [h.shared]

theorem State.Alike.fp_eq (h : s.Alike t) : t.fp = s.fp := by rw [h.shared]

theorem State.Alike.nak_eq (h : s.Alike t) : t.nak = s.nak := by rw [h.shared]

theorem State.Alike.now_eq (h : s.Alike t) : t.now = s.now := by rw [h.shared]

theorem State.Alike.txAnswer_eq (h : s.Alike t) : t.txAnswer = s.txAnswer := by rw [h.shared]

theorem State.Alike.trace_eq (h : s.Alike t) : t.trace = s.trace := by rw [h.shared]

theorem State.Alike.pending_eq (h : s.Alike t) : t.pending = s.pending := by rw [h.shared]

theorem State.Alike.cnt_eq (h : s.Alike t) : t.rxb.cnt = s.rxb.cnt := h.rxb.cnt_eq

theorem State.Alike.ovf_eq (h : s.Alike t) : t.rxb.ovf = s.rxb.ovf := h.rxb.ovf_eq

theorem State.Alike.q_eq (h : s.Alike t) : t.q = s.q := h.1.symm

theorem State.Alike.store (h : s.Alike t) (st : StoreSel) : Store.Alike (s.store st) (t.store st) := by
  cases st with
  | inb => exact h.inb
  | outb => exact h.outb

theorem State.Alike.slot (h : s.Alike t) (sel : SSel) : (s.slot sel).Alike (t.slot sel) := (h.store sel.store).slotAt _

theorem State.Alike.timer_eq (h : s.Alike t) (tsel : TSel) : t.timer tsel = s.timer tsel := by
  cases tsel with
  | itmr => exact congrArg FrameParser.itmr h.fp_eq
  | slot sel => exact (h.slot sel).tmr_eq

/-! ### One rule per update of the state -/

theorem State.Alike.set_rxb (h : s.Alike t) {r r' : RxBuffer} (hr : RxBuffer.Alike s.cfg.ringCap r r') :
    State.Alike { s with rxb := r } { t with rxb := r' } :=
  State.alike_iff.2 ⟨hr, h.inb, h.outb, by rw [h.shared]⟩

theorem State.Alike.popRxb (h : s.Alike t) : State.Alike { s with rxb := (rxbPop s.cfg.ringCap s.rxb).2 }
    { t with rxb := (rxbPop t.cfg.ringCap t.rxb).2 } :=
  h.set_rxb (by rw [h.cfg_eq]; exact h.rxb.pop)

theorem State.Alike.set_inb (h : s.Alike t) {v w : Store} (hv : Store.Alike v w) :
    State.Alike { s with inb := v } { t with inb := w } :=
  State.alike_iff.2 ⟨h.rxb, hv, h.outb, by rw [h.shared]⟩

theorem State.Alike.set_outb (h : s.Alike t) {v w : Store} (hv : Store.Alike v w) :
    State.Alike { s with outb := v } { t with outb := w } :=
  State.alike_iff.2 ⟨h.rxb, h.inb, hv, by rw [h.shared]⟩

theorem State.Alike.set_fp (h : s.Alike t) {p p' : FrameParser} (hp : p' = p) :
    State.Alike { s with fp := p } { t with fp := p' } :=
  State.alike_iff.2 ⟨h.rxb, h.inb, h.outb, by rw [hp, h.shared]⟩

theorem State.Alike.set_nak (h : s.Alike t) {n n' : NakGuard} (hn : n' = n) :
    State.Alike { s with nak := n } { t with nak := n' } :=
  State.alike_iff.2 ⟨h.rxb, h.inb, h.outb, by rw [hn, h.shared]⟩

theorem State.Alike.set_eng (h : s.Alike t) (e : Engine) : State.Alike { s with eng := e } { t with eng := e } :=
  State.alike_iff.2 ⟨h.rxb, h.inb, h.outb, by rw [h.shared]⟩

theorem State.Alike.set_trace (h : s.Alike t) {l m : List OutEvent} (hl : m = l) :
    State.Alike { s with trace := l } { t with trace := m } :=
  State.alike_iff.2 ⟨h.rxb, h.inb, h.outb, by rw [hl, h.shared]⟩

theorem State.Alike.set_outputs (h : s.Alike t) (rsp : Option Response) (l : List OutEvent) :
    State.Alike { s with rsp := rsp, trace := l } { t with rsp := rsp, trace := l } :=
  State.alike_iff.2 ⟨h.rxb, h.inb, h.outb, by rw [h.shared]⟩

theorem State.Alike.sample (h : s.Alike t) (now : U32) (txAnswer : Nat) (rest : List Transaction) :
    (s.sample now txAnswer rest).Alike (t.sample now txAnswer rest) :=
  State.alike_iff.2 ⟨h.rxb, h.inb, h.outb, by rw [State.sample, h.shared]; rfl⟩

theorem State.Alike.respond (h : s.Alike t) (c : Status) (v : U32) : (s.respond c v).Alike (t.respond c v) :=
  State.alike_iff.2 ⟨h.rxb, h.inb, h.outb, by rw [State.respond, h.shared]; rfl⟩

theorem State.Alike.ok (h : s.Alike t) {v w : U32} (hv : w = v) : (s.ok v).Alike (t.ok w) := by
  rw [hv]
  exact h.respond .ok v

theorem State.Alike.okByte (h : s.Alike t) {o p : Option Byte} (ho : p = o) : (s.okByte o).Alike (t.okByte p) := by
  rw [ho]
  cases o with
  | none => exact h.respond .fail _
  | some b => exact h.respond .ok _

theorem State.Alike.okIndex (h : s.Alike t) {o p : Option Nat} (ho : p = o) : (s.okIndex o).Alike (t.okIndex p) := by
  rw [ho]
  cases o with
  | none => exact h.respond .fail _
  | some i => exact h.respond .ok _

theorem State.Alike.okUnit (h : s.Alike t) {b c : Bool} (hb : c = b) : (s.okUnit b).Alike (t.okUnit c) := by
  rw [hb]
  cases b with
  | false => exact h.respond .fail _
  | true => exact h.respond .ok _

theorem State.Alike.transmit (h : s.Alike t) {l m : List Byte} (hl : m = l) : (s.transmit l).Alike (t.transmit m) :=
  h.set_trace (by rw [hl, h.trace_eq])

theorem State.Alike.setStore (h : s.Alike t) (st : StoreSel) {v w : Store} (hv : Store.Alike v w) :
    (s.setStore st v).Alike (t.setStore st w) := by
  cases st with
  | inb => exact h.set_inb hv
  | outb => exact h.set_outb hv

theorem State.Alike.mapSlot (h : s.Alike t) (sel : SSel) {f g : Slot → Slot}
    (hfg : (f (s.slot sel)).Alike (g (t.slot sel))) : (s.mapSlot sel f).Alike (t.mapSlot sel g) :=
  h.setStore sel.store ((h.store sel.store).modify hfg)

theorem State.Alike.mapTimer (h : s.Alike t) (tsel : TSel) (f : Timer → Timer) :
    (s.mapTimer tsel f).Alike (t.mapTimer tsel f) := by
  cases tsel with
  | itmr => exact h.set_fp (by rw [h.fp_eq])
  | slot sel => exact h.mapSlot sel ((bufBlind_set_tmr f).alike (h.slot sel))

theorem State.Alike.setFail (h : s.Alike t) {b c : Bool} (hb : c = b) : (s.setFail b).Alike (t.setFail c) :=
  h.set_fp (by rw [hb, h.fp_eq])

theorem State.Alike.stopItmr (h : s.Alike t) : s.stopItmr.Alike t.stopItmr := h.set_fp (by rw [h.fp_eq])

theorem State.Alike.clearRxb (h : s.Alike t) : s.clearRxb.Alike t.clearRxb := h.set_rxb (.clear _ _ _)

end

/-! ### Two states alike, each with the invariant -/

/-- Two states with the invariant that differ at most in what no operation may observe. -/
structure Twins (s t : State) : Prop where
  left : s.Inv
  right : t.Inv
  alike : s.Alike t

/-- The same answer, in states alike. -/
def AlikeAnswers {α : Type} (x y : α × State) : Prop := y.1 = x.1 ∧ x.2.Alike y.2

/-- Two branchings on the same condition are related where their branches are. -/
theorem rel_ite {α : Type} {R : α → α → Prop} {c d : Prop} [Decidable c] [Decidable d] {a a' b b' : α} (h : d ↔ c)
    (hpos : c → R a a') (hneg : ¬ c → R b b') : R (if c then a else b) (if d then a' else b') := by
  by_cases hc : c
  · rw [if_pos hc, if_pos (h.2 hc)]
    exact hpos hc
  · rw [if_neg hc, if_neg (mt h.1 hc)]
    exact hneg hc

section
variable {s t : State}

theorem Twins.slot_inv (h : Twins s t) (v : State → Store) (hv : ∀ u : State, u.Inv → Store.Inv u.cfg (v u)) (i : Nat) :
    (slotAt (v s) i).Inv s.cfg ∧ (slotAt (v t) i).Inv s.cfg := by
  refine ⟨Store.slotAt_inv (hv s h.left) i, ?_⟩
  rw [← h.alike.cfg_eq]
  exact Store.slotAt_inv (hv t h.right) i

/-! ### The parser -/

theorem fpOverflow_alike (h : s.Alike t) : AlikeAnswers (fpOverflow s) (fpOverflow t) :=
  ⟨by rw [fpOverflow, fpOverflow, h.fp_eq], h.clearRxb.setFail (by rw [h.fp_eq])⟩

theorem fpArm_alike (h : s.Alike t) : (fpArm s).Alike (fpArm t) :=
  rel_ite (by rw [h.fp_eq, h.cnt_eq]) (fun _ => h.set_fp (by rw [h.fp_eq, h.now_eq])) fun _ => h

theorem Twins.fpArm (h : Twins s t) : Twins (fpArm s) (fpArm t) :=
  ⟨fpArm_inv h.left, fpArm_inv h.right, fpArm_alike h.alike⟩

theorem fpExpire_alike (h : s.Alike t) : AlikeAnswers (fpExpire s) (fpExpire t) :=
  ⟨by rw [fpExpire, fpExpire, h.fp_eq], h.clearRxb.stopItmr.setFail (by rw [h.fp_eq])⟩

theorem fpDrop_alike (h : s.Alike t) : AlikeAnswers (fpDrop s) (fpDrop t) :=
  ⟨by rw [fpDrop, fpDrop, h.fp_eq], h.popRxb.setFail (by rw [h.fp_eq])⟩

theorem headerByte_alike (h : s.Alike t) {k : Nat} (hk : k < s.rxb.cnt) : headerByte t k = headerByte s k := by
  unfold headerByte
  rw [h.cfg_eq]
  exact h.rxb.ringByte_eq hk

theorem fpCopy_alike (h : Twins s t) (d full : Nat) :
    (fpCopy s full (slotAt s.inb d)).2.Alike (fpCopy t full (slotAt t.inb d)).2 := by
  obtain ⟨hinvs, hinvt⟩ := h.slot_inv State.inb (fun _ hu => hu.inb_inv) d
  unfold fpCopy
  rw [h.alike.cfg_eq, h.alike.rxb.contents_eq]
  exact (msDiscard_bufBlind.alike (h.alike.inb.slotAt d)).msAppendAll h.left.slotCap_le _ (msDiscard_inv hinvs)
    (msDiscard_inv hinvt)

/-- A frame's bytes are all there and fit a slot. -/
def FrameFits (full : Nat) (s : State) : Prop := full ≤ s.cfg.slotCap ∧ full ≤ s.q.length

/-- Step 7's test reads only the frame's bytes (R199). -/
theorem fpCopyGood_alike (h : Twins s t) (d : Nat) {full : Nat} (hf : FrameFits full s) :
    fpCopyGood t full (slotAt t.inb d) = fpCopyGood s full (slotAt s.inb d) := by
  obtain ⟨hfit, hlen⟩ := hf
  obtain ⟨_, _, -, -, -, -, hgoods⟩ :=
    fpCopy_spec (Store.slotAt_inv h.left.inb_inv d) h.left.slotCap_le hfit hlen
  obtain ⟨_, _, -, -, -, -, hgoodt⟩ :=
    fpCopy_spec (full := full) (Store.slotAt_inv h.right.inb_inv d) h.right.slotCap_le
      (by rwa [h.alike.cfg_eq]) (by rwa [h.alike.q_eq])
  rw [h.alike.q_eq] at hgoodt
  exact Bool.eq_iff_iff.2 (hgoodt.trans hgoods.symm)

theorem fpTake_alike (h : Twins s t) (d : Nat) {full : Nat} (hf : FrameFits full s) :
    AlikeAnswers (fpTake d full s) (fpTake d full t) := by
  have hcopied : Store.Alike (s.inb.modify d fun sl => (fpCopy s full sl).2)
      (t.inb.modify d fun sl => (fpCopy t full sl).2) := h.alike.inb.modify (fpCopy_alike h d full)
  refine rel_ite (by rw [fpCopyGood_alike h d hf]) (fun _ => ⟨rfl, ?_⟩) fun _ => ?_
  · have hring : RxBuffer.Alike s.cfg.ringCap (rxbPopN s.cfg.ringCap full s.rxb)
        (rxbPopN t.cfg.ringCap full t.rxb) := by
      rw [h.alike.cfg_eq]
      exact h.alike.rxb.popN full
    have hstopped := (h.alike.setFail (b := false) rfl).stopItmr
    exact (hstopped.set_rxb hring).set_inb (hcopied.msValidate (d := tAckWin) d h.alike.now_eq rfl)
  · exact fpDrop_alike (h.alike.set_inb (h.alike.inb.modify (msDiscard_bufBlind.alike (fpCopy_alike h d full))))

/-- A frame with a legal header, all there, fits a slot (R8 e). -/
theorem frameFits_of_header (hs : s.Inv) {m c l : Byte} (hok : headerOk s.cfg m c l = true)
    (hlen : ¬ s.rxb.cnt < l.toNat + minFrame) : FrameFits (l.toNat + minFrame) s := by
  obtain ⟨-, hwl⟩ := headerOk_iff.1 hok
  obtain ⟨-, hfit⟩ := admitted_fits hs.1 (.inl hwl)
  exact ⟨hfit, by rw [State.q_length]; exact Nat.le_of_not_lt hlen⟩

theorem fpFrame_alike (h : Twins s t) (d : Nat) (hc : ¬ s.rxb.cnt < minFrame) :
    AlikeAnswers (fpFrame d s) (fpFrame d t) := by
  have hheader (k : Nat) (hk : k < 4) : headerByte t k = headerByte s k :=
    headerByte_alike h.alike (hk.trans_le (Nat.le_of_not_lt hc))
  unfold fpFrame
  rw [hheader 0 (by omega), hheader 1 (by omega), hheader 2 (by omega)]
  refine rel_ite (by rw [h.alike.cfg_eq]) (fun hok => ?_) fun _ => fpDrop_alike h.alike
  exact rel_ite (by rw [h.alike.cnt_eq]) (fun _ => ⟨rfl, h.alike⟩) fun hlen =>
    fpTake_alike h d (frameFits_of_header h.left hok hlen)

theorem fpPending_alike (h : Twins s t) (d : Nat) : AlikeAnswers (fpPending d s) (fpPending d t) := by
  refine rel_ite (by rw [h.alike.fp_eq, h.alike.now_eq]) (fun _ => fpExpire_alike h.alike) fun _ => ?_
  exact rel_ite (by rw [h.alike.cnt_eq]) (fun _ => ⟨rfl, h.alike⟩) fun hc => fpFrame_alike h d hc

theorem fpParse_alike (h : Twins s t) (d : Nat) : AlikeAnswers (fpParse d s) (fpParse d t) := by
  refine rel_ite (by rw [h.alike.ovf_eq]) (fun _ => fpOverflow_alike h.alike) fun _ => ?_
  exact rel_ite (by rw [h.alike.cnt_eq]) (fun _ => ⟨rfl, fpArm_alike h.alike⟩) fun _ => fpPending_alike h.fpArm d

theorem Twins.fpParse (h : Twins s t) (d : Nat) : Twins (fpParse d s).2 (fpParse d t).2 := by
  obtain ⟨-, halike⟩ := fpParse_alike h d
  exact ⟨fpParse_inv h.left d, fpParse_inv h.right d, halike⟩

theorem fpMeetsTop_alike (h : Twins s t) (d : Nat) : fpMeetsTop d t = fpMeetsTop d s := by
  obtain ⟨hanswer, -⟩ := fpParse_alike h d
  rw [fpMeetsTop, fpMeetsTop, hanswer, h.alike.inb.meetsTop_eq]

theorem fpReset_alike (h : s.Alike t) : (fpReset s).Alike (fpReset t) := (h.setFail (b := false) rfl).stopItmr.clearRxb

/-! ### What an accepted frame's slot holds -/

/-- Where the parser accepts, the destination holds at least the four bytes of the shortest frame. -/
def OkHoldsFrame (d : Nat) (r : ParserOutcome × State) : Prop := r.1 = .ok → 4 ≤ (slotAt r.2.inb d).len.toNat

theorem OkHoldsFrame.of_ne {d : Nat} {r : ParserOutcome × State} (h : r.1 ≠ .ok) : OkHoldsFrame d r :=
  fun hok => absurd hok h

theorem latchOnDiscard_ne_ok (fail : Bool) : (latchOnDiscard fail).2 ≠ .ok := by cases fail <;> decide

theorem latchOnDrop_ne_ok (fail : Bool) : (latchOnDrop fail).2 ≠ .ok := by cases fail <;> decide

theorem fpAccept_len (hs : s.Inv) {d full : Nat} (hd : d < s.inb.length) (hf : FrameFits full s) :
    (slotAt (fpAccept d full s).inb d).len.toNat = full := by
  obtain ⟨hfit, hlen⟩ := hf
  obtain ⟨_, _, hcopy, ⟨hheld, -⟩, -⟩ := fpCopy_spec (Store.slotAt_inv hs.inb_inv d) hs.slotCap_le hfit hlen
  obtain ⟨hmodlen, hmod, -⟩ := changedAt_modify hd fun sl => (fpCopy s full sl).2
  obtain ⟨-, hself, -⟩ := msValidate_bumpedTo (hmodlen ▸ hd) s.now tAckWin
  rw [fpAccept, hself, hmod, hcopy, hheld, List.length_take, Nat.min_eq_left hlen]

theorem fpTake_okHolds (hs : s.Inv) {d full : Nat} (hd : d < s.inb.length) (hf : FrameFits full s) (h4 : 4 ≤ full) :
    OkHoldsFrame d (fpTake d full s) := by
  unfold fpTake
  split
  · exact fun _ => h4.trans_eq (fpAccept_len hs hd hf).symm
  · exact .of_ne (latchOnDrop_ne_ok _)

theorem fpFrame_okHolds (hs : s.Inv) {d : Nat} (hd : d < s.inb.length) : OkHoldsFrame d (fpFrame d s) := by
  unfold fpFrame
  split
  · rename_i hok
    split
    · exact .of_ne (by simp)
    · exact fpTake_okHolds hs hd (frameFits_of_header hs hok ‹_›) (Nat.le_add_left _ _)
  · exact .of_ne (latchOnDrop_ne_ok _)

theorem fpPending_okHolds (hs : s.Inv) {d : Nat} (hd : d < s.inb.length) : OkHoldsFrame d (fpPending d s) := by
  unfold fpPending
  split
  · exact .of_ne (latchOnDiscard_ne_ok _)
  · split
    · exact .of_ne (by simp)
    · exact fpFrame_okHolds hs hd

theorem fpParse_okHolds (hs : s.Inv) {d : Nat} (hd : d < s.inb.length) : OkHoldsFrame d (fpParse d s) := by
  unfold fpParse
  split
  · exact .of_ne (latchOnDiscard_ne_ok _)
  · split
    · exact .of_ne (by simp)
    · exact fpPending_okHolds (fpArm_inv hs) (by rwa [fpArm_inb])

/-- The command byte of an accepted frame is no hidden byte. -/
theorem fpParse_cmd_eq (h : Twins s t) {d : Nat} (hd : d < s.inb.length) (hok : (fpParse d s).1 = .ok) :
    (slotAt (fpParse d t).2.inb d).buf.read 1 = (slotAt (fpParse d s).2.inb d).buf.read 1 := by
  have h4 := fpParse_okHolds h.left hd hok
  exact ((h.fpParse d).alike.inb.slotAt d).read_eq (by omega)

end

end Sys2Proof.Machine
end

section
/-! PROOFS. What no operation can observe (R25, R33, I4), on the machine: the guard, the engine and the receive path
answer alike in states alike, and leave states alike. -/

namespace Sys2Proof.Machine

section
variable {s t : State}

/-! ### The guard and the engine -/

theorem nakRequest_alike (h : s.Alike t) : (nakRequest s).Alike (nakRequest t) := by
  refine rel_ite (by rw [h.nak_eq]) (fun _ => h.set_nak (by rw [h.nak_eq])) fun _ => ?_
  exact (h.set_nak (by rw [h.nak_eq])).transmit (by rw [h.cfg_eq])

theorem nakEmits_alike (h : s.Alike t) : nakEmits t = nakEmits s := by rw [nakEmits, nakEmits, h.nak_eq]

theorem nakResetCounter_alike (h : s.Alike t) : (nakResetCounter s).Alike (nakResetCounter t) :=
  h.set_nak (by rw [h.nak_eq])

theorem nakResetState_alike (h : s.Alike t) : (nakResetState s).Alike (nakResetState t) :=
  h.set_nak (by rw [h.nak_eq])

theorem countFailure_alike (h : s.Alike t) (i : Nat) : (countFailure i s).Alike (countFailure i t) :=
  h.set_outb (h.outb.modify_blind i msIncTx_bufBlind)

theorem resend_alike (h : s.Alike t) (i : Nat) : (resend i s).Alike (resend i t) :=
  (h.transmit (h.outb.slotAt i).bytes_eq).set_outb (h.outb.msMarkRetx i h.now_eq (by rw [h.cfg_eq]))

theorem retrySlot_alike (h : s.Alike t) (i : Nat) : AlikeAnswers (retrySlot i s) (retrySlot i t) := by
  have hcount := countFailure_alike h i
  exact rel_ite (by rw [(hcount.outb.slotAt i).txc_eq]) (fun _ => ⟨rfl, hcount⟩) fun _ => ⟨rfl, resend_alike hcount i⟩

theorem retryMeetsTop_alike (h : s.Alike t) (i : Nat) : retryMeetsTop i t = retryMeetsTop i s := by
  obtain ⟨hfailed, -⟩ := retrySlot_alike h i
  rw [retryMeetsTop, retryMeetsTop, hfailed, h.outb.meetsTop_eq]

theorem freeInbound_alike (h : s.Alike t) (d : Nat) : (freeInbound d s).Alike (freeInbound d t) :=
  h.set_inb (h.inb.msDelete d)

theorem confirmOldest_alike (h : s.Alike t) : (confirmOldest s).Alike (confirmOldest t) := by
  unfold confirmOldest
  rw [h.outb.msGetOldest_eq]
  split
  · exact h
  · exact h.set_outb (h.outb.msDelete _)

theorem retryOldest_alike (h : s.Alike t) : AlikeAnswers (retryOldest s) (retryOldest t) := by
  unfold retryOldest
  rw [h.outb.msGetOldest_eq]
  split
  · exact ⟨rfl, h⟩
  · obtain ⟨hfailed, halike⟩ := retrySlot_alike h _
    exact ⟨by rw [hfailed], halike⟩

theorem engDispatch_alike (h : s.Alike t) {d : Nat}
    (hcmd : (slotAt t.inb d).buf.read 1 = (slotAt s.inb d).buf.read 1) :
    AlikeAnswers (engDispatch d s) (engDispatch d t) := by
  refine rel_ite (by rw [hcmd]) (fun _ => ⟨rfl, confirmOldest_alike (freeInbound_alike h d)⟩) fun _ => ?_
  refine rel_ite (by rw [hcmd, h.cfg_eq]) (fun _ => retryOldest_alike (freeInbound_alike h d)) fun _ => ?_
  exact ⟨rfl, h.transmit (by rw [h.cfg_eq])⟩

theorem dispatchMeetsTop_alike (h : s.Alike t) {d : Nat}
    (hcmd : (slotAt t.inb d).buf.read 1 = (slotAt s.inb d).buf.read 1) :
    dispatchMeetsTop d t = dispatchMeetsTop d s := by
  have hretry : (fun o => retryMeetsTop o t) = fun o => retryMeetsTop o s := funext (retryMeetsTop_alike h)
  rw [dispatchMeetsTop, dispatchMeetsTop, hcmd, h.cfg_eq, h.outb.msGetOldest_eq, hretry]

theorem engAfterParse_alike (h : s.Alike t) {d : Nat} {r : ParserOutcome}
    (hcmd : r = .ok → (slotAt t.inb d).buf.read 1 = (slotAt s.inb d).buf.read 1) :
    AlikeAnswers (engAfterParse d r s) (engAfterParse d r t) := by
  cases r with
  | tooFew | byteDropped | timeout => exact ⟨rfl, h⟩
  | reqNak =>
    have hrequest := nakRequest_alike h
    exact ⟨by rw [engAfterParse, engAfterParse, hrequest.nak_eq], hrequest⟩
  | ok => exact engDispatch_alike (nakResetCounter_alike h) (hcmd rfl)

theorem engParse_alike (h : Twins s t) : AlikeAnswers (engParse s) (engParse t) := by
  unfold engParse
  rw [h.alike.inb.msGetFree_eq]
  split
  · exact ⟨rfl, h.alike⟩
  · rename_i d hd
    obtain ⟨hanswer, halike⟩ := fpParse_alike h d
    rw [hanswer]
    exact engAfterParse_alike halike (fpParse_cmd_eq h (msGetFree_some.1 hd).1)

theorem engParseMeetsTop_alike (h : Twins s t) : engParseMeetsTop t = engParseMeetsTop s := by
  unfold engParseMeetsTop
  rw [h.alike.inb.msGetFree_eq]
  cases hd : msGetFree s.inb with
  | none => rfl
  | some d =>
    obtain ⟨hanswer, halike⟩ := fpParse_alike h d
    rw [Option.any_some, Option.any_some, fpMeetsTop_alike h, hanswer]
    by_cases hok : (fpParse d s).1 = .ok
    · rw [dispatchMeetsTop_alike halike (fpParse_cmd_eq h (msGetFree_some.1 hd).1 hok)]
    · rw [decide_eq_false hok, Bool.false_and, Bool.false_and]

theorem stage_alike (h : Twins s t) (cmd : Byte) {data : List Byte} (hfit : data.length + 4 ≤ s.cfg.slotCap) (o : Nat) :
    (stage s.cfg cmd data (slotAt s.outb o)).Alike (stage t.cfg cmd data (slotAt t.outb o)) := by
  obtain ⟨hinvs, hinvt⟩ := h.slot_inv State.outb (fun _ hu => hu.outb_inv) o
  rw [h.alike.cfg_eq]
  exact (h.alike.outb.slotAt o).stage h.left.slotCap_le hinvs hinvt cmd hfit

theorem stagedFrame_alike (h : Twins s t) (cmd : Byte) {data : List Byte} (hfit : data.length + 4 ≤ s.cfg.slotCap)
    (o : Nat) : stagedFrame t.cfg cmd data (slotAt t.outb o) = stagedFrame s.cfg cmd data (slotAt s.outb o) := by
  obtain ⟨hinvs, hinvt⟩ := h.slot_inv State.outb (fun _ hu => hu.outb_inv) o
  rw [h.alike.cfg_eq, stagedFrame_eq h.left.slotCap_le cmd data _ hinvs hfit,
    stagedFrame_eq h.left.slotCap_le cmd data _ hinvt hfit]

theorem bytesSent_alike (h : s.Alike t) {l m : List Byte} (hl : m = l) : t.bytesSent m = s.bytesSent l := by
  rw [hl, State.bytesSent, State.bytesSent, h.txAnswer_eq]

theorem engSend_alike (h : Twins s t) (cmd : Byte) {data : List Byte} (hfit : data.length + 4 ≤ s.cfg.slotCap)
    (o : Nat) : AlikeAnswers (engSend cmd data o s) (engSend cmd data o t) := by
  have hburst := stagedFrame_alike h cmd hfit o
  have hstaged : Store.Alike (s.outb.modify o (stage s.cfg cmd data)) (t.outb.modify o (stage t.cfg cmd data)) :=
    h.alike.outb.modify (stage_alike h cmd hfit o)
  have hsent := (h.alike.set_outb hstaged).transmit hburst
  refine rel_ite (by rw [bytesSent_alike h.alike hburst]) (fun _ => ⟨rfl, ?_⟩) fun _ => ⟨rfl, ?_⟩
  · exact hsent.set_outb (hstaged.msValidate o h.alike.now_eq (by rw [h.alike.cfg_eq]))
  · exact hsent.set_outb (hstaged.modify_blind o msDiscard_bufBlind)

theorem engTransmit_alike (h : Twins s t) (cmd : Byte) (data : List Byte) :
    AlikeAnswers (engTransmit cmd data s) (engTransmit cmd data t) := by
  refine rel_ite Iff.rfl (fun _ => ⟨rfl, h.alike⟩) fun _ => ?_
  refine rel_ite (by rw [h.alike.cfg_eq]) (fun hwl => ?_) fun _ => ⟨rfl, h.alike⟩
  rw [h.alike.outb.msGetFree_eq]
  split
  · exact ⟨rfl, h.alike⟩
  · obtain ⟨-, hfit⟩ := admitted_fits h.left.1 (.inr (wlOk_iff.1 hwl))
    exact engSend_alike h cmd hfit _

theorem engTransmitMeetsTop_alike (h : Twins s t) (cmd : Byte) (data : List Byte) :
    engTransmitMeetsTop cmd data t = engTransmitMeetsTop cmd data s := by
  obtain ⟨hsent, -⟩ := engTransmit_alike h cmd data
  have htop : (fun o => meetsTop o t.outb) = fun o => meetsTop o s.outb := funext h.alike.outb.meetsTop_eq
  rw [engTransmitMeetsTop, engTransmitMeetsTop, hsent, h.alike.outb.msGetFree_eq, htop]

theorem timeoutTurn_alike {x y : Bool × State} (h : AlikeAnswers x y) (i : Nat) :
    AlikeAnswers (timeoutTurn x i) (timeoutTurn y i) := by
  obtain ⟨hfst, halike⟩ := h
  obtain ⟨hfailed, hretried⟩ := retrySlot_alike halike i
  refine rel_ite (by rw [(halike.outb.slotAt i).overdue_eq, halike.now_eq]) (fun _ => ⟨?_, hretried⟩) fun _ => ?_
  · rw [hfst, hfailed]
  · exact ⟨hfst, halike⟩

theorem foldl_timeoutTurn_alike (is : List Nat) {x y : Bool × State} (h : AlikeAnswers x y) :
    AlikeAnswers (is.foldl timeoutTurn x) (is.foldl timeoutTurn y) := by
  induction is generalizing x y with
  | nil => exact h
  | cons i is ih => exact ih (timeoutTurn_alike h i)

theorem handleTimeouts_alike (h : s.Alike t) : AlikeAnswers (handleTimeouts s) (handleTimeouts t) := by
  rw [handleTimeouts, handleTimeouts, h.cfg_eq]
  exact foldl_timeoutTurn_alike _ ⟨rfl, h⟩

theorem turnMeetsTop_alike (h : s.Alike t) (i : Nat) : turnMeetsTop i t = turnMeetsTop i s := by
  rw [turnMeetsTop, turnMeetsTop, (h.outb.slotAt i).overdue_eq, h.now_eq, retryMeetsTop_alike h]

theorem scanMeetsTop_alike (h : s.Alike t) : scanMeetsTop t = scanMeetsTop s := by
  rw [scanMeetsTop, scanMeetsTop, h.cfg_eq]
  refine congrArg _ (funext fun i => ?_)
  obtain ⟨-, hearlier⟩ := foldl_timeoutTurn_alike (List.range i) (x := (false, s)) (y := (false, t)) ⟨rfl, h⟩
  exact turnMeetsTop_alike hearlier i

theorem stopReception_alike (h : s.Alike t) : s.stopReception.Alike t.stopReception :=
  State.Alike.set_eng (h.set_trace (by rw [h.trace_eq])) ⟨false⟩

theorem startReception_alike (h : s.Alike t) : s.startReception.Alike t.startReception :=
  State.Alike.set_eng (h.set_trace (by rw [h.trace_eq])) ⟨true⟩

theorem resetAll_alike (h : s.Alike t) : (resetAll s).Alike (resetAll t) := by
  have hstopped := stopReception_alike h
  have hcleared := (hstopped.set_inb h.inb.msClearAll).set_outb h.outb.msClearAll
  exact startReception_alike (nakResetState_alike (nakResetCounter_alike (fpReset_alike hcleared)))

theorem rxRestart_alike (h : s.Alike t) : (rxRestart s).Alike (rxRestart t) :=
  rel_ite (by rw [h.fp_eq]) (fun _ => h.set_fp (by rw [h.fp_eq, h.now_eq])) fun _ => h

theorem push_alike (h : Twins s t) (b : Byte) : RxBuffer.Alike s.cfg.ringCap (rxbPush s.cfg.ringCap b s.rxb).2
    (rxbPush t.cfg.ringCap b t.rxb).2 := by
  obtain ⟨-, hcnt, hmem, -⟩ := h.left.rxb_inv
  obtain ⟨-, -, hmem', -⟩ := h.right.rxb_inv
  rw [h.alike.cfg_eq]
  exact h.alike.rxb.push hmem hmem' hcnt b

theorem pop_answer_alike (h : Twins s t) : (rxbPop t.cfg.ringCap t.rxb).1 = (rxbPop s.cfg.ringCap s.rxb).1 := by
  obtain ⟨hrd, -⟩ := h.left.rxb_inv
  obtain ⟨hrd', -⟩ := h.right.rxb_inv
  rw [h.alike.cfg_eq] at hrd' ⊢
  exact h.alike.rxb.pop_answer_eq hrd hrd'

theorem msAppend_alike (h : Twins s t) (sel : SSel) (b : Byte) :
    (msAppend t.cfg.slotCap b (t.slot sel)).1 = (msAppend s.cfg.slotCap b (s.slot sel)).1 ∧
    (msAppend s.cfg.slotCap b (s.slot sel)).2.Alike (msAppend t.cfg.slotCap b (t.slot sel)).2 := by
  obtain ⟨⟨hbuf, -, hlen, -⟩, ⟨hbuf', -⟩⟩ :=
    h.slot_inv (fun u => u.store sel.store) (fun _ hu => hu.store_inv sel.store) sel.idx.toNat
  rw [h.alike.cfg_eq]
  exact (h.alike.slot sel).msAppend h.left.slotCap_le hbuf hbuf' hlen b

end

end Sys2Proof.Machine
end

section
/-! PROOFS. What no operation can observe (R25, R33, I4): every instruction and every step takes two states alike to
states alike, with the same response and output trace. -/

namespace Sys2Proof.Machine

/-! ### Transactions, instructions and steps -/

/-- Where the first result is a next state, the second is a state alike. -/
def Follows (x y : Result) : Prop := ∀ s', x = .next s' → ∃ t', y = .next t' ∧ s'.Alike t'

/-- Run in two states alike, the body leaves states alike. -/
def KeepsAlike (body : State → State) : Prop := ∀ {u v : State}, Twins u v → (body u).Alike (body v)

/-- The test answers the same in two states alike. -/
def BlindTest (top : State → Bool) : Prop := ∀ {u v : State}, Twins u v → top v = top u

section
variable {s t : State} {legal legal' : Bool} {top : State → Bool} {body : State → State}

theorem Twins.fresh (h : Twins s t) : Twins s.fresh t.fresh := ⟨h.left, h.right, h.alike.set_outputs none []⟩

theorem Twins.idxLegal_eq (h : Twins s t) (i : BitVec 7) : idxLegal t.cfg i = idxLegal s.cfg i := by
  rw [h.alike.cfg_eq]

theorem Twins.tselLegal_eq (h : Twins s t) (tsel : TSel) : tselLegal t.cfg tsel = tselLegal s.cfg tsel := by
  rw [h.alike.cfg_eq]

theorem transact_follows (h : Twins s t) (hb : KeepsAlike body) : Follows (transact s body) (transact t body) :=
  fun s' hs => by
    obtain ⟨-, rfl⟩ := transact_next hs
    exact ⟨_, transact_wf h.right.1 body, hb h.fresh⟩

theorem transactIf_follows (h : Twins s t) (hl : legal' = legal) (hb : KeepsAlike body) :
    Follows (transactIf legal s body) (transactIf legal' t body) := by
  rw [hl, transactIf_eq_transact, transactIf_eq_transact]
  refine transact_follows h fun {u v} huv => ?_
  cases legal with
  | false => exact huv.alike.respond .illegal 0#32
  | true => exact hb huv

theorem transactBump_follows (h : Twins s t) (ht : BlindTest top) (hb : KeepsAlike body) :
    Follows (transactBump top s body) (transactBump top t body) := fun s' hs => by
  obtain ⟨-, htop, rfl⟩ := transactBump_next hs
  exact ⟨_, (transactBump_below ((ht h.fresh).trans htop) body).trans (transact_wf h.right.1 body), hb h.fresh⟩

theorem transactBumpIf_follows (h : Twins s t) (hl : legal' = legal) (ht : BlindTest top) (hb : KeepsAlike body) :
    Follows (transactBumpIf legal top s body) (transactBumpIf legal' top t body) := by
  rw [hl]
  refine transactBump_follows h (fun huv => by rw [ht huv]) fun {u v} huv => ?_
  cases legal with
  | false => exact huv.alike.respond .illegal 0#32
  | true => exact hb huv

/-- Every instruction takes two states alike to states alike, with the same response and trace. -/
theorem exec_follows (i : Instr) (h : Twins s t) : Follows (exec i s) (exec i t) := by
  unfold exec
  cases i with
  -- the operations that only answer a value (R70)
  | engCountTimeouts =>
    exact transact_follows h fun huv => huv.alike.ok (by rw [huv.alike.outb.msCountTimedout_eq, huv.alike.now_eq])
  | rxbCount => exact transact_follows h fun huv => huv.alike.ok (congrArg natCode huv.alike.cnt_eq)
  | rxbOvf => exact transact_follows h fun huv => huv.alike.ok (congrArg boolCode huv.alike.ovf_eq)
  | cksCompute _ | cksVerify _ => exact transact_follows h fun huv => huv.alike.ok rfl
  | msCountTimedout st =>
    exact transact_follows h fun huv => huv.alike.ok (by rw [(huv.alike.store st).msCountTimedout_eq, huv.alike.now_eq])
  | msOldestTimedout st =>
    exact transact_follows h fun huv =>
      huv.alike.ok (by rw [(huv.alike.store st).msOldestTimedout_eq, huv.alike.now_eq])
  | fpRead => exact transact_follows h fun huv => huv.alike.ok (by rw [huv.alike.fp_eq])
  | nakRead _ => exact transact_follows h fun huv => huv.alike.ok (by rw [huv.alike.nak_eq])
  | tmrTimedout tsel =>
    exact transactIf_follows h (h.tselLegal_eq tsel) fun huv =>
      huv.alike.ok (by rw [huv.alike.timer_eq, huv.alike.now_eq])
  | tmrRead tsel _ =>
    exact transactIf_follows h (h.tselLegal_eq tsel) fun huv => huv.alike.ok (by rw [huv.alike.timer_eq])
  | msReadInfo sel f =>
    exact transactIf_follows h (h.idxLegal_eq _) fun huv => huv.alike.ok ((huv.alike.slot sel).field_eq f)
  | engRxLen j =>
    exact transactIf_follows h (h.idxLegal_eq j) fun huv =>
      huv.alike.ok (congrArg byteCode (huv.alike.inb.slotAt _).len_eq)
  | engGetNewestRx => exact transact_follows h fun huv => huv.alike.okIndex huv.alike.inb.msGetNewest_eq
  | msGetFree st => exact transact_follows h fun huv => huv.alike.okIndex (huv.alike.store st).msGetFree_eq
  | msGetOldest st => exact transact_follows h fun huv => huv.alike.okIndex (huv.alike.store st).msGetOldest_eq
  | msGetNewest st => exact transact_follows h fun huv => huv.alike.okIndex (huv.alike.store st).msGetNewest_eq
  | rxbPeek off =>
    exact transact_follows h fun huv =>
      huv.alike.okByte (by rw [huv.alike.cfg_eq]; exact huv.alike.rxb.rxbPeek_eq off.toNat)
  | engRxByte j off =>
    exact transactIf_follows h (h.idxLegal_eq j) fun huv =>
      huv.alike.okByte ((huv.alike.inb.slotAt _).msReadByte_eq _)
  | msReadByte sel off =>
    exact transactIf_follows h (h.idxLegal_eq _) fun huv => huv.alike.okByte ((huv.alike.slot sel).msReadByte_eq _)
  -- the ring
  | rxbPush b =>
    exact transact_follows h fun huv => (huv.alike.set_rxb (push_alike huv b)).okUnit
      (by rw [huv.alike.cfg_eq]; exact huv.alike.rxb.push_answer_eq b)
  | rxbPop => exact transact_follows h fun huv => huv.alike.popRxb.okByte (pop_answer_alike huv)
  | rxbClear => exact transact_follows h fun huv => huv.alike.clearRxb.ok rfl
  | rxByte b =>
    exact transact_follows h fun {u v} huv => (rxRestart_alike huv.alike).set_rxb
      (by rw [rxRestart_cfg]; exact push_alike huv b)
  -- the timers
  | tmrStart tsel d =>
    exact transactIf_follows h (h.tselLegal_eq tsel) fun huv =>
      State.Alike.ok (by rw [huv.alike.now_eq]; exact huv.alike.mapTimer tsel _) rfl
  | tmrStop tsel => exact transactIf_follows h (h.tselLegal_eq tsel) fun huv => (huv.alike.mapTimer tsel _).ok rfl
  | tmrRestart tsel =>
    exact transactIf_follows h (h.tselLegal_eq tsel) fun huv =>
      State.Alike.ok (by rw [huv.alike.now_eq]; exact huv.alike.mapTimer tsel _) rfl
  -- the slot stores
  | msAppend sel b =>
    exact transactIf_follows h (h.idxLegal_eq _) fun huv => by
      obtain ⟨hanswer, hslot⟩ := msAppend_alike huv sel b
      exact (huv.alike.mapSlot sel hslot).okUnit hanswer
  | msDiscard sel =>
    exact transactIf_follows h (h.idxLegal_eq _) fun huv =>
      (huv.alike.mapSlot sel (msDiscard_bufBlind.alike (huv.alike.slot sel))).ok rfl
  | msIncTx sel =>
    exact transactIf_follows h (h.idxLegal_eq _) fun huv =>
      (huv.alike.mapSlot sel (msIncTx_bufBlind.alike (huv.alike.slot sel))).ok rfl
  | msResetDeadline sel =>
    exact transactIf_follows h (h.idxLegal_eq _) fun huv => State.Alike.ok (by
      rw [huv.alike.now_eq]
      exact huv.alike.mapSlot sel ((msResetDeadline_bufBlind _).alike (huv.alike.slot sel))) rfl
  | msValidate sel d =>
    exact transactBumpIf_follows h (h.idxLegal_eq _) (fun huv => (huv.alike.store sel.store).meetsTop_eq _) fun huv =>
      (huv.alike.setStore sel.store ((huv.alike.store sel.store).msValidate _ huv.alike.now_eq rfl)).ok rfl
  | msMarkRetx sel d =>
    exact transactBumpIf_follows h (h.idxLegal_eq _) (fun huv => (huv.alike.store sel.store).meetsTop_eq _) fun huv =>
      (huv.alike.setStore sel.store ((huv.alike.store sel.store).msMarkRetx _ huv.alike.now_eq rfl)).ok rfl
  | msDelete sel =>
    exact transactIf_follows h (h.idxLegal_eq _) fun huv =>
      (huv.alike.setStore sel.store ((huv.alike.store sel.store).msDelete _)).ok rfl
  | msClearAll st =>
    exact transact_follows h fun huv => (huv.alike.setStore st (huv.alike.store st).msClearAll).ok rfl
  | engDeleteRx j =>
    exact transactIf_follows h (h.idxLegal_eq j) fun huv => (freeInbound_alike huv.alike j.toNat).ok rfl
  -- the parser and the guard
  | fpParse d =>
    exact transactBumpIf_follows h (h.idxLegal_eq d) (fun huv => fpMeetsTop_alike huv _) fun huv => by
      obtain ⟨hanswer, halike⟩ := fpParse_alike huv d.toNat
      exact halike.ok (congrArg ParserOutcome.code hanswer)
  | fpReset => exact transact_follows h fun huv => (fpReset_alike huv.alike).ok rfl
  | nakRequest =>
    exact transact_follows h fun huv => (nakRequest_alike huv.alike).ok (congrArg boolCode (nakEmits_alike huv.alike))
  | nakResetCounter => exact transact_follows h fun huv => (nakResetCounter_alike huv.alike).ok rfl
  | nakResetState => exact transact_follows h fun huv => (nakResetState_alike huv.alike).ok rfl
  -- the engine
  | engParse =>
    exact transactBump_follows h engParseMeetsTop_alike fun huv => by
      obtain ⟨hanswer, halike⟩ := engParse_alike huv
      exact halike.ok (congrArg EngineOutcome.code hanswer)
  | engTransmit cmd data =>
    exact transactBump_follows h (fun huv => engTransmitMeetsTop_alike huv cmd data) fun huv => by
      obtain ⟨hanswer, halike⟩ := engTransmit_alike huv cmd data
      exact halike.okUnit hanswer
  | engHandleTimeouts =>
    exact transactBump_follows h (fun huv => scanMeetsTop_alike huv.alike) fun huv => by
      obtain ⟨hanswer, halike⟩ := handleTimeouts_alike huv.alike
      exact halike.ok (by rw [hanswer])
  | engResetAll => exact transact_follows h fun huv => (resetAll_alike huv.alike).ok rfl

theorem Twins.sample (h : Twins s t) (now : U32) (txAnswer : Nat) (rest : List Transaction) :
    Twins (s.sample now txAnswer rest) (t.sample now txAnswer rest) :=
  ⟨h.left, h.right, h.alike.sample now txAnswer rest⟩

theorem Twins.set_pending (h : Twins s t) (rest : List Transaction) :
    Twins { s with pending := rest } { t with pending := rest } :=
  ⟨h.left, h.right, State.alike_iff.2 ⟨h.alike.rxb, h.alike.inb, h.alike.outb, by rw [h.alike.shared]⟩⟩

theorem rejected_follows (e : Reject) (h : Twins s t) : Follows (rejected e s) (rejected e t) := by
  cases e with
  | unknownOpcode _ | mustBeZero _ => exact transact_follows h fun huv => huv.alike.respond .illegal 0#32
  | payloadLength want have_ => exact fun _ hs => by cases hs

theorem hardwareReset_follows (h : Twins s t) (rest : List Transaction) :
    Follows (hardwareReset { s with pending := rest }) (hardwareReset { t with pending := rest }) :=
  transact_follows (h.set_pending rest) fun huv => by
    rw [huv.alike.cfg_eq, huv.alike.pending_eq]
    exact .refl _

/-- Every step takes two states alike to states alike. -/
theorem step_follows (h : Twins s t) : Follows (step s) (step t) := by
  unfold step
  rw [h.alike.pending_eq]
  split
  · rintro s' hs
    cases hs
    exact ⟨t, rfl, h.alike⟩
  · exact hardwareReset_follows h _
  · split
    · exact exec_follows _ (h.sample _ _ _)
    · exact rejected_follows _ (h.sample _ _ _)

end

/-- Settles O14: each operation of two states alike answers alike, from the slots and the ring up to the step. -/
theorem hiddenBytesAreNeverObserved : Obligations.HiddenBytesAreNeverObserved := fun _ _ s' hs ht halike h =>
  step_follows ⟨hs, ht, halike⟩ s' h

end Sys2Proof.Machine
end

section
/-! PROOFS. What an instruction keeps and what a step runs (R64 to R66, R70, R74, R304): a reading operation writes its
response alone, and no instruction writes the configuration or the transaction's inputs. -/

namespace Sys2Proof.Machine

/-! ### What a step runs (R64 to R66) -/

section
variable {s : State}

/-- With nothing offered the block stays as it is (R64). -/
theorem step_of_idle (hp : s.pending = []) : step s = .next s := by
  rw [step, hp]

/-- An offer that decodes is its instruction on the sampled inputs (R65, R66). -/
theorem step_of_decode {now : U32} {txAnswer : Nat} {o : Offer} {rest : List Transaction} {i : Instr}
    (hp : s.pending = .offer now txAnswer o :: rest) (hd : decode o = .ok i) :
    step s = exec i (s.sample now txAnswer rest) := by
  rw [step, hp]
  dsimp only
  rw [hd]

end

/-- Settles O8: by the equation of the step for an offer that decodes, and for no offer. -/
theorem stepRunsTheDecodedInstruction : Obligations.StepRunsTheDecodedInstruction :=
  ⟨fun _ _ _ _ _ _ hp hd => step_of_decode hp hd, fun _ hp => step_of_idle hp⟩

/-! ### The response alone (R70) -/

/-- What stays the same over an answer: all but the response. -/
def ResponseFrame (s t : State) : Prop := t = { s with rsp := t.rsp }

theorem State.ok_frame (s : State) (v : U32) : ResponseFrame s (s.ok v) := rfl

theorem State.okByte_frame (s : State) (o : Option Byte) : ResponseFrame s (s.okByte o) := by
  cases o with
  | none => rfl
  | some b => rfl

theorem State.okIndex_frame (s : State) (o : Option Nat) : ResponseFrame s (s.okIndex o) := by
  cases o with
  | none => rfl
  | some i => rfl

theorem State.okUnit_frame (s : State) (accepted : Bool) : ResponseFrame s (s.okUnit accepted) := by
  cases accepted with
  | false => rfl
  | true => rfl

section
variable {s t : State} {i : Instr} {legal : Bool} {top : State → Bool} {body : State → State}

theorem transact_response (h : transact s body = .next t) (hb : ∀ u, ResponseFrame u (body u)) :
    ResponseFrame s.fresh t := by
  obtain ⟨-, rfl⟩ := transact_next h
  exact hb s.fresh

theorem transactIf_response (h : transactIf legal s body = .next t) (hb : ∀ u, ResponseFrame u (body u)) :
    ResponseFrame s.fresh t := by
  obtain ⟨-, ⟨-, rfl⟩ | ⟨-, rfl⟩⟩ := transactIf_next h
  · exact hb s.fresh
  · rfl

/-- A reading operation writes its response, over the outputs of the transaction before, and nothing else. -/
theorem exec_read_frame (hi : i.readOnly = true) (h : exec i s = .next t) : ResponseFrame s.fresh t := by
  unfold exec at h
  cases i with
  | engCountTimeouts | rxbCount | rxbOvf | cksCompute _ | cksVerify _ | msCountTimedout _ | msOldestTimedout _
  | fpRead | nakRead _ => exact transact_response h fun u => u.ok_frame _
  | tmrTimedout _ | tmrRead _ _ | msReadInfo _ _ | engRxLen _ => exact transactIf_response h fun u => u.ok_frame _
  | engGetNewestRx | msGetFree _ | msGetOldest _ | msGetNewest _ =>
    exact transact_response h fun u => u.okIndex_frame _
  | rxbPeek _ => exact transact_response h fun u => u.okByte_frame _
  | engRxByte _ _ | msReadByte _ _ => exact transactIf_response h fun u => u.okByte_frame _
  | _ => cases hi

theorem ResponseFrame.fresh_eq (h : ResponseFrame s t) : t.fresh = s.fresh := by
  rw [h]
  rfl

/-- No instruction observes the outputs of the transaction before. -/
theorem exec_fresh (i : Instr) (s : State) : exec i s.fresh = exec i s := by
  cases i <;> rfl

/-- A reading operation issued again gives the state it gave. -/
theorem exec_read_again (hi : i.readOnly = true) (h : exec i s = .next t) : exec i t = .next t := by
  have hfresh : t.fresh = s.fresh := (exec_read_frame hi h).fresh_eq
  calc exec i t = exec i t.fresh := (exec_fresh i t).symm
    _ = exec i s.fresh := by rw [hfresh]
    _ = exec i s := exec_fresh i s
    _ = .next t := h

end

/-- Settles O19: a reading operation writes its response alone, and no instruction observes the response it finds. -/
theorem readsChangeNothing : Obligations.ReadsChangeNothing := fun _ _ _ hi h =>
  ⟨exec_read_frame hi h, exec_read_again hi h⟩

/-! ### The configuration and the inputs (R65, R66, R74, R304) -/

/-- What a transaction is given: the configuration, the sampled inputs and the transactions still to come. -/
def State.inputs (s : State) : Config × U32 × Nat × List Transaction := (s.cfg, s.now, s.txAnswer, s.pending)

section
variable {s t : State}

theorem ResponseFrame.inputs_eq (h : ResponseFrame s t) : t.inputs = s.inputs := by
  rw [h]
  rfl

theorem ParserFrame.inputs_eq (h : ParserFrame s t) : t.inputs = s.inputs := by
  rw [h]
  rfl

theorem EngineFrame.inputs_eq (h : EngineFrame s t) : t.inputs = s.inputs := by
  rw [h]
  rfl

theorem OutboundFrame.inputs_eq (h : OutboundFrame s t) : t.inputs = s.inputs := (EngineFrame.of_outbound h).inputs_eq

theorem inputs_eq_iff : t.inputs = s.inputs ↔
    t.cfg = s.cfg ∧ t.now = s.now ∧ t.txAnswer = s.txAnswer ∧ t.pending = s.pending := by
  simp [State.inputs]

end

theorem State.okByte_inputs (s : State) (o : Option Byte) : (s.okByte o).inputs = s.inputs :=
  (s.okByte_frame o).inputs_eq

theorem State.okUnit_inputs (s : State) (b : Bool) : (s.okUnit b).inputs = s.inputs :=
  (s.okUnit_frame b).inputs_eq

theorem State.setStore_inputs (s : State) (st : StoreSel) (v : Store) : (s.setStore st v).inputs = s.inputs := by
  simp [State.inputs]

theorem State.mapSlot_inputs (s : State) (sel : SSel) (f : Slot → Slot) :
    (s.mapSlot sel f).inputs = s.inputs := s.setStore_inputs _ _

theorem State.mapTimer_inputs (s : State) (tsel : TSel) (f : Timer → Timer) :
    (s.mapTimer tsel f).inputs = s.inputs := by
  cases tsel with
  | itmr => rfl
  | slot sel => exact s.mapSlot_inputs sel _

theorem rxRestart_inputs (s : State) : (rxRestart s).inputs = s.inputs := by
  unfold rxRestart
  split
  · rfl
  · rfl

theorem nakRequest_inputs (s : State) : (nakRequest s).inputs = s.inputs := by
  unfold nakRequest
  split
  · rfl
  · rfl

theorem engAfterParse_inputs (d : Nat) (r : ParserOutcome) (s : State) : (engAfterParse d r s).2.inputs = s.inputs := by
  cases r with
  | tooFew | byteDropped | timeout => rfl
  | reqNak => exact nakRequest_inputs s
  | ok => exact (engDispatch_frame d (nakResetCounter s)).inputs_eq

theorem engParse_inputs (s : State) : (engParse s).2.inputs = s.inputs := by
  unfold engParse
  split
  · rfl
  · rename_i d _
    exact (engAfterParse_inputs d _ _).trans (fpParse_frame_eq d s).inputs_eq

theorem resetAll_inputs (s : State) : (resetAll s).inputs = s.inputs := by
  rw [resetAll_eq]
  rfl

section
variable {s t : State} {i : Instr} {legal : Bool} {top : State → Bool} {body : State → State}

theorem transact_inputs (h : transact s body = .next t) (hb : ∀ u, (body u).inputs = u.inputs) :
    t.inputs = s.inputs := by
  obtain ⟨-, rfl⟩ := transact_next h
  exact hb s.fresh

theorem transactIf_inputs (h : transactIf legal s body = .next t) (hb : ∀ u, (body u).inputs = u.inputs) :
    t.inputs = s.inputs := by
  obtain ⟨-, ⟨-, rfl⟩ | ⟨-, rfl⟩⟩ := transactIf_next h
  · exact hb s.fresh
  · rfl

theorem transactBump_inputs (h : transactBump top s body = .next t) (hb : ∀ u, (body u).inputs = u.inputs) :
    t.inputs = s.inputs := by
  obtain ⟨-, -, rfl⟩ := transactBump_next h
  exact hb s.fresh

theorem transactBumpIf_inputs (h : transactBumpIf legal top s body = .next t)
    (hb : ∀ u, (body u).inputs = u.inputs) : t.inputs = s.inputs := by
  obtain ⟨-, ⟨-, -, rfl⟩ | ⟨-, rfl⟩⟩ := transactBumpIf_next h
  · exact hb s.fresh
  · rfl

/-- No instruction changes what its transaction is given. -/
theorem exec_inputs (h : exec i s = .next t) : t.inputs = s.inputs := by
  cases hread : i.readOnly with
  | true => exact (exec_read_frame hread h).inputs_eq
  | false =>
    unfold exec at h
    cases i with
    -- the ring
    | rxbPush _ => exact transact_inputs h fun _ => State.okUnit_inputs _ _
    | rxbPop => exact transact_inputs h fun _ => State.okByte_inputs _ _
    | rxByte _ => exact transact_inputs h rxRestart_inputs
    -- the timers and the slot stores
    | tmrStart tsel _ | tmrStop tsel | tmrRestart tsel => exact transactIf_inputs h fun u => u.mapTimer_inputs tsel _
    | msAppend sel _ =>
      exact transactIf_inputs h fun u => (State.okUnit_inputs _ _).trans (u.mapSlot_inputs sel _)
    | msDiscard sel | msIncTx sel | msResetDeadline sel =>
      exact transactIf_inputs h fun u => u.mapSlot_inputs sel _
    | msValidate sel _ | msMarkRetx sel _ => exact transactBumpIf_inputs h fun u => u.setStore_inputs sel.store _
    | msDelete sel => exact transactIf_inputs h fun u => u.setStore_inputs sel.store _
    | msClearAll st => exact transact_inputs h fun u => u.setStore_inputs st _
    | engDeleteRx _ => exact transactIf_inputs h fun _ => rfl
    -- the parser and the guard
    | fpParse d => exact transactBumpIf_inputs h fun u => (fpParse_frame_eq d.toNat u).inputs_eq
    | nakRequest => exact transact_inputs h nakRequest_inputs
    | rxbClear | fpReset | nakResetCounter | nakResetState => exact transact_inputs h fun _ => rfl
    -- the engine
    | engParse => exact transactBump_inputs h engParse_inputs
    | engTransmit cmd data =>
      exact transactBump_inputs h fun u =>
        (State.okUnit_inputs _ _).trans (engTransmit_frame cmd data u).inputs_eq
    | engHandleTimeouts => exact transactBump_inputs h fun u => (handleTimeouts_frame u).inputs_eq
    | engResetAll => exact transact_inputs h resetAll_inputs
    | _ => cases hread

/-- A step keeps the configuration and takes the first of what is pending. -/
theorem step_cfg_pending (h : step s = .next t) : t.cfg = s.cfg ∧ t.pending = s.pending.tail := by
  obtain ⟨hp, rfl⟩ | ⟨rest, hp, -, rfl⟩ | ⟨now, txAnswer, _, rest, _, hp, -, hexec⟩ | ⟨_, _, _, rest, hp, -, rfl⟩ :=
    step_cases h
  · exact ⟨rfl, by rw [hp, List.tail_nil]⟩
  · exact ⟨rfl, by rw [hp]; rfl⟩
  · obtain ⟨hcfg, -, -, hpending⟩ := inputs_eq_iff.1 (exec_inputs hexec)
    exact ⟨hcfg, by rw [hp]; exact hpending⟩
  · exact ⟨rfl, by rw [hp]; rfl⟩

end

/-- Settles O15: no instruction changes what its transaction is given, and a step samples it from what is pending. -/
theorem noStepChangesConfiguration : Obligations.NoStepChangesConfiguration := fun _ _ h => step_cfg_pending h

end Sys2Proof.Machine
end

section
/-! PROOFS. A command word by its fields (R87, R91), each operand through its bits and back (R92, R97), and the payload
a word calls for (R88). -/

namespace Sys2Proof

/-! ### A word by its fields (R87) -/

section
variable {o a a' : Byte} {b b' : U32} {f : Format} {w : CmdWord}

theorem mkWord_fields (w : CmdWord) : mkWord w.op w.a w.b = w := by
  apply BitVec.eq_of_getLsbD_eq
  intro k hk
  simp only [mkWord, CmdWord.op, CmdWord.a, CmdWord.b, BitVec.getLsbD_append, BitVec.getLsbD_extractLsb']
  grind

theorem mkWord_inj : mkWord o a b = mkWord o a' b' ↔ a = a' ∧ b = b' := by
  refine ⟨fun h => ⟨?_, ?_⟩, fun ⟨ha, hb⟩ => by rw [ha, hb]⟩
  · simpa using congrArg CmdWord.a h
  · simpa using congrArg CmdWord.b h

theorem mkWord_zero (o : Byte) : mkWord o 0#8 0#32 = o ++ 0#40 := by
  revert o
  decide

theorem CmdWord.op_and (w m : CmdWord) : CmdWord.op (w &&& m) = w.op &&& m.op := BitVec.extractLsb'_and

theorem CmdWord.idx_eq (w : CmdWord) : w.idx = w.a.extractLsb' 0 7 := by
  apply BitVec.eq_of_getLsbD_eq
  intro k hk
  simp [CmdWord.idx, CmdWord.a, show k < 8 by omega]

/-- The low bits of a word are the low bits of its operand `b`. -/
theorem CmdWord.extract_b {k : Nat} (hk : k ≤ 32) (w : CmdWord) : w.b.extractLsb' 0 k = w.extractLsb' 0 k := by
  apply BitVec.eq_of_getLsbD_eq
  intro j hj
  simp [CmdWord.b, show j < 32 by omega]

theorem CmdWord.b8_eq (w : CmdWord) : w.b8 = w.b.extractLsb' 0 8 := (w.extract_b (by decide)).symm

theorem CmdWord.n_eq (w : CmdWord) : w.n = w.b.extractLsb' 0 16 := (w.extract_b (by decide)).symm

theorem CmdWord.f2_eq (w : CmdWord) : w.f2 = w.b.extractLsb' 0 2 := (w.extract_b (by decide)).symm

theorem CmdWord.f1_eq (w : CmdWord) : w.f1 = w.b.getLsbD 0 := by simp [CmdWord.f1, CmdWord.b]

/-- Every mask covers the opcode (R91). -/
theorem Format.mask_fields (f : Format) : mkWord 0xFF#8 f.mask.a f.mask.b = f.mask := by cases f <;> rfl

/-- A word matches a row of its opcode when its must-be-zero bits are zero, field by field (R91). -/
theorem CmdWord.fits_mkWord :
    CmdWord.fits (mkWord o a b) f = true ↔ a &&& f.mask.a = 0#8 ∧ b &&& f.mask.b = 0#32 := by
  rw [CmdWord.fits, beq_iff_eq, CmdWord.op_mkWord, ← mkWord_zero, ← f.mask_fields, mkWord_and, mkWord_inj,
    f.mask_fields]

theorem CmdWord.fits_iff : w.fits f = true ↔ w.a &&& f.mask.a = 0#8 ∧ w.b &&& f.mask.b = 0#32 := by
  rw [← CmdWord.fits_mkWord (o := w.op), mkWord_fields]

end

/-! ### Operands through their bits and back (R91, R92, R97) -/

theorem setWidth_extract {k : Nat} {b : U32} (h : b &&& BitVec.allOnes 32 <<< k = 0#32) :
    (b.extractLsb' 0 k).setWidth 32 = b := by
  apply BitVec.eq_of_getLsbD_eq
  intro j hj
  have hbit := congrArg (BitVec.getLsbD · j) h
  simp only [BitVec.getLsbD_and, BitVec.getLsbD_shiftLeft, BitVec.getLsbD_allOnes, BitVec.getLsbD_zero] at hbit
  simp only [BitVec.getLsbD_setWidth, BitVec.getLsbD_extractLsb']
  grind

theorem extract_setWidth {k : Nat} (hk : k ≤ 32) (v : BitVec k) : (v.setWidth 32).extractLsb' 0 k = v := by
  apply BitVec.eq_of_getLsbD_eq
  intro j hj
  simp only [BitVec.getLsbD_setWidth, BitVec.getLsbD_extractLsb', Nat.zero_add]
  grind

theorem extract_idxByte (i : BitVec 7) : (idxByte i).extractLsb' 0 7 = i := by
  revert i
  decide

theorem idxByte_extract : ∀ {a : Byte}, a &&& 0x80#8 = 0#8 → idxByte (a.extractLsb' 0 7) = a := by decide

theorem StoreSel.ofBit_storeByte (st : StoreSel) : StoreSel.ofBit ((storeByte st).getLsbD 7) = st := by
  cases st <;> rfl

theorem storeByte_ofBit : ∀ {a : Byte}, a &&& 0x7F#8 = 0#8 → storeByte (StoreSel.ofBit (a.getLsbD 7)) = a := by
  decide

theorem SSel.ofByte_byte (sel : SSel) : SSel.ofByte sel.byte = sel := by
  obtain ⟨st, i⟩ := sel
  revert i
  cases st <;> decide

theorem SSel.byte_ofByte : ∀ a : Byte, (SSel.ofByte a).byte = a := by decide

/-- Only slot 0x7F of the inbound store has the byte of the integrity timer (R92). -/
theorem SSel.byte_eq_itmr {sel : SSel} (h : sel.byte = 0x7F#8) : sel = ⟨.inb, 127#7⟩ := by
  rw [← sel.ofByte_byte, h]
  rfl

theorem TSel.ofByte_byte {t : TSel} (h : t.wf = true) : TSel.ofByte t.byte = t := by
  cases t with
  | itmr => rfl
  | slot sel =>
    have hne : sel.byte ≠ 0x7F#8 := fun he => by
      rw [SSel.byte_eq_itmr he] at h
      cases h
    rw [TSel.byte, TSel.ofByte, if_neg hne, sel.ofByte_byte]

theorem TSel.byte_ofByte : ∀ a : Byte, (TSel.ofByte a).byte = a := by decide

theorem TSel.wf_ofByte : ∀ a : Byte, (TSel.ofByte a).wf = true := by decide

theorem TmrField.ofBits_bits (f : TmrField) : TmrField.ofBits f.bits = f := by cases f <;> rfl

theorem TmrField.bits_ofBits : ∀ v : BitVec 2, (TmrField.ofBits v).bits = v := by decide

theorem SlotField.ofBits_bits (f : SlotField) : SlotField.ofBits f.bits = f := by cases f <;> rfl

theorem SlotField.bits_ofBits : ∀ v : BitVec 2, (SlotField.ofBits v).bits = v := by decide

theorem NakField.ofBit_bit (f : NakField) : NakField.ofBit f.bit = f := by cases f <;> rfl

theorem NakField.bit_ofBit (v : Bool) : (NakField.ofBit v).bit = v := by cases v <;> rfl

/-! ### The operands a word encoded (R91) -/

section
variable {o a : Byte} {b : U32}

@[simp] theorem CmdWord.idx_mkWord (i : BitVec 7) : CmdWord.idx (mkWord o (idxByte i) b) = i := by
  rw [CmdWord.idx_eq, CmdWord.a_mkWord, extract_idxByte]

@[simp] theorem CmdWord.b8_mkWord (v : Byte) : CmdWord.b8 (mkWord o a (v.setWidth 32)) = v := by
  rw [CmdWord.b8_eq, CmdWord.b_mkWord, extract_setWidth (by decide)]

@[simp] theorem CmdWord.f2_mkWord (v : BitVec 2) : CmdWord.f2 (mkWord o a (v.setWidth 32)) = v := by
  rw [CmdWord.f2_eq, CmdWord.b_mkWord, extract_setWidth (by decide)]

@[simp] theorem CmdWord.f1_mkWord (v : Bool) :
    CmdWord.f1 (mkWord o a ((BitVec.ofBool v).setWidth 32)) = v := by
  rw [CmdWord.f1_eq, CmdWord.b_mkWord]
  cases v <;> rfl

end

/-! ### The operands of a word that matches a row (R91) -/

section
variable {w : CmdWord} {f : Format}

theorem CmdWord.a_zero_of_fits (hw : w.fits f = true) (hf : f.mask.a = 0xFF#8) : 0#8 = w.a := by
  obtain ⟨ha, -⟩ := CmdWord.fits_iff.1 hw
  rw [← ha, hf]
  exact BitVec.and_allOnes

theorem CmdWord.b_zero_of_fits (hw : w.fits f = true) (hf : f.mask.b = 0xFFFFFFFF#32) : 0#32 = w.b := by
  obtain ⟨-, hb⟩ := CmdWord.fits_iff.1 hw
  rw [← hb, hf]
  exact BitVec.and_allOnes

theorem CmdWord.idxByte_of_fits (hw : w.fits f = true) (hf : f.mask.a = 0x80#8) : idxByte w.idx = w.a := by
  obtain ⟨ha, -⟩ := CmdWord.fits_iff.1 hw
  rw [w.idx_eq, idxByte_extract (by rw [← hf, ha])]

theorem CmdWord.storeByte_of_fits (hw : w.fits f = true) (hf : f.mask.a = 0x7F#8) :
    storeByte (StoreSel.ofBit (w.a.getLsbD 7)) = w.a := by
  obtain ⟨ha, -⟩ := CmdWord.fits_iff.1 hw
  exact storeByte_ofBit (by rw [← hf, ha])

/-- Where the mask leaves only the low `k` bits of `b` free, they are all of `b`. -/
theorem CmdWord.b_low_of_fits {k : Nat} (hw : w.fits f = true) (hf : f.mask.b = BitVec.allOnes 32 <<< k) :
    (w.b.extractLsb' 0 k).setWidth 32 = w.b := by
  obtain ⟨-, hb⟩ := CmdWord.fits_iff.1 hw
  exact setWidth_extract (by rw [← hf, hb])

theorem CmdWord.b8_of_fits (hw : w.fits f = true) (hf : f.mask.b = 0xFFFFFF00#32) : w.b8.setWidth 32 = w.b := by
  rw [w.b8_eq, CmdWord.b_low_of_fits hw hf]

theorem CmdWord.n_of_fits (hw : w.fits f = true) (hf : f.mask.b = 0xFFFF0000#32) : w.n.setWidth 32 = w.b := by
  rw [w.n_eq, CmdWord.b_low_of_fits hw hf]

theorem CmdWord.tmrField_of_fits (hw : w.fits f = true) (hf : f.mask.b = 0xFFFFFFFC#32) :
    (TmrField.ofBits w.f2).bits.setWidth 32 = w.b := by
  rw [TmrField.bits_ofBits, w.f2_eq, CmdWord.b_low_of_fits hw hf]

theorem CmdWord.slotField_of_fits (hw : w.fits f = true) (hf : f.mask.b = 0xFFFFFFFC#32) :
    (SlotField.ofBits w.f2).bits.setWidth 32 = w.b := by
  rw [SlotField.bits_ofBits, w.f2_eq, CmdWord.b_low_of_fits hw hf]

theorem CmdWord.nakField_of_fits (hw : w.fits f = true) (hf : f.mask.b = 0xFFFFFFFE#32) :
    (BitVec.ofBool (NakField.ofBit w.f1).bit).setWidth 32 = w.b := by
  have hbit : BitVec.ofBool (w.b.getLsbD 0) = w.b.extractLsb' 0 1 := by
    apply BitVec.eq_of_getLsbD_eq
    intro k hk
    simp [show k = 0 by omega]
  rw [NakField.bit_ofBit, w.f1_eq, hbit, CmdWord.b_low_of_fits hw hf]

end

/-! ### The payload (R88) -/

/-- The opcodes a payload follows, each with its format. -/
def payloadRows : List (Byte × Format) := [(0x02#8, .ftx), (0x20#8, .fpay), (0x21#8, .fpay)]

section
variable {w : CmdWord} {f : Format}

theorem payloadCount_of_fits (hmem : (w.op, f) ∈ payloadRows) (hw : w.fits f = true) :
    payloadCount w = w.n.toNat := by
  simp only [payloadRows, List.mem_cons, Prod.mk.injEq, List.not_mem_nil, or_false] at hmem
  obtain ⟨hop, rfl⟩ | ⟨hop, rfl⟩ | ⟨hop, rfl⟩ := hmem <;> rw [payloadCount, hop] <;> exact if_pos hw

/-- A word calls for no payload, or is a legal word of a payload opcode. -/
theorem payloadCount_cases (w : CmdWord) :
    payloadCount w = 0 ∨ ∃ f, (w.op, f) ∈ payloadRows ∧ w.fits f = true := by
  have row (o : Byte) (f : Format) (hmem : (o, f) ∈ payloadRows) (hop : w.op.toNat = o.toNat) :
      (if w.fits f then w.n.toNat else 0) = 0 ∨ ∃ f, (w.op, f) ∈ payloadRows ∧ w.fits f = true := by
    split
    next hw => exact .inr ⟨f, by rwa [BitVec.eq_of_toNat_eq hop], hw⟩
    next => exact .inl rfl
  unfold payloadCount
  split
  next hop => exact row 0x02#8 .ftx (by decide) hop
  next hop => exact row 0x20#8 .fpay (by decide) hop
  next hop => exact row 0x21#8 .fpay (by decide) hop
  next => exact .inl rfl

theorem payloadCount_eq_zero (h : w.op ∉ payloadRows.map Prod.fst) : payloadCount w = 0 :=
  (payloadCount_cases w).resolve_right fun ⟨_, hmem, _⟩ => h (List.mem_map_of_mem hmem)

end

end Sys2Proof
end

section
/-! PROOFS. Encoding and decoding (R88 to R101): each row of the opcode map on the encoding of its instruction, and on
every word that matches it; what is legal, and what a byte-wide channel carries. -/

namespace Sys2Proof

/-! ### The decoder on an encoding (R90) -/

section
variable {o a : Byte} {b : U32} {f : Format} {i : Instr} {w : CmdWord} {payload : List Byte}

theorem decodeCommand_row (hlen : payload.length = payloadCount w) (hrow : decodeMap w payload = w.row f i)
    (hw : w.fits f = true) : decodeCommand w payload = .ok i := by
  rw [decodeCommand, if_pos hlen, hrow, CmdWord.row, if_pos hw]

/-- A command without payload decodes to what its row reads, if it leaves the must-be-zero bits zero. -/
theorem decode_plainCommand (f : Format) (hrow : decodeMap (mkWord o a b) [] = CmdWord.row (mkWord o a b) f i)
    (ha : a &&& f.mask.a = 0#8) (hb : b &&& f.mask.b = 0#32) (ho : o ∉ payloadRows.map Prod.fst := by decide) :
    decode (plainCommand o a b) = .ok i :=
  decodeCommand_row (payloadCount_eq_zero (by rwa [CmdWord.op_mkWord])).symm hrow (CmdWord.fits_mkWord.2 ⟨ha, hb⟩)

/-- A command with a payload that fits decodes to what its row reads. -/
theorem decode_payloadCommand (f : Format) (hfits : payloadFits payload = true)
    (hrow : ∀ w : CmdWord, w.op = o → w.a = a → decodeMap w payload = w.row f i)
    (ha : a &&& f.mask.a = 0#8) (hmem : (o, f) ∈ payloadRows := by decide) :
    decode (payloadCommand o a payload) = .ok i := by
  have hb : f.mask.b = 0xFFFF0000#32 := by
    simp only [payloadRows, List.mem_cons, Prod.mk.injEq, List.not_mem_nil, or_false] at hmem
    obtain ⟨-, rfl⟩ | ⟨-, rfl⟩ | ⟨-, rfl⟩ := hmem <;> rfl
  have hw := (CmdWord.fits_mkWord (o := o)).2 ⟨ha, by rw [hb]; exact count_and (BitVec.ofNat 16 payload.length)⟩
  have hcount := payloadCount_of_fits (by rwa [CmdWord.op_mkWord]) hw
  exact decodeCommand_row (by rw [hcount, count_toNat hfits]) (hrow _ (CmdWord.op_mkWord ..) (CmdWord.a_mkWord ..)) hw

end

/-- Each instruction by the format of its row: the row gets the operands back, and the must-be-zero bits are zero. -/
theorem decode_encode {i : Instr} (h : i.wf = true) : decode (encode i) = .ok i := by
  cases i with
  | rxByte b => rfl
  -- no operand
  | engParse | engCountTimeouts | engHandleTimeouts | engGetNewestRx | engResetAll | rxbPop | rxbCount | rxbClear
  | rxbOvf | fpReset | fpRead | nakRequest | nakResetCounter | nakResetState => exact decode_plainCommand .f0 rfl rfl rfl
  -- an inbound index
  | engDeleteRx j | engRxLen j | fpParse j =>
    exact decode_plainCommand .fidx (by simp [decodeMap]) (idxByte_and j) BitVec.zero_and
  | engRxByte j off => exact decode_plainCommand .fidxb (by simp [decodeMap]) (idxByte_and j) BitVec.and_zero
  -- the ring
  | rxbPush v => exact decode_plainCommand .fb8 (by simp [decodeMap]) rfl (byte_and v)
  | rxbPeek off => exact decode_plainCommand .fb32 (by simp [decodeMap]) rfl BitVec.and_zero
  -- a payload
  | engTransmit cmd data =>
    exact decode_payloadCommand .ftx h (fun w ho ha => by simp [decodeMap, ho, ha]) BitVec.and_zero
  | cksCompute data | cksVerify data =>
    exact decode_payloadCommand .fpay h (fun w ho _ => by simp [decodeMap, ho]) BitVec.zero_and
  -- a timer
  | tmrStart t d =>
    exact decode_plainCommand .ftb32 (by simp [decodeMap, TSel.ofByte_byte h]) BitVec.and_zero BitVec.and_zero
  | tmrStop t | tmrRestart t | tmrTimedout t =>
    exact decode_plainCommand .ft (by simp [decodeMap, TSel.ofByte_byte h]) BitVec.and_zero BitVec.zero_and
  | tmrRead t g =>
    exact decode_plainCommand .ftfld (by simp [decodeMap, TSel.ofByte_byte h, TmrField.ofBits_bits]) BitVec.and_zero
      (by cases g <;> rfl)
  -- a store
  | msGetFree st | msGetOldest st | msGetNewest st | msCountTimedout st | msOldestTimedout st | msClearAll st =>
    exact decode_plainCommand .fstore
      (by rw [decodeMap, CmdWord.op_mkWord, CmdWord.a_mkWord, StoreSel.ofBit_storeByte]; rfl)
      (storeByte_and st) BitVec.zero_and
  -- a slot
  | msAppend sel v =>
    exact decode_plainCommand .fsb8 (by simp [decodeMap, SSel.ofByte_byte]) BitVec.and_zero (byte_and v)
  | msValidate sel _ | msMarkRetx sel _ | msReadByte sel _ =>
    exact decode_plainCommand .fsb32 (by simp [decodeMap, SSel.ofByte_byte]) BitVec.and_zero BitVec.and_zero
  | msDelete sel | msIncTx sel | msResetDeadline sel | msDiscard sel =>
    exact decode_plainCommand .fs (by simp [decodeMap, SSel.ofByte_byte]) BitVec.and_zero BitVec.zero_and
  | msReadInfo sel g =>
    exact decode_plainCommand .fsfld (by simp [decodeMap, SSel.ofByte_byte, SlotField.ofBits_bits]) BitVec.and_zero
      (by cases g <;> rfl)
  -- the guard
  | nakRead g =>
    exact decode_plainCommand .ffld1 (by simp [decodeMap, NakField.ofBit_bit]) rfl (by cases g <;> rfl)

/-! ### What the opcode map reads (R90) -/

/-- What the decoder makes of a word: its opcode is unknown, or a row of the opcode map reads it as `i`, and a
transaction that matches the row is the encoding of `i`. -/
def CmdWord.MapAnswer (w : CmdWord) (payload : List Byte) (r : Except Reject Instr) : Prop :=
  r = .error (.unknownOpcode w.op) ∨ ∃ f i, r = w.row f i ∧ (w.op ++ 0#40, f.mask) ∈ opcodeRows ∧
    (w.fits f = true → payload.length = payloadCount w → encode i = .command w payload ∧ i.wf = true)

section
variable {w : CmdWord} {f : Format} {i : Instr} {a : Byte} {b : U32} {payload : List Byte}

/-- A row without payload answers rightly if its instruction is encoded by the fields of a word that matches it. -/
theorem mapAnswer_plain (o : Byte) (hop : w.op.toNat = o.toNat) (ha : w.fits f = true → a = w.a)
    (hb : w.fits f = true → b = w.b) (hwf : i.wf = true := by rfl)
    (hmem : (o ++ 0#40, f.mask) ∈ opcodeRows := by decide) (ho : o ∉ payloadRows.map Prod.fst := by decide)
    (he : encode i = plainCommand o a b := by rfl) : w.MapAnswer payload (w.row f i) := by
  obtain rfl := BitVec.eq_of_toNat_eq hop
  refine .inr ⟨f, i, rfl, hmem, fun hw hlen => ⟨?_, hwf⟩⟩
  rw [payloadCount_eq_zero ho] at hlen
  rw [he, plainCommand, ha hw, hb hw, mkWord_fields, List.eq_nil_of_length_eq_zero hlen]

/-- A payload row answers rightly if its instruction is encoded by `a` and the payload. -/
theorem mapAnswer_payload (o : Byte) (hop : w.op.toNat = o.toNat) (ha : w.fits f = true → a = w.a)
    (hb : f.mask.b = 0xFFFF0000#32 := by rfl) (hwf : i.wf = payloadFits payload := by rfl)
    (hmem : (o ++ 0#40, f.mask) ∈ opcodeRows := by decide) (ho : (o, f) ∈ payloadRows := by decide)
    (he : encode i = payloadCommand o a payload := by rfl) : w.MapAnswer payload (w.row f i) := by
  obtain rfl := BitVec.eq_of_toNat_eq hop
  refine .inr ⟨f, i, rfl, hmem, fun hw hlen => ?_⟩
  rw [payloadCount_of_fits ho hw] at hlen
  have hn : BitVec.ofNat 16 payload.length = w.n := by rw [hlen, BitVec.ofNat_toNat, BitVec.setWidth_eq]
  refine ⟨?_, ?_⟩
  · rw [he, payloadCommand, ha hw, hn, CmdWord.n_of_fits hw hb, mkWord_fields]
  · rw [hwf, payloadFits, hlen]
    exact decide_eq_true w.n.isLt

end

open CmdWord in
/-- Every row of the opcode map answers rightly, in the order of R90. -/
theorem decodeMap_answer (w : CmdWord) (payload : List Byte) : w.MapAnswer payload (decodeMap w payload) := by
  unfold decodeMap
  split
  -- ProtocolEngine
  next hop => exact mapAnswer_plain 0x01#8 hop (a_zero_of_fits · rfl) (b_zero_of_fits · rfl)
  next hop => exact mapAnswer_payload 0x02#8 hop (fun _ => rfl)
  next hop => exact mapAnswer_plain 0x03#8 hop (a_zero_of_fits · rfl) (b_zero_of_fits · rfl)
  next hop => exact mapAnswer_plain 0x04#8 hop (a_zero_of_fits · rfl) (b_zero_of_fits · rfl)
  next hop => exact mapAnswer_plain 0x05#8 hop (a_zero_of_fits · rfl) (b_zero_of_fits · rfl)
  next hop => exact mapAnswer_plain 0x06#8 hop (idxByte_of_fits · rfl) (b_zero_of_fits · rfl)
  next hop => exact mapAnswer_plain 0x07#8 hop (a_zero_of_fits · rfl) (b_zero_of_fits · rfl)
  next hop => exact mapAnswer_plain 0x08#8 hop (idxByte_of_fits · rfl) (b_zero_of_fits · rfl)
  next hop => exact mapAnswer_plain 0x09#8 hop (idxByte_of_fits · rfl) (fun _ => rfl)
  -- ReceiveBuffer
  next hop => exact mapAnswer_plain 0x10#8 hop (a_zero_of_fits · rfl) (b8_of_fits · rfl)
  next hop => exact mapAnswer_plain 0x11#8 hop (a_zero_of_fits · rfl) (b_zero_of_fits · rfl)
  next hop => exact mapAnswer_plain 0x12#8 hop (a_zero_of_fits · rfl) (fun _ => rfl)
  next hop => exact mapAnswer_plain 0x13#8 hop (a_zero_of_fits · rfl) (b_zero_of_fits · rfl)
  next hop => exact mapAnswer_plain 0x14#8 hop (a_zero_of_fits · rfl) (b_zero_of_fits · rfl)
  next hop => exact mapAnswer_plain 0x15#8 hop (a_zero_of_fits · rfl) (b_zero_of_fits · rfl)
  -- ChecksumXOR
  next hop => exact mapAnswer_payload 0x20#8 hop (a_zero_of_fits · rfl)
  next hop => exact mapAnswer_payload 0x21#8 hop (a_zero_of_fits · rfl)
  -- SoftwareTimer
  next hop => exact mapAnswer_plain 0x30#8 hop (fun _ => TSel.byte_ofByte _) (fun _ => rfl) (by exact TSel.wf_ofByte _)
  next hop =>
    exact mapAnswer_plain 0x31#8 hop (fun _ => TSel.byte_ofByte _) (b_zero_of_fits · rfl) (by exact TSel.wf_ofByte _)
  next hop =>
    exact mapAnswer_plain 0x32#8 hop (fun _ => TSel.byte_ofByte _) (b_zero_of_fits · rfl) (by exact TSel.wf_ofByte _)
  next hop =>
    exact mapAnswer_plain 0x33#8 hop (fun _ => TSel.byte_ofByte _) (b_zero_of_fits · rfl) (by exact TSel.wf_ofByte _)
  next hop =>
    exact mapAnswer_plain 0x34#8 hop (fun _ => TSel.byte_ofByte _) (tmrField_of_fits · rfl)
      (by exact TSel.wf_ofByte _)
  -- MessageSlotStore
  next hop => exact mapAnswer_plain 0x40#8 hop (storeByte_of_fits · rfl) (b_zero_of_fits · rfl)
  next hop => exact mapAnswer_plain 0x41#8 hop (fun _ => SSel.byte_ofByte _) (b8_of_fits · rfl)
  next hop => exact mapAnswer_plain 0x42#8 hop (fun _ => SSel.byte_ofByte _) (fun _ => rfl)
  next hop => exact mapAnswer_plain 0x43#8 hop (fun _ => SSel.byte_ofByte _) (fun _ => rfl)
  next hop => exact mapAnswer_plain 0x44#8 hop (fun _ => SSel.byte_ofByte _) (b_zero_of_fits · rfl)
  next hop => exact mapAnswer_plain 0x45#8 hop (storeByte_of_fits · rfl) (b_zero_of_fits · rfl)
  next hop => exact mapAnswer_plain 0x46#8 hop (storeByte_of_fits · rfl) (b_zero_of_fits · rfl)
  next hop => exact mapAnswer_plain 0x47#8 hop (storeByte_of_fits · rfl) (b_zero_of_fits · rfl)
  next hop => exact mapAnswer_plain 0x48#8 hop (storeByte_of_fits · rfl) (b_zero_of_fits · rfl)
  next hop => exact mapAnswer_plain 0x49#8 hop (fun _ => SSel.byte_ofByte _) (b_zero_of_fits · rfl)
  next hop => exact mapAnswer_plain 0x4A#8 hop (fun _ => SSel.byte_ofByte _) (b_zero_of_fits · rfl)
  next hop => exact mapAnswer_plain 0x4B#8 hop (fun _ => SSel.byte_ofByte _) (fun _ => rfl)
  next hop => exact mapAnswer_plain 0x4C#8 hop (fun _ => SSel.byte_ofByte _) (slotField_of_fits · rfl)
  next hop => exact mapAnswer_plain 0x4D#8 hop (fun _ => SSel.byte_ofByte _) (b_zero_of_fits · rfl)
  next hop => exact mapAnswer_plain 0x4E#8 hop (storeByte_of_fits · rfl) (b_zero_of_fits · rfl)
  -- FrameParser
  next hop => exact mapAnswer_plain 0x80#8 hop (idxByte_of_fits · rfl) (b_zero_of_fits · rfl)
  next hop => exact mapAnswer_plain 0x81#8 hop (a_zero_of_fits · rfl) (b_zero_of_fits · rfl)
  next hop => exact mapAnswer_plain 0x82#8 hop (a_zero_of_fits · rfl) (b_zero_of_fits · rfl)
  -- NAKEscalation
  next hop => exact mapAnswer_plain 0x90#8 hop (a_zero_of_fits · rfl) (b_zero_of_fits · rfl)
  next hop => exact mapAnswer_plain 0x91#8 hop (a_zero_of_fits · rfl) (b_zero_of_fits · rfl)
  next hop => exact mapAnswer_plain 0x92#8 hop (a_zero_of_fits · rfl) (b_zero_of_fits · rfl)
  next hop => exact mapAnswer_plain 0x93#8 hop (a_zero_of_fits · rfl) (nakField_of_fits · rfl)
  -- every other opcode
  next => exact .inl rfl

/-- An opcode of the map has its row, with the mask the map lists. -/
theorem decodeMap_of_mem_rows : ∀ r ∈ opcodeRows, ∀ (w : CmdWord) (payload : List Byte), w.op = CmdWord.op r.1 →
    ∃ f i, f.mask = r.2 ∧ decodeMap w payload = w.row f i := by
  intro r hr w payload hop
  simp only [opcodeRows, engineRows, rxBufferRows, checksumRows, timerRows, storeRows, parserRows, nakRows] at hr
  fin_cases hr <;> exact ⟨_, _, rfl, by rw [decodeMap, hop]; rfl⟩

/-- Every mask covers the opcode, and every match is an opcode over zeros (R91). -/
theorem opcodeRows_fields : ∀ r ∈ opcodeRows, CmdWord.op r.2 = BitVec.allOnes 8 ∧ CmdWord.op r.1 ++ 0#40 = r.1 := by
  intro r hr
  simp only [opcodeRows, engineRows, rxBufferRows, checksumRows, timerRows, storeRows, parserRows, nakRows] at hr
  fin_cases hr <;> exact ⟨rfl, rfl⟩

/-! ### What decodes, and what is legal (R88, R90, R94) -/

section
variable {w : CmdWord} {f : Format} {i j : Instr} {payload : List Byte}

theorem CmdWord.row_ok (h : w.row f i = .ok j) : w.fits f = true ∧ i = j := by
  unfold CmdWord.row at h
  split at h
  next hw => exact ⟨hw, Except.ok.inj h⟩
  next => cases h

theorem legal_of_fits (hmem : (w.op ++ 0#40, f.mask) ∈ opcodeRows) (hw : w.fits f = true) : w.Legal :=
  ⟨_, hmem, beq_iff_eq.1 hw⟩

/-- All that is true of a word the decoder accepts. -/
theorem decodeMap_ok (h : decodeMap w payload = .ok i) : w.Legal ∧
    (payload.length = payloadCount w → encode i = .command w payload ∧ i.wf = true) := by
  obtain he | ⟨f, j, he, hmem, hencoded⟩ := decodeMap_answer w payload
  · rw [he] at h
    cases h
  · rw [he] at h
    obtain ⟨hw, rfl⟩ := CmdWord.row_ok h
    exact ⟨legal_of_fits hmem hw, hencoded hw⟩

theorem decodeCommand_ok (h : decodeCommand w payload = .ok i) :
    payload.length = payloadCount w ∧ decodeMap w payload = .ok i := by
  unfold decodeCommand at h
  split at h
  next hlen => exact ⟨hlen, h⟩
  next => cases h

/-- A word that matches a row has the row's opcode. -/
theorem op_of_match {r : CmdWord × CmdWord} (hr : r ∈ opcodeRows) (hw : w &&& r.2 = r.1) :
    w.op = CmdWord.op r.1 ∧ w.op ++ 0#40 = r.1 := by
  obtain ⟨hmask, hmatch⟩ := opcodeRows_fields r hr
  have hop : w.op = CmdWord.op r.1 := by rw [← hw, CmdWord.op_and, hmask, BitVec.and_allOnes]
  exact ⟨hop, by rw [hop, hmatch]⟩

/-- With exactly its payload a legal word decodes. -/
theorem decodeCommand_of_legal (h : w.Legal) (hlen : payload.length = payloadCount w) :
    ∃ i, decodeCommand w payload = .ok i := by
  obtain ⟨r, hr, hw⟩ := h
  obtain ⟨hop, hmatch⟩ := op_of_match hr hw
  obtain ⟨f, i, hf, hrow⟩ := decodeMap_of_mem_rows r hr w payload hop
  have hfits : w.fits f = true := by rw [CmdWord.fits, hf, hw, hmatch, beq_self_eq_true]
  exact ⟨i, decodeCommand_row hlen hrow hfits⟩

/-- No payload follows an illegal word (R94). -/
theorem payloadCount_of_illegal (h : ¬ w.Legal) : payloadCount w = 0 := by
  have hrows : ∀ p ∈ payloadRows, (p.1 ++ 0#40, p.2.mask) ∈ opcodeRows := by decide
  exact (payloadCount_cases w).resolve_right fun ⟨f, hmem, hw⟩ => h (legal_of_fits (hrows (w.op, f) hmem) hw)

/-- An illegal word is rejected for its opcode or for a must-be-zero bit (R94). -/
theorem decode_of_illegal (h : ¬ w.Legal) : decode (.command w []) = .error (.unknownOpcode w.op) ∨
    decode (.command w []) = .error (.mustBeZero w.op) := by
  have hlen : ([] : List Byte).length = payloadCount w := (payloadCount_of_illegal h).symm
  rw [decode, decodeCommand, if_pos hlen]
  obtain he | ⟨f, i, he, hmem, -⟩ := decodeMap_answer w []
  · exact .inl he
  · rw [he, CmdWord.row, if_neg fun hw => h (legal_of_fits hmem hw)]
    exact .inr rfl

/-! ### Byte-wide carriage (R101) -/

theorem bytesWord_bytes (w : CmdWord) : bytesWord (w.extractLsb' 40 8) (w.extractLsb' 32 8) (w.extractLsb' 24 8)
    (w.extractLsb' 16 8) (w.extractLsb' 8 8) (w.extractLsb' 0 8) = w := by
  apply BitVec.eq_of_getLsbD_eq
  intro k hk
  simp only [bytesWord, BitVec.getLsbD_append, BitVec.getLsbD_extractLsb']
  grind

/-- A command carried as bytes decodes as the command does, and its bytes alone are consumed. -/
theorem decodeBytes_of_decodeCommand (h : decodeCommand w payload = .ok i) (rest : List Byte) :
    decodeBytes (wordBytes w ++ payload ++ rest) = .ok (i, rest) := by
  obtain ⟨hlen, -⟩ := decodeCommand_ok h
  have hshort : ¬ (payload ++ rest).length < payloadCount w := by rw [List.length_append]; omega
  rw [List.append_assoc, wordBytes]
  simp only [List.cons_append, List.nil_append, decodeBytes, bytesWord_bytes, if_neg hshort,
    List.take_left' hlen, List.drop_left' hlen, h]

end

/-! ### The statements -/

/-- Settles O1: each instruction by the row of its opcode, whose operands it gets back from their bits. -/
theorem decodeOfEncodeIsIdentity : Obligations.DecodeOfEncodeIsIdentity := fun _ h => decode_encode h

/-- Settles O2: each row of the opcode map reads a word as what that word encodes. -/
theorem decodedCommandIsItsEncoding : Obligations.DecodedCommandIsItsEncoding := fun _ _ _ h =>
  have ⟨hlen, hmap⟩ := decodeCommand_ok h
  (decodeMap_ok hmap).2 hlen

/-- Settles O3: the six bytes give the word again, and the word says how many bytes its payload is. -/
theorem carriedCommandDecodes : Obligations.CarriedCommandDecodes := fun i w payload rest h he => by
  have hd : decode (.command w payload) = .ok i := by rw [← he, decode_encode h]
  exact decodeBytes_of_decodeCommand hd rest

/-- Settles O4: an accepted word matches its row, and a legal word decodes with a payload of the length it calls for. -/
theorem legalWordsAreTheOpcodeMap : Obligations.LegalWordsAreTheOpcodeMap := fun w =>
  ⟨fun h => ⟨List.replicate (payloadCount w) 0#8, decodeCommand_of_legal h List.length_replicate⟩,
    fun ⟨_, _, h⟩ => (decodeMap_ok (decodeCommand_ok h).2).1⟩

/-- Settles O7: each word is the encoding of the instruction it stands for. -/
theorem specWordsDecode : Obligations.SpecWordsDecode :=
  ⟨decode_encode (i := .engParse) rfl, decode_encode (i := .engTransmit 0x70#8 [0x11#8]) rfl,
    decode_encode (i := .rxbPeek 0xFFFFFFFF#32) rfl, decode_encode (i := .cksVerify [0xAA#8]) rfl,
    decode_encode (i := .tmrStart .itmr 0x1000#32) rfl, decode_encode (i := .tmrRead (.slot ⟨.outb, 0#7⟩) .target) rfl,
    decode_encode (i := .msValidate ⟨.outb, 2#7⟩ 1000#32) rfl, decode_encode (i := .msReadInfo ⟨.outb, 1#7⟩ .txc) rfl,
    decode_encode (i := .fpParse 0#7) rfl, decode_encode (i := .nakRead .many) rfl,
    decode_encode (i := .rxByte 0xF8#8) rfl⟩

end Sys2Proof
end

section
/-! PROOFS. What is illegal changes nothing (R94, R95): a word no row matches, and a selector that names nothing; and no
other transaction answers ILLEGAL. -/

namespace Sys2Proof.Machine

/-! ### Illegal words (R94) -/

section
variable {s : State} {now : U32} {txAnswer : Nat} {rest : List Transaction}

/-- An offer that does not decode is answered on the sampled inputs. -/
theorem step_of_reject {o : Offer} {e : Reject} (hp : s.pending = .offer now txAnswer o :: rest)
    (hd : decode o = .error e) : step s = rejected e (s.sample now txAnswer rest) := by
  rw [step, hp]
  dsimp only
  rw [hd]

theorem illegalCommand_wf (h : s.cfg.wf = true) : illegalCommand s = .next { s with rsp := illegalRsp, trace := [] } :=
  transact_wf h _

theorem step_of_illegal {w : CmdWord} (hwf : s.cfg.wf = true)
    (hp : s.pending = .offer now txAnswer (.command w []) :: rest) (hw : ¬ w.Legal) :
    step s = .next { s.sample now txAnswer rest with rsp := illegalRsp, trace := [] } := by
  have hsampled : (s.sample now txAnswer rest).cfg.wf = true := hwf
  obtain hd | hd := decode_of_illegal hw
  · exact (step_of_reject hp hd).trans (illegalCommand_wf hsampled)
  · exact (step_of_reject hp hd).trans (illegalCommand_wf hsampled)

end

/-- Settles O5: an illegal word is rejected as such, never for its payload, and a rejected word is answered ILLEGAL. -/
theorem illegalWordChangesNothing : Obligations.IllegalWordChangesNothing :=
  fun _ _ _ _ _ hwf hp hw => step_of_illegal hwf hp hw

/-! ### Answers other than ILLEGAL -/

/-- The response, if there is one, is not ILLEGAL. -/
def State.NotIllegal (s : State) : Prop := ∀ r, s.rsp = some r → r.status ≠ 0xFF#8

theorem State.NotIllegal.of_none {s : State} (h : s.rsp = none) : s.NotIllegal := fun r hr => by
  rw [h] at hr
  cases hr

theorem State.respond_notIllegal (s : State) {c : Status} (v : U32) (hc : c.code ≠ 0xFF#8) :
    (s.respond c v).NotIllegal := fun r hr => by
  cases hr
  exact hc

theorem State.ok_notIllegal (s : State) (v : U32) : (s.ok v).NotIllegal := s.respond_notIllegal v (by decide)

theorem State.okByte_notIllegal (s : State) (o : Option Byte) : (s.okByte o).NotIllegal := by
  cases o with
  | none => exact s.respond_notIllegal _ (by decide)
  | some b => exact s.ok_notIllegal _

theorem State.okIndex_notIllegal (s : State) (o : Option Nat) : (s.okIndex o).NotIllegal := by
  cases o with
  | none => exact s.respond_notIllegal _ (by decide)
  | some i => exact s.ok_notIllegal _

theorem State.okUnit_notIllegal (s : State) (accepted : Bool) : (s.okUnit accepted).NotIllegal := by
  cases accepted with
  | false => exact s.respond_notIllegal _ (by decide)
  | true => exact s.ok_notIllegal _

theorem rxRestart_rsp (s : State) : (rxRestart s).rsp = s.rsp := by
  unfold rxRestart
  split
  · rfl
  · rfl

/-! ### The selector guards the instruction (R95) -/

/-- The result is that of a transaction behind a selector, which may stop at rank 255 and, if its selector is legal,
does not answer ILLEGAL. -/
def SelectorGuards (legal : Bool) (s : State) (r : Result) : Prop :=
  ∃ top body, r = transactBumpIf legal top s body ∧ (body s.fresh).NotIllegal

section
variable {s : State} {top : State → Bool} {body : State → State}

theorem transactBumpIf_guards (legal : Bool) (hb : ∀ u : State, (body u).NotIllegal) :
    SelectorGuards legal s (transactBumpIf legal top s body) := ⟨top, body, rfl, hb _⟩

theorem transactIf_guards (legal : Bool) (hb : ∀ u : State, (body u).NotIllegal) :
    SelectorGuards legal s (transactIf legal s body) :=
  ⟨fun _ => false, body, (transactBump_below (Bool.and_false _) _).symm, hb _⟩

/-- An instruction without a selector runs as one with a legal selector. -/
theorem transactBump_guards (hb : ∀ u : State, (body u).NotIllegal) :
    SelectorGuards true s (transactBump top s body) := transactBumpIf_guards true hb

theorem transact_guards (hb : ∀ u : State, (body u).NotIllegal) : SelectorGuards true s (transact s body) :=
  transactIf_guards true hb

theorem execRxByte_guards (b : Byte) : SelectorGuards true s (execRxByte b s) :=
  ⟨fun _ => false, _, (transactBump_below rfl _).symm, State.NotIllegal.of_none (rxRestart_rsp s.fresh)⟩

/-- Every instruction is a transaction behind its selector (R95). -/
theorem exec_guarded (i : Instr) (s : State) : SelectorGuards (i.selectorLegal s.cfg) s (exec i s) := by
  unfold exec
  cases i with
  -- no selector
  | engCountTimeouts | rxbCount | rxbOvf | cksCompute _ | cksVerify _ | msCountTimedout _ | msOldestTimedout _ | fpRead
  | nakRead _ | rxbClear | msClearAll _ | fpReset | nakRequest | nakResetCounter | nakResetState | engResetAll =>
    exact transact_guards fun _ => State.ok_notIllegal _ _
  | engGetNewestRx | msGetFree _ | msGetOldest _ | msGetNewest _ =>
    exact transact_guards fun _ => State.okIndex_notIllegal _ _
  | rxbPop | rxbPeek _ => exact transact_guards fun _ => State.okByte_notIllegal _ _
  | rxbPush _ => exact transact_guards fun _ => State.okUnit_notIllegal _ _
  | rxByte b => exact execRxByte_guards b
  | engParse | engHandleTimeouts => exact transactBump_guards fun _ => State.ok_notIllegal _ _
  | engTransmit _ _ => exact transactBump_guards fun _ => State.okUnit_notIllegal _ _
  -- a timer or a slot
  | tmrStart t _ | tmrStop t | tmrRestart t | tmrTimedout t | tmrRead t _ =>
    cases t <;> exact transactIf_guards _ fun _ => State.ok_notIllegal _ _
  | engDeleteRx _ | engRxLen _ | msDelete _ | msIncTx _ | msResetDeadline _ | msReadInfo _ _ | msDiscard _ =>
    exact transactIf_guards _ fun _ => State.ok_notIllegal _ _
  | engRxByte _ _ | msReadByte _ _ => exact transactIf_guards _ fun _ => State.okByte_notIllegal _ _
  | msAppend _ _ => exact transactIf_guards _ fun _ => State.okUnit_notIllegal _ _
  | msValidate _ _ | msMarkRetx _ _ | fpParse _ => exact transactBumpIf_guards _ fun _ => State.ok_notIllegal _ _

end

section
variable {s t : State} {i : Instr}

theorem exec_illegal_selector (hwf : s.cfg.wf = true) (hi : i.selectorLegal s.cfg = false) :
    Answers s i illegalRsp := by
  obtain ⟨top, body, he, -⟩ := exec_guarded i s
  rw [Answers, he, hi]
  exact transactBumpIf_illegal hwf top body

theorem exec_legal_selector (hi : i.selectorLegal s.cfg = true) (h : exec i s = .next t) : t.NotIllegal := by
  obtain ⟨top, body, he, hbody⟩ := exec_guarded i s
  rw [he, hi] at h
  obtain ⟨-, ⟨-, -, rfl⟩ | ⟨habsurd, -⟩⟩ := transactBumpIf_next h
  · exact hbody
  · cases habsurd

end

/-- Settles O6: every instruction is a transaction behind its selector, and its answer is OK, FAIL or none. -/
theorem illegalSelectorChangesNothing : Obligations.IllegalSelectorChangesNothing := fun _ _ hwf =>
  ⟨exec_illegal_selector hwf, fun hi _ h => exec_legal_selector hi h⟩

end Sys2Proof.Machine
end

section
/-! PROOFS. What an instruction that completes answers: the response as a function of the result (R89, R96), and each
read of a state element as the element it answers (R117, R118, R120, R144, R171, R172, R203, R224, R249, R250). -/

namespace Sys2Proof.Machine

/-! ### Responses by result (R89) -/

/-- The response of an operation that returns a byte: `OK` with the byte, `FAIL, 0` without one. -/
def byteRsp : Option Byte → Option Response
  | some b => okRsp (b.setWidth 32)
  | none => failRsp 0#32

/-- The response of an operation that is accepted or not: `OK, 0` or `FAIL, 0`. -/
def unitRsp (accepted : Bool) : Option Response := if accepted then okRsp 0#32 else failRsp 0#32

theorem State.okByte_eq (s : State) (o : Option Byte) : s.okByte o = { s with rsp := byteRsp o } := by
  cases o with
  | none => rfl
  | some b => rfl

theorem State.okUnit_eq (s : State) (accepted : Bool) : s.okUnit accepted = { s with rsp := unitRsp accepted } := by
  cases accepted with
  | false => rfl
  | true => rfl

/-- What an operation that reads one byte of a sequence answers: the byte at its offset, `FAIL` beyond the end. -/
theorem answers_byte_cases {s : State} {i : Instr} {l : List Byte} {off : Nat} (h : Answers s i (byteRsp l[off]?)) :
    (∀ b, l[off]? = some b → Answers s i (okRsp (b.setWidth 32))) ∧
      (l.length ≤ off → Answers s i (failRsp 0#32)) := by
  refine ⟨fun b hb => ?_, fun hoff => ?_⟩
  · rwa [hb] at h
  · rwa [List.getElem?_eq_none hoff] at h

/-! ### Transactions that only answer (R70) -/

section
variable {s : State} {i : Instr} {legal : Bool}

theorem answers_ok {f : State → U32} (hw : s.cfg.wf = true) (he : exec i s = transact s fun u => u.ok (f u)) :
    Answers s i (okRsp (f s.fresh)) := he.trans (transact_wf hw _)

theorem answers_ok_of_legal {f : State → U32} (hw : s.cfg.wf = true) (hlegal : legal = true)
    (he : exec i s = transactIf legal s fun u => u.ok (f u)) : Answers s i (okRsp (f s.fresh)) := by
  subst hlegal
  exact he.trans (transactIf_legal hw _)

theorem answers_okByte {f : State → Option Byte} (hw : s.cfg.wf = true)
    (he : exec i s = transact s fun u => u.okByte (f u)) : Answers s i (byteRsp (f s.fresh)) := by
  rw [Answers, he, transact_wf hw, State.okByte_eq]
  rfl

theorem answers_okByte_of_legal {f : State → Option Byte} (hw : s.cfg.wf = true) (hlegal : legal = true)
    (he : exec i s = transactIf legal s fun u => u.okByte (f u)) : Answers s i (byteRsp (f s.fresh)) := by
  subst hlegal
  exact answers_okByte hw he

end

/-! ### Legal selectors (R95) -/

theorem idxLegal_of_lt {cfg : Config} {i : BitVec 7} (h : i.toNat < cfg.nSlots) : idxLegal cfg i = true :=
  decide_eq_true h

theorem selectorLegal_tmrStop (cfg : Config) (t : TSel) : (Instr.tmrStop t).selectorLegal cfg = tselLegal cfg t := by
  cases t with
  | itmr => rfl
  | slot sel => rfl

/-! ### The ring and the latches (R117, R118, R120, R203, R224) -/

section
variable {s : State} (hw : s.cfg.wf = true)
include hw

theorem answers_rxbPeek (off : U32) : Answers s (.rxbPeek off) (byteRsp s.q[off.toNat]?) := by
  have h := answers_okByte hw (i := .rxbPeek off) (f := fun u => rxbPeek u.cfg.ringCap off.toNat u.rxb) rfl
  rwa [rxbPeek_eq] at h

theorem answers_rxbCount : Answers s .rxbCount (okRsp (BitVec.ofNat 32 s.q.length)) := by
  rw [State.q, length_contents]
  exact answers_ok hw (f := fun u => natCode (ringCount u.rxb)) rfl

theorem answers_rxbOvf : Answers s .rxbOvf (okRsp (boolCode s.rxb.ovf)) :=
  answers_ok hw (f := fun u => boolCode u.rxb.ovf) rfl

theorem answers_fpRead : Answers s .fpRead (okRsp (boolCode s.fp.fail)) :=
  answers_ok hw (f := fun u => boolCode u.fp.fail) rfl

theorem answers_nakRead (f : NakField) : Answers s (.nakRead f) (okRsp (s.nak.field f)) :=
  answers_ok hw (f := fun u => u.nak.field f) rfl

end

/-- Settles O23: a peek looks its offset up in the contents, which end at the occupancy. -/
theorem rxbPeekReadsAtOffset : Obligations.RxbPeekReadsAtOffset :=
  ⟨fun _ => rfl, fun _ off ⟨hw, _⟩ => answers_byte_cases (answers_rxbPeek hw off)⟩

/-! ### Timers and slots (R144, R171, R172, R249, R250) -/

/-- A byte of a slot is read at its offset in the slot's live bytes. -/
theorem msReadByte_eq (off : Nat) (sl : Slot) : msReadByte off sl = (sl.buf.bytes sl.len.toNat)[off]? := by
  rw [Memory.getElem?_bytes, msReadByte]

section
variable {s : State} (hw : s.cfg.wf = true)
include hw

theorem answers_tmrRead {t : TSel} (ht : tselLegal s.cfg t = true) (f : TmrField) :
    Answers s (.tmrRead t f) (okRsp ((s.timer t).field f)) := by
  have h := answers_ok_of_legal hw ht (i := .tmrRead t f) (f := fun u => (u.timer t).field f) rfl
  rwa [State.fresh_timer] at h

theorem answers_msReadInfo {sel : SSel} (hi : sel.idx.toNat < s.cfg.nSlots) (f : SlotField) :
    Answers s (.msReadInfo sel f) (okRsp ((s.slot sel).field f)) := by
  have h := answers_ok_of_legal hw (idxLegal_of_lt hi) (i := .msReadInfo sel f) (f := fun u => (u.slot sel).field f) rfl
  rwa [State.fresh_slot] at h

theorem answers_msReadByte {sel : SSel} (hi : sel.idx.toNat < s.cfg.nSlots) (off : U32) :
    Answers s (.msReadByte sel off) (byteRsp ((s.slot sel).buf.bytes (s.slot sel).len.toNat)[off.toNat]?) := by
  have h := answers_okByte_of_legal hw (idxLegal_of_lt hi) (i := .msReadByte sel off)
    (f := fun u => msReadByte off.toNat (u.slot sel)) rfl
  rwa [State.fresh_slot, msReadByte_eq] at h

/-- `ENG_RX_LEN` is `MS_READ_INFO` on the inbound store (R249). -/
theorem answers_engRxLen {j : BitVec 7} (hi : j.toNat < s.cfg.nSlots) :
    Answers s (.engRxLen j) (okRsp ((s.slot ⟨.inb, j⟩).field .len)) :=
  answers_msReadInfo hw (sel := ⟨.inb, j⟩) hi .len

/-- `ENG_RX_BYTE` is `MS_READ_BYTE` on the inbound store (R250). -/
theorem answers_engRxByte {j : BitVec 7} (hi : j.toNat < s.cfg.nSlots) (off : U32) :
    Answers s (.engRxByte j off)
      (byteRsp ((s.slot ⟨.inb, j⟩).buf.bytes (s.slot ⟨.inb, j⟩).len.toNat)[off.toNat]?) :=
  answers_msReadByte hw (sel := ⟨.inb, j⟩) hi off

end

/-- Settles O39: each read by the element its transaction answers, a byte by its offset in the slot's live bytes. -/
theorem readsAnswerTheElement : Obligations.ReadsAnswerTheElement := by
  intro s t sel off ⟨hw, _⟩ ht hi
  rw [selectorLegal_tmrStop] at ht
  obtain ⟨hbyte, hbeyond⟩ := answers_byte_cases (answers_msReadByte hw hi off)
  obtain ⟨hrxByte, hrxBeyond⟩ := answers_byte_cases (answers_engRxByte hw hi off)
  rw [Memory.length_bytes] at hbeyond hrxBeyond
  exact ⟨answers_rxbCount hw, answers_rxbOvf hw, answers_fpRead hw,
    answers_nakRead hw .cnt, answers_nakRead hw .many,
    answers_tmrRead hw ht .start, answers_tmrRead hw ht .dur, answers_tmrRead hw ht .target,
    answers_tmrRead hw ht .active,
    answers_msReadInfo hw hi .len, answers_msReadInfo hw hi .rank, answers_msReadInfo hw hi .valid,
    answers_msReadInfo hw hi .txc,
    answers_engRxLen hw hi, hbyte, hbeyond, hrxByte, hrxBeyond⟩

end Sys2Proof.Machine
end

section
/-! PROOFS. The ReceiveBuffer's writes (R110, R111, R115, R116): what a push and a pop do to the ring and answer, and
the ring as a bounded FIFO queue with a sticky latch (R25, R121, R122). -/

namespace Sys2Proof.Machine

/-! ### Push and pop as transactions (R115, R116) -/

section
variable {s : State} (hw : s.cfg.wf = true)
include hw

theorem exec_rxbPush (b : Byte) : exec (.rxbPush b) s = .next { s with
    rxb := (rxbPush s.cfg.ringCap b s.rxb).2, rsp := unitRsp (rxbPush s.cfg.ringCap b s.rxb).1, trace := [] } := by
  rw [exec, execRxbPush, transact_wf hw, State.okUnit_eq]
  rfl

theorem exec_rxbPop : exec .rxbPop s = .next { s with
    rxb := (rxbPop s.cfg.ringCap s.rxb).2, rsp := byteRsp (rxbPop s.cfg.ringCap s.rxb).1, trace := [] } := by
  rw [exec, execRxbPop, transact_wf hw, State.okByte_eq]
  rfl

end

/-! ### What they do to the ring (R110, R111) -/

section
variable {cap : Nat} {r : RxBuffer}

/-- A push with room appends its byte to the contents, writing the first free cell of the array and no other. -/
theorem rxbPush_appends (hm : r.mem.wf) (hroom : r.cnt < cap) (b : Byte) :
    contents cap (rxbPush cap b r).2 = contents cap r ++ [b] ∧ (rxbPush cap b r).2.rd = r.rd ∧
      (rxbPush cap b r).2.cnt = r.cnt + 1 ∧ (rxbPush cap b r).2.ovf = r.ovf ∧
      (rxbPush cap b r).2.mem.read (ringIndex cap r r.cnt) = b ∧
      ∀ a, a ≠ ringIndex cap r r.cnt → (rxbPush cap b r).2.mem.read a = r.mem.read a := by
  refine ⟨contents_push hm hroom b, ?_⟩
  rw [rxbPush_room (by omega)]
  refine ⟨rfl, rfl, rfl, ?_, fun a ha => ?_⟩
  · rw [Memory.read_write hm, if_pos rfl]
  · rw [Memory.read_write hm, if_neg ha]

theorem rxbPop_rd (h : r.cnt ≠ 0) : (rxbPop cap r).2.rd = (r.rd + 1) % cap := by rw [rxbPop_some h]

end

/-- Settles O21: the ring's push, by room or by none, in one transaction. -/
theorem rxbPushAppendsOrLatches : Obligations.RxbPushAppendsOrLatches := by
  refine ⟨fun _ => rfl, fun s b ⟨hw, ⟨_, _, hm, _⟩, _⟩ => ⟨fun hroom => ?_, fun hfull => ?_⟩⟩
  · refine ⟨_, ?_, rxbPush_appends hm hroom b⟩
    have haccepted : (rxbPush s.cfg.ringCap b s.rxb).1 = true := by rw [rxbPush_room (by omega)]
    rw [exec_rxbPush hw, haccepted]
    rfl
  · rw [exec_rxbPush hw, rxbPush_full hfull]
    rfl

/-- Settles O22: a pop answers the head of the contents and leaves their tail. -/
theorem rxbPopTakesTheOldest : Obligations.RxbPopTakesTheOldest := by
  refine ⟨rfl, fun s ⟨hw, ⟨hrd, _⟩, _⟩ => ⟨fun b q hq => ?_, fun hq => ?_⟩⟩
  · have hanswer := rxbPop_answer hrd
    have hrest := contents_pop (cap := s.cfg.ringCap) s.rxb
    have hsome : s.rxb.cnt ≠ 0 := by rw [← length_contents s.cfg.ringCap, ← State.q, hq]; simp
    rw [← State.q, hq] at hanswer hrest
    refine ⟨_, ?_, hrest, rxbPop_rd hsome, rxbPop_ovf _ _, fun a => by rw [rxbPop_mem]⟩
    rw [exec_rxbPop hw, hanswer]
    rfl
  · rw [Answers, exec_rxbPop hw, rxbPop_empty (contents_eq_nil.1 hq)]
    rfl

/-! ### The bounded FIFO queue (R121, R122) -/

/-- What the ring needs to be a queue: indices in range and the array in canonical form (R22 to R24). -/
structure RxBuffer.Fits (cap : Nat) (r : RxBuffer) : Prop where
  rd : r.rd < cap
  cnt : r.cnt ≤ cap
  mem : r.mem.wf

section
variable {cap : Nat} {r : RxBuffer}

theorem RxBuffer.Fits.push (h : r.Fits cap) (b : Byte) : (rxbPush cap b r).2.Fits cap := by
  by_cases hfull : r.cnt = cap
  · rw [rxbPush_full hfull]
    exact ⟨h.rd, h.cnt, h.mem⟩
  · rw [rxbPush_room hfull]
    exact ⟨h.rd, Nat.lt_of_le_of_ne h.cnt hfull, Memory.wf_write h.mem _ _⟩

theorem RxBuffer.Fits.pop (h : r.Fits cap) : (rxbPop cap r).2.Fits cap := by
  by_cases hempty : r.cnt = 0
  · rwa [rxbPop_empty hempty]
  · rw [rxbPop_some hempty]
    exact ⟨Nat.mod_lt _ (Nat.zero_lt_of_lt h.rd), (Nat.sub_le _ _).trans h.cnt, h.mem⟩

/-- One push: the queue answers as the ring does and goes on from the ring's new contents. -/
theorem runQueue_push (h : r.Fits cap) (b : Byte) (ops : List RingOp) :
    runQueue cap (.push b :: ops) (contents cap r) =
      (.pushed (rxbPush cap b r).1 :: (runQueue cap ops (contents cap (rxbPush cap b r).2)).1,
        (runQueue cap ops (contents cap (rxbPush cap b r).2)).2) := by
  by_cases hroom : r.cnt < cap
  · rw [runQueue, length_contents, if_pos hroom, contents_push h.mem hroom, rxbPush_room (by omega)]
  · rw [runQueue, length_contents, if_neg hroom, rxbPush_full (Nat.le_antisymm h.cnt (Nat.le_of_not_lt hroom))]
    rfl

/-- One pop, likewise. -/
theorem runQueue_pop (h : r.Fits cap) (ops : List RingOp) :
    runQueue cap (.pop :: ops) (contents cap r) =
      (.popped (rxbPop cap r).1 :: (runQueue cap ops (contents cap (rxbPop cap r).2)).1,
        (runQueue cap ops (contents cap (rxbPop cap r).2)).2) := by
  rw [runQueue, contents_pop, rxbPop_answer h.rd]

/-- The refinement: the contents are the abstraction function, and each operation commutes with it. -/
theorem runQueue_contents (ops : List RingOp) (h : r.Fits cap) :
    runQueue cap ops (contents cap r) = ((runRing cap ops r).1, contents cap (runRing cap ops r).2) := by
  induction ops generalizing r with
  | nil => rfl
  | cons op ops ih =>
    cases op with
    | push b => rw [runQueue_push h, ih (h.push b), runRing]
    | pop => rw [runQueue_pop h, ih h.pop, runRing]

end

theorem someRejected_pushed (accepted : Bool) (l : List RingAnswer) :
    someRejected (.pushed accepted :: l) = (!accepted || someRejected l) := by
  cases accepted with
  | false => rfl
  | true => rfl

theorem someRejected_popped (o : Option Byte) (l : List RingAnswer) :
    someRejected (.popped o :: l) = someRejected l := rfl

/-- The latch is sticky: only a rejected push sets it, and no push or pop clears it (R26, R122). -/
theorem runRing_ovf (cap : Nat) (ops : List RingOp) (r : RxBuffer) :
    (runRing cap ops r).2.ovf = (r.ovf || someRejected (runRing cap ops r).1) := by
  induction ops generalizing r with
  | nil => exact (Bool.or_false _).symm
  | cons op ops ih =>
    cases op with
    | push b =>
      have hlatch : (rxbPush cap b r).2.ovf = (!(rxbPush cap b r).1 || r.ovf) := rfl
      rw [runRing, someRejected_pushed, ih, hlatch, Bool.or_comm (!_), Bool.or_assoc]
    | pop => rw [runRing, someRejected_popped, ih, rxbPop_ovf]

/-- Settles O25: by the refinement of the ring to the queue, and the latch's own law. -/
theorem ringIsABoundedFifo : Obligations.RingIsABoundedFifo := fun cap ops r hrd hcnt hm => by
  rw [runQueue_contents ops ⟨hrd, hcnt, hm⟩]
  exact ⟨rfl, rfl, runRing_ovf cap ops r⟩

end Sys2Proof.Machine
end

section
/-! PROOFS. The partial resets (R119, R166, R202, R222, R223): each as the part of the state it writes. -/

namespace Sys2Proof.Machine

/-- A store selector is a slot selector with index 0 (R92). -/
theorem SSel.byte_zero (st : StoreSel) : (SSel.mk st 0#7).byte = storeByte st := by
  cases st with
  | inb => rfl
  | outb => rfl

theorem encodedAs_msClearAll (st : StoreSel) : EncodedAs (.msClearAll st) 0x4E#8 (SSel.mk st 0#7).byte 0#32 := by
  rw [SSel.byte_zero]
  rfl

/-- A store written in a fresh transaction and answered `OK, v`. -/
theorem State.fresh_setStore_ok (s : State) (st : StoreSel) (v : Store) (val : U32) :
    (s.fresh.setStore st v).ok val = { s.setStore st v with rsp := okRsp val, trace := [] } := by
  cases st with
  | inb => rfl
  | outb => rfl

section
variable {s : State} (hw : s.cfg.wf = true)
include hw

theorem exec_rxbClear :
    exec .rxbClear s = .next { s with rxb := rxbClear s.rxb, rsp := okRsp 0#32, trace := [] } := by
  rw [exec, execRxbClear, transact_wf hw]
  rfl

theorem exec_fpReset : exec .fpReset s = .next { s with
    rxb := rxbClear s.rxb, fp := ⟨false, tmrStop s.fp.itmr⟩, rsp := okRsp 0#32, trace := [] } := by
  rw [exec, execFpReset, transact_wf hw]
  rfl

theorem exec_nakResetCounter : exec .nakResetCounter s = .next { s with
    nak := { s.nak with cnt := 0#8 }, rsp := okRsp 0#32, trace := [] } := by
  rw [exec, execNakResetCounter, transact_wf hw]
  rfl

theorem exec_nakResetState : exec .nakResetState s = .next { s with
    nak := { s.nak with many := false }, rsp := okRsp 0#32, trace := [] } := by
  rw [exec, execNakResetState, transact_wf hw]
  rfl

theorem exec_msClearAll (st : StoreSel) : exec (.msClearAll st) s =
    .next { s.setStore st (msClearAll (s.store st)) with rsp := okRsp 0#32, trace := [] } := by
  rw [exec, execMsClearAll, transact_wf hw, State.fresh_setStore_ok, State.fresh_store]

end

/-- Settles O48: each reset by its equation, and the freed store slot by slot. -/
theorem partialResetsClearTheirPart : Obligations.PartialResetsClearTheirPart :=
  ⟨fun st => ⟨rfl, rfl, rfl, rfl, encodedAs_msClearAll st⟩,
    fun s st hw => ⟨exec_rxbClear hw, exec_fpReset hw, exec_nakResetCounter hw, exec_nakResetState hw, _,
      exec_msClearAll hw st, msClearAll_clearedFrom (s.store st)⟩⟩

end Sys2Proof.Machine
end

section
/-! PROOFS. ChecksumXOR (R130 to R134): the laws of the fold, what it says of a changed byte, and the two commands that
answer it. -/

namespace Sys2Proof.Machine

/-! ### The laws of the fold (R130) -/

theorem xorFold_append (s t : List Byte) : xorFold (s ++ t) = xorFold s ^^^ xorFold t ^^^ 0xAA#8 := by
  induction s with
  | nil => rw [List.nil_append, xorFold_nil, BitVec.xor_comm 0xAA#8, BitVec.xor_assoc, BitVec.xor_self, BitVec.xor_zero]
  | cons b s ih => rw [List.cons_append, xorFold_cons, xorFold_cons, ih, BitVec.xor_assoc, BitVec.xor_assoc,
      BitVec.xor_assoc]

theorem fold_snoc (s : List Byte) (c : Byte) : fold (s ++ [c]) = fold s ^^^ c := fold_append s [c]

theorem fold_perm {s t : List Byte} (h : s.Perm t) : fold s = fold t := h.foldl_eq _

/-- Settles O27: each law as a lemma above, the concatenation on the reference fold. -/
theorem foldIsOrderBlind : Obligations.FoldIsOrderBlind := fun s t c => by
  refine ⟨fold_eq_xorFold s, rfl, ?_, fold_snoc s c, fold_perm⟩
  rw [fold_eq_xorFold, fold_eq_xorFold, fold_eq_xorFold, xorFold_append]

/-! ### A changed byte (R133, R134) -/

/-- Replacing a byte changes the fold by the xor of the old byte and the new one, wherever it stands. -/
theorem xorFold_set {s : List Byte} {i : Nat} {b : Byte} (h : s[i]? = some b) (c : Byte) :
    xorFold (s.set i c) = xorFold s ^^^ (b ^^^ c) := by
  induction s generalizing i with
  | nil => cases h
  | cons d s ih =>
    cases i with
    | zero =>
      obtain rfl : d = b := Option.some.inj h
      rw [List.set_cons_zero, xorFold_cons, xorFold_cons, BitVec.xor_comm d (xorFold s), BitVec.xor_assoc,
        ← BitVec.xor_assoc d, BitVec.xor_self, BitVec.zero_xor, BitVec.xor_comm]
    | succ i => rw [List.set_cons_succ, xorFold_cons, xorFold_cons, ih h, BitVec.xor_assoc]

theorem cksVerify_iff_fold (s : List Byte) : cksVerify s = true ↔ fold s = 0#8 := beq_iff_eq

theorem cksVerify_snoc_fold (s : List Byte) : cksVerify (s ++ [fold s]) = true := by
  rw [cksVerify_iff_fold, fold_snoc, BitVec.xor_self]

/-- In a sequence that folds to zero the fold after a replacement is the difference of the two bytes. -/
theorem fold_set_of_verified {s : List Byte} {i : Nat} {b : Byte} (hs : cksVerify s = true) (h : s[i]? = some b)
    (c : Byte) : fold (s.set i c) = b ^^^ c := by
  rw [fold_eq_xorFold, xorFold_set h, (cksVerify_iff s).1 hs, BitVec.zero_xor]

/-- Settles O28: the new fold is the difference of the bytes, and that is zero only for equal bytes. -/
theorem singleByteChangeIsDetected : Obligations.SingleByteChangeIsDetected := fun s i b c => by
  refine ⟨cksVerify_snoc_fold s, fun hs hb => ⟨fun hne => ?_, fun k _ => ?_⟩⟩
  · rw [← Bool.not_eq_true, cksVerify_iff_fold, fold_set_of_verified hs hb, BitVec.xor_eq_zero_iff]
    exact hne.symm
  · rw [fold_set_of_verified hs hb, ← BitVec.xor_assoc, BitVec.xor_self, BitVec.zero_xor]

/-! ### The commands (R131, R132) -/

/-- A payload that fits has its length in `b` (R87, R91). -/
theorem payloadCommand_fits {data : List Byte} (h : data.length < 65536) (op a : Byte) :
    payloadCommand op a data = .command (op ++ a ++ BitVec.ofNat 32 data.length) data := by
  have hn : (BitVec.ofNat 16 data.length).setWidth 32 = BitVec.ofNat 32 data.length := by
    apply BitVec.eq_of_toNat_eq
    rw [BitVec.toNat_setWidth, BitVec.toNat_ofNat, BitVec.toNat_ofNat, Nat.mod_eq_of_lt h]
  rw [payloadCommand, hn, mkWord]

/-- Settles O26: both commands only answer, and the verdict is whether the fold is zero. -/
theorem checksumCommandsAnswerTheFold : Obligations.ChecksumCommandsAnswerTheFold := by
  refine ⟨fun data h => ⟨payloadCommand_fits h _ _, payloadCommand_fits h _ _⟩, fun s data hw => ?_⟩
  have hcompute : Answers s (.cksCompute data) (okRsp (byteCode (fold data))) :=
    answers_ok (f := fun _ => byteCode (fold data)) hw rfl
  have hverify : Answers s (.cksVerify data) (okRsp (boolCode (cksVerify data))) :=
    answers_ok (f := fun _ => boolCode (cksVerify data)) hw rfl
  refine ⟨?_, fun hzero => ?_, fun hnonzero => ?_⟩
  · rwa [fold_eq_xorFold] at hcompute
  · rwa [(cksVerify_iff data).2 hzero] at hverify
  · rwa [Bool.eq_false_iff.2 fun hv => hnonzero ((cksVerify_iff data).1 hv)] at hverify

end Sys2Proof.Machine
end

section
/-! PROOFS. SoftwareTimers (R140 to R143, R145, R146): the commands that write one timer, what TMR_TIMEDOUT answers, and
how many instants lie on a timer's arc. -/

namespace Sys2Proof.Machine

/-! ### The commands that write a timer (R140 to R142) -/

/-- A command whose transaction changes the timer it selects, with the sampled clock, writes that timer and no other. -/
theorem writesTimer_of_exec {s : State} {i : TSel → Instr} {f : U32 → Timer → Timer} (h : s.Inv)
    (he : ∀ t, exec (i t) s = transactIf (tselLegal s.cfg t) s fun u => (u.mapTimer t (f u.now)).ok 0#32) :
    WritesTimer s i (f s.now) := by
  refine ⟨(he .itmr).trans (transactIf_legal h.1 _), fun sel hi => ?_⟩
  have hlegal : idxLegal s.cfg sel.idx = true := idxLegal_of_lt hi
  refine ⟨_, ?_, changedAt_modify (idx_lt_of_legal h hlegal sel.store) fun sl => { sl with tmr := f s.now sl.tmr }⟩
  rw [he, tselLegal, hlegal, transactIf_legal h.1, State.mapTimer, State.mapSlot, State.fresh_setStore_ok,
    State.fresh_store]
  rfl

/-- Settles O29: each command is its timer operation in one transaction behind the selector. -/
theorem timerCommandsWriteOneTimer : Obligations.TimerCommandsWriteOneTimer :=
  ⟨fun _ _ => ⟨rfl, rfl, rfl⟩, fun _ d h =>
    ⟨writesTimer_of_exec (f := fun now => tmrStart now d) h fun _ => rfl,
      writesTimer_of_exec (f := fun _ => tmrStop) h fun _ => rfl,
      writesTimer_of_exec (f := tmrRestart) h fun _ => rfl⟩⟩

/-! ### The arc (R143) -/

theorem selectorLegal_tmrTimedout (cfg : Config) (t : TSel) :
    (Instr.tmrTimedout t).selectorLegal cfg = tselLegal cfg t := selectorLegal_tmrStop cfg t

theorem answers_tmrTimedout {s : State} {t : TSel} (hw : s.cfg.wf = true) (ht : tselLegal s.cfg t = true) :
    Answers s (.tmrTimedout t) (okRsp (boolCode ((s.timer t).timedOut s.now))) := by
  have h := answers_ok_of_legal hw ht (i := .tmrTimedout t) (f := fun u => boolCode ((u.timer t).timedOut u.now)) rfl
  rwa [State.fresh_timer] at h

/-- Every timer keeps R145, that of a slot the store does not have included. -/
theorem State.Inv.timer_inv {s : State} (h : s.Inv) (t : TSel) : (s.timer t).Inv := by
  cases t with
  | itmr => exact h.itmr_inv
  | slot sel =>
    obtain ⟨-, -, -, -, htmr⟩ := Store.slotAt_inv (h.store_inv sel.store) sel.idx.toNat
    exact htmr

/-- R143 under R145, as a property of the time since the start. -/
theorem Timer.timedOut_iff {t : Timer} (h : t.Inv) (now : U32) :
    t.timedOut now = true ↔ t.active = true ∧ t.dur < now - t.start := by
  rw [Timer.timedOut_eq h, Bool.and_eq_true, decide_eq_true_iff]

theorem Timer.not_timedOut_iff {t : Timer} (h : t.Inv) (now : U32) :
    t.timedOut now = false ↔ t.active = false ∨ now - t.start ≤ t.dur := by
  rw [Timer.timedOut_eq h, Bool.and_eq_false_iff, decide_eq_false_iff_not, BitVec.not_lt]

/-- Settles O30: the answer is the timer's verdict, which R145 makes a comparison with the duration. -/
theorem timedOutIsOffTheArc : Obligations.TimedOutIsOffTheArc := by
  refine ⟨fun _ => rfl, fun s t h ht => ?_⟩
  rw [selectorLegal_tmrTimedout] at ht
  have htimer : (s.timer t).Inv := h.timer_inv t
  have hanswer := answers_tmrTimedout h.1 ht
  refine ⟨fun hoff => ?_, fun hon => ?_⟩
  · rwa [(Timer.timedOut_iff htimer s.now).2 hoff] at hanswer
  · rwa [(Timer.not_timedOut_iff htimer s.now).2 hon] at hanswer

/-! ### Counting the instants on the arc (R146) -/

theorem elapsed_injective (start : U32) : Function.Injective fun now : U32 => (now - start).toNat :=
  fun _ _ h => (BitVec.sub_left_inj start).1 (BitVec.eq_of_toNat_eq h)

theorem elapsed_add (start : U32) {n : Nat} (h : n < 2 ^ 32) : (start + BitVec.ofNat 32 n - start).toNat = n := by
  rw [BitVec.add_comm, BitVec.add_sub_cancel, BitVec.toNat_ofNat, Nat.mod_eq_of_lt h]

/-- As many instants lie at most `d` ticks after `start` as there are numbers up to `d`. -/
theorem ncard_elapsed_le (start d : U32) : Set.ncard {now : U32 | now - start ≤ d} = d.toNat + 1 := by
  have hrange : Set.Iic d.toNat ⊆ Set.range fun now : U32 => (now - start).toNat := fun n hn =>
    ⟨start + BitVec.ofNat 32 n, elapsed_add start (Nat.lt_of_le_of_lt hn d.isLt)⟩
  calc Set.ncard {now : U32 | now - start ≤ d}
      = ((fun now : U32 => (now - start).toNat) ⁻¹' Set.Iic d.toNat).ncard := rfl
    _ = (Set.Iic d.toNat).ncard := Set.ncard_preimage_of_injective_subset_range (elapsed_injective start) hrange
    _ = d.toNat + 1 := Set.ncard_Iic_nat d.toNat

/-- Settles O31: the instants at which an active timer is not timed out are those within its duration. -/
theorem arcHasDurPlusOneInstants : Obligations.ArcHasDurPlusOneInstants := by
  intro t h hactive
  have harc : {now : U32 | t.timedOut now = false} = {now : U32 | now - t.start ≤ t.dur} := by
    ext now
    simp [Timer.not_timedOut_iff h, hactive]
  rw [harc, ncard_elapsed_le]

end Sys2Proof.Machine
end

section
/-! PROOFS. The queries of the MessageSlotStore (R156, R162, R163, R167, R168) and the engine's forms of them (R242,
R247): each answers what its scan finds and changes nothing. -/

namespace Sys2Proof.Machine

/-! ### Responses that carry a slot index (R96) -/

/-- The response of an operation that returns a slot index: `OK` with the index, `FAIL` with `NONE` without one. -/
def indexRsp : Option Nat → Option Response
  | some i => okRsp (BitVec.ofNat 32 i)
  | none => failRsp 0xFF#32

theorem State.okIndex_eq (s : State) (o : Option Nat) : s.okIndex o = { s with rsp := indexRsp o } := by
  cases o with
  | none => rfl
  | some i => rfl

theorem answers_okIndex {s : State} {i : Instr} {f : State → Option Nat} (hw : s.cfg.wf = true)
    (he : exec i s = transact s fun u => u.okIndex (f u)) : Answers s i (indexRsp (f s.fresh)) := by
  rw [Answers, he, transact_wf hw, State.okIndex_eq]
  rfl

/-! ### The scans as transactions (R156, R162, R163, R247) -/

/-- `ENG_GET_NEWEST_RX` is `MS_GET_NEWEST` on the inbound store (R247). -/
theorem exec_engGetNewestRx (s : State) : exec .engGetNewestRx s = exec (.msGetNewest .inb) s := rfl

/-- `ENG_COUNT_TIMEOUTS` is `MS_COUNT_TIMEDOUT` on the outbound store (R242). -/
theorem exec_engCountTimeouts (s : State) : exec .engCountTimeouts s = exec (.msCountTimedout .outb) s := rfl

section
variable {s : State} (hw : s.cfg.wf = true) (st : StoreSel)
include hw

theorem answers_msGetFree : Answers s (.msGetFree st) (indexRsp (msGetFree (s.store st))) := by
  have h := answers_okIndex hw (i := .msGetFree st) (f := fun u => msGetFree (u.store st)) rfl
  rwa [State.fresh_store] at h

theorem answers_msGetOldest : Answers s (.msGetOldest st) (indexRsp (msGetOldest (s.store st))) := by
  have h := answers_okIndex hw (i := .msGetOldest st) (f := fun u => msGetOldest (u.store st)) rfl
  rwa [State.fresh_store] at h

theorem answers_msGetNewest : Answers s (.msGetNewest st) (indexRsp (msGetNewest (s.store st))) := by
  have h := answers_okIndex hw (i := .msGetNewest st) (f := fun u => msGetNewest (u.store st)) rfl
  rwa [State.fresh_store] at h

theorem answers_msGetNewest_some {o : Nat} (h : IsNewest (s.store st) o) :
    Answers s (.msGetNewest st) (okRsp (BitVec.ofNat 32 o)) := by
  have hanswer := answers_msGetNewest hw st
  rwa [msGetNewest_some.2 h] at hanswer

theorem answers_msGetNewest_none (h : ∀ sl ∈ s.store st, sl.valid = false) :
    Answers s (.msGetNewest st) (failRsp 0xFF#32) := by
  have hanswer := answers_msGetNewest hw st
  rwa [msGetNewest_none.2 h] at hanswer

end

/-- Settles O32: the answer is the index the scan for a free slot finds. -/
theorem getFreeAnswersFirstFree : Obligations.GetFreeAnswersFirstFree := by
  refine ⟨fun st => ?_, fun s st hw => ?_⟩
  · rw [SSel.byte_zero]
    rfl
  · have hanswer := answers_msGetFree hw st
    refine ⟨fun d hd => ?_, fun hfull => ?_⟩
    · rwa [msGetFree_some.2 hd] at hanswer
    · rwa [msGetFree_none.2 hfull] at hanswer

/-- Settles O36: the answers are the indices the two scans by rank find. -/
theorem oldestAndNewestByRank : Obligations.OldestAndNewestByRank := by
  refine ⟨fun st => ?_, fun s st hw => ?_⟩
  · rw [SSel.byte_zero]
    exact ⟨rfl, rfl, rfl⟩
  · have holdest := answers_msGetOldest hw st
    refine ⟨fun o ho => ?_, fun o ho => answers_msGetNewest_some hw st ho,
      fun hnone => ⟨?_, answers_msGetNewest_none hw st hnone⟩, fun o ho => ?_, fun hnone => ?_⟩
    · rwa [msGetOldest_some.2 ho] at holdest
    · rwa [msGetOldest_none.2 hnone] at holdest
    · rw [Answers, exec_engGetNewestRx]
      exact answers_msGetNewest_some hw .inb ho
    · rw [Answers, exec_engGetNewestRx]
      exact answers_msGetNewest_none hw .inb hnone

/-! ### Overdue slots (R167, R168, R242) -/

theorem map_slotAt_range (v : Store) : (List.range v.length).map (slotAt v) = v := by
  refine store_ext (by simp) fun i hi => ?_
  have hi' : i < v.length := by simpa using hi
  rw [slotAt_of_lt hi, List.getElem_map, List.getElem_range]

/-- The slots with a property are as many as the indices of such slots. -/
theorem countP_eq_filter_range (p : Slot → Bool) (v : Store) :
    v.countP p = ((List.range v.length).filter fun j => p (slotAt v j)).length := by
  conv_lhs => rw [← map_slotAt_range v]
  rw [List.countP_map, List.countP_eq_length_filter]
  rfl

theorem msOldestTimedout_of_isOldest {v : Store} {o : Nat} (h : IsOldest v o) (now : U32) :
    msOldestTimedout now v = (slotAt v o).overdue now := by
  rw [msOldestTimedout, msGetOldest_some.2 h, Slot.overdue, h.1, Bool.true_and]

theorem msOldestTimedout_of_none {v : Store} (h : ∀ sl ∈ v, sl.valid = false) (now : U32) :
    msOldestTimedout now v = false := by rw [msOldestTimedout, msGetOldest_none.2 h]

theorem answers_msCountTimedout {s : State} (h : s.Inv) (st : StoreSel) : Answers s (.msCountTimedout st) (okRsp
    (BitVec.ofNat 32 ((List.range s.cfg.nSlots).filter fun j => (slotAt (s.store st) j).overdue s.now).length)) := by
  obtain ⟨hlen, -⟩ := h.store_inv st
  have hanswer := answers_ok h.1 (i := .msCountTimedout st)
    (f := fun u => natCode (msCountTimedout u.now (u.store st))) rfl
  rwa [State.fresh_store, msCountTimedout, countP_eq_filter_range, hlen] at hanswer

theorem answers_msOldestTimedout {s : State} (hw : s.cfg.wf = true) (st : StoreSel) :
    Answers s (.msOldestTimedout st) (okRsp (boolCode (msOldestTimedout s.now (s.store st)))) := by
  have h := answers_ok hw (i := .msOldestTimedout st)
    (f := fun u => boolCode (msOldestTimedout u.now (u.store st))) rfl
  rwa [State.fresh_store] at h

/-- Settles O37: `late` is `Slot.overdue`; the count goes over the indices, the verdict is the oldest slot's. -/
theorem timeoutQueriesCountOverdueSlots : Obligations.TimeoutQueriesCountOverdueSlots := by
  refine ⟨fun st => ?_, fun s st late h hlate => ?_⟩
  · rw [SSel.byte_zero]
    exact ⟨rfl, rfl, rfl⟩
  · obtain rfl : late = fun v j => (slotAt v j).overdue s.now := funext fun v => funext (hlate v)
    have holdest := answers_msOldestTimedout h.1 st
    refine ⟨answers_msCountTimedout h st, ?_, fun o ho => ?_, fun hnone => ?_⟩
    · rw [Answers, exec_engCountTimeouts]
      exact answers_msCountTimedout h .outb
    · rwa [msOldestTimedout_of_isOldest ho] at holdest
    · rwa [msOldestTimedout_of_none hnone] at holdest

end Sys2Proof.Machine
end

section
/-! PROOFS. The writes of the MessageSlotStore (R157 to R161, R165, R169, R170): the commands on one slot, on a slot and
the ranks of the others, and where a bump would meet rank 255 (R173). -/

namespace Sys2Proof.Machine

/-! ### A store written in a transaction -/

theorem State.setStore_store (s : State) (st : StoreSel) : s.setStore st (s.store st) = s := by
  cases st with
  | inb => rfl
  | outb => rfl

/-- A store written in a fresh transaction and answered with any response. -/
theorem State.fresh_setStore_rsp (s : State) (st : StoreSel) (v : Store) (r : Option Response) :
    { s.fresh.setStore st v with rsp := r } = { s.setStore st v with rsp := r, trace := [] } := by
  cases st with
  | inb => rfl
  | outb => rfl

theorem modify_eq_self {v : Store} {i : Nat} {f : Slot → Slot} (h : f (slotAt v i) = slotAt v i) :
    v.modify i f = v := by
  refine store_ext (by simp) fun j _ => ?_
  rw [slotAt_modify]
  split
  · rename_i hj
    rw [h, hj.1]
  · rfl

/-! ### One field of one slot (R158, R169, R170) -/

/-- A command whose transaction changes the slot it selects, with the sampled clock, writes that slot and no other. -/
theorem writesSlot_of_exec {s : State} {i : SSel → Instr} {f : U32 → Slot → Slot} (h : s.Inv)
    (he : ∀ sel, exec (i sel) s = transactIf (idxLegal s.cfg sel.idx) s fun u => (u.mapSlot sel (f u.now)).ok 0#32) :
    WritesSlot s i (f s.now) := fun sel hi => by
  have hlegal : idxLegal s.cfg sel.idx = true := idxLegal_of_lt hi
  refine ⟨_, ?_, changedAt_modify (idx_lt_of_legal h hlegal sel.store) (f s.now)⟩
  rw [he, hlegal, transactIf_legal h.1, State.mapSlot, State.fresh_setStore_ok, State.fresh_store, State.fresh_now]

theorem msIncTx_eq : msIncTx = fun sl => { sl with txc := satSucc sl.txc } := by
  funext sl
  rw [msIncTx, sat8Inc_eq_satSucc]

/-- Settles O38: each command is its slot operation in one transaction behind the selector. -/
theorem slotCommandsChangeOneField : Obligations.SlotCommandsChangeOneField := by
  refine ⟨fun _ => ⟨rfl, rfl, rfl⟩, fun s h => ⟨?_, ?_, ?_⟩⟩
  · exact writesSlot_of_exec (f := fun _ => msDiscard) h fun _ => rfl
  · rw [← msIncTx_eq]
    exact writesSlot_of_exec (f := fun _ => msIncTx) h fun _ => rfl
  · exact writesSlot_of_exec (f := msResetDeadline) h fun _ => rfl

/-! ### Append (R157) -/

theorem exec_msAppend {s : State} {sel : SSel} (hw : s.cfg.wf = true) (hi : sel.idx.toNat < s.cfg.nSlots) (b : Byte) :
    exec (.msAppend sel b) s = .next { s.setStore sel.store
      ((s.store sel.store).modify sel.idx.toNat fun sl => (msAppend s.cfg.slotCap b sl).2) with
        rsp := unitRsp (msAppend s.cfg.slotCap b (s.slot sel)).1, trace := [] } := by
  rw [exec, execMsAppend, idxLegal_of_lt hi, transactIf_legal hw, State.okUnit_eq, State.mapSlot,
    State.fresh_setStore_rsp, State.fresh_store, State.fresh_slot, State.fresh_cfg]

theorem ofNat_succ_len (v : BitVec 8) : BitVec.ofNat 8 (v.toNat + 1) = v + 1#8 := by
  apply BitVec.eq_of_toNat_eq
  rw [BitVec.toNat_ofNat, BitVec.toNat_add]
  rfl

theorem changedAt_msAppend {v : Store} {i cap : Nat} (hi : i < v.length) (hroom : (slotAt v i).len.toNat ≠ cap)
    (b : Byte) : ChangedAt v (v.modify i fun sl => (msAppend cap b sl).2) i { slotAt v i with
      buf := (slotAt v i).buf.write (slotAt v i).len.toNat b
      len := BitVec.ofNat 8 ((slotAt v i).len.toNat + 1) } := by
  have h := changedAt_modify hi fun sl => (msAppend cap b sl).2
  rw [msAppend_room hroom b] at h
  rw [ofNat_succ_len]
  exact h

/-- Settles O33: with room the byte is one write at `len`; without, the slot and so the store are as they were. -/
theorem appendStoresAtLen : Obligations.AppendStoresAtLen := by
  refine ⟨fun _ _ => rfl, fun s sel b h hi => ?_⟩
  have hexec := exec_msAppend h.1 hi b
  refine ⟨fun hroom => ?_, fun hfull => ?_⟩
  · have hlt := idx_lt_of_legal h (idxLegal_of_lt hi) sel.store
    obtain ⟨hbuf, -⟩ := Store.slotAt_inv (h.store_inv sel.store) sel.idx.toNat
    rw [msAppend_room (Nat.ne_of_lt hroom)] at hexec
    exact ⟨_, _, hexec, changedAt_msAppend hlt (Nat.ne_of_lt hroom) b,
      (Memory.read_write hbuf _ b _).trans (if_pos rfl), fun a ha => (Memory.read_write hbuf _ b a).trans (if_neg ha)⟩
  · rw [Answers, hexec, msAppend_full hfull, modify_eq_self (congrArg Prod.snd (msAppend_full hfull b)),
      State.setStore_store]
    rfl

/-! ### Delete (R165, R248) -/

/-- `ENG_DELETE_RX` is `MS_DELETE` on the inbound store (R248). -/
theorem exec_engDeleteRx (j : BitVec 7) (s : State) : exec (.engDeleteRx j) s = exec (.msDelete ⟨.inb, j⟩) s := rfl

section
variable {s : State} {sel : SSel} (hw : s.cfg.wf = true) (hi : sel.idx.toNat < s.cfg.nSlots)
include hw hi

theorem exec_msDelete : exec (.msDelete sel) s = .next { s.setStore sel.store
    (msDelete sel.idx.toNat (s.store sel.store)) with rsp := okRsp 0#32, trace := [] } := by
  rw [exec, execMsDelete, idxLegal_of_lt hi, transactIf_legal hw, State.fresh_setStore_ok, State.fresh_store]

theorem exec_msDelete_valid (hvalid : (s.slot sel).valid = true) : ∃ v,
    exec (.msDelete sel) s = .next { s.setStore sel.store v with rsp := okRsp 0#32, trace := [] } ∧
      DeletedFrom (s.store sel.store) v sel.idx.toNat :=
  ⟨_, exec_msDelete hw hi, msDelete_deletedFrom hvalid⟩

theorem answers_msDelete_free (hfree : (s.slot sel).valid = false) : Answers s (.msDelete sel) (okRsp 0#32) := by
  rw [Answers, exec_msDelete hw hi, msDelete_free hfree, State.setStore_store]

end

/-- Settles O35: a valid slot and a free one, on the selected store and on the inbound one. -/
theorem deleteFreesAndClosesTheHole : Obligations.DeleteFreesAndClosesTheHole := by
  refine ⟨fun _ => ⟨rfl, rfl⟩, fun s sel h hi => ?_⟩
  rw [Answers, Answers, exec_engDeleteRx]
  exact ⟨exec_msDelete_valid h.1 hi, answers_msDelete_free h.1 hi,
    exec_msDelete_valid (sel := ⟨.inb, sel.idx⟩) h.1 hi, answers_msDelete_free (sel := ⟨.inb, sel.idx⟩) h.1 hi⟩

/-! ### Validate and mark (R159 to R161, R173) -/

theorem bump_bumpedTo {v : Store} {i : Nat} (h : i < v.length) :
    BumpedTo v (bump i v) i { slotAt v i with rank := 1#8 } :=
  ⟨length_bump i v, slotAt_bump_self h, fun _ hj => slotAt_bump_other hj⟩

/-- The command `i` writes the store of `sel` by `f`, with the sampled clock, behind the test of its bump. -/
def BumpsStore (s : State) (i : Instr) (sel : SSel) (f : U32 → Store → Store) : Prop :=
  exec i s = transactBumpIf (idxLegal s.cfg sel.idx) (fun u => meetsTop sel.idx.toNat (u.store sel.store)) s fun u =>
    (u.setStore sel.store (f u.now (u.store sel.store))).ok 0#32

section
variable {s : State} {i : Instr} {sel : SSel} {f : U32 → Store → Store}

theorem BumpsStore.exec_below (h : BumpsStore s i sel f) (hw : s.cfg.wf = true) (hi : sel.idx.toNat < s.cfg.nSlots)
    (hbelow : ¬ BumpMeetsTop sel.idx.toNat (s.store sel.store)) : exec i s =
      .next { s.setStore sel.store (f s.now (s.store sel.store)) with rsp := okRsp 0#32, trace := [] } := by
  have htest : meetsTop sel.idx.toNat (s.fresh.store sel.store) = false := by
    rwa [State.fresh_store, meetsTop_false]
  rw [h, idxLegal_of_lt hi, transactBumpIf_below hw htest, State.fresh_setStore_ok, State.fresh_store, State.fresh_now]

theorem BumpsStore.exec_top (h : BumpsStore s i sel f) (hw : s.cfg.wf = true) (hi : sel.idx.toNat < s.cfg.nSlots)
    (htop : BumpMeetsTop sel.idx.toNat (s.store sel.store)) : exec i s = .fault .rankSaturation := by
  have htest : meetsTop sel.idx.toNat (s.fresh.store sel.store) = true := by
    rwa [State.fresh_store, meetsTop_iff]
  rw [h, idxLegal_of_lt hi, transactBumpIf_top hw htest]

end

theorem msValidate_bumpsStore (s : State) (sel : SSel) (d : U32) :
    BumpsStore s (.msValidate sel d) sel fun now => msValidate sel.idx.toNat now d := rfl

theorem msMarkRetx_bumpsStore (s : State) (sel : SSel) (d : U32) :
    BumpsStore s (.msMarkRetx sel d) sel fun now => msMarkRetx sel.idx.toNat now d := rfl

/-- Settles O34: the bump slot by slot, and both commands as a bump and a change of the bumped slot, or its stop. -/
theorem validateAndMarkRankNewest : Obligations.ValidateAndMarkRankNewest := by
  refine ⟨fun _ _ => ⟨rfl, rfl⟩, fun _ _ => bump_bumpedTo, fun s sel d h hi => ?_⟩
  have hlt := idx_lt_of_legal h (idxLegal_of_lt hi) sel.store
  have hvalidate := msValidate_bumpsStore s sel d
  have hmark := msMarkRetx_bumpsStore s sel d
  refine ⟨fun hbelow => ?_, fun htop => ⟨hvalidate.exec_top h.1 hi htop, hmark.exec_top h.1 hi htop⟩⟩
  exact ⟨_, _, hvalidate.exec_below h.1 hi hbelow, msValidate_bumpedTo hlt s.now d,
    hmark.exec_below h.1 hi hbelow, msMarkRetx_bumpedTo hlt s.now d⟩

end Sys2Proof.Machine
end

section
/-! PROOFS. ENG_PARSE at the top of the ranks (R173, R200, R233): the parser accepts a legal frame, and the bump for the
slot that takes it stops the engine. -/

namespace Sys2Proof.Machine

/-- The parser accepts a whole legal frame (R199, R200). -/
theorem fpParse_ok_of_legalFrame {s : State} {d : Nat} {f rest : List Byte} (h : s.Inv) (hd : d < s.cfg.nSlots)
    (ho : s.rxb.ovf = false) (ht : s.armedItmr.timedOut s.now = false) (hf : LegalFrame s.cfg f)
    (hq : s.q = f ++ rest) : (fpParse d s).1 = .ok := by
  obtain ⟨c, l, tail, rfl, hlen, hadmits, hfold⟩ := hf
  obtain ⟨r, v, sl, hparse, -⟩ := fpParse_accepts h hd ho ht rfl hadmits hlen hfold hq
  rw [hparse]

/-- The engine's stop includes that of the parser run into the first free inbound slot. -/
theorem engParseMeetsTop_of_fpMeetsTop {s : State} {d : Nat} (hd : IsFirstFree s.inb d)
    (htop : fpMeetsTop d s = true) : engParseMeetsTop s = true := by
  rw [engParseMeetsTop, msGetFree_some.2 hd, Option.any_some, htop, Bool.true_or]

/-- Settles O55: the parser would accept the frame into the first free slot, and that slot's bump meets the top. -/
theorem cleanFrameStopsAtTheTop : Obligations.CleanFrameStopsAtTheTop := by
  intro s d f rest h ho ht hfree htop hf hq
  have hd : d < s.cfg.nSlots := h.inb_inv.1 ▸ hfree.1
  have hok : (fpParse d s.fresh).1 = .ok := fpParse_ok_of_legalFrame (s := s.fresh) h hd ho ht hf hq
  have hmeets : fpMeetsTop d s.fresh = true := fpMeetsTop_iff.2 ⟨hok, htop⟩
  exact transactBump_top h.1 (engParseMeetsTop_of_fpMeetsTop hfree hmeets) _

end Sys2Proof.Machine
end

section
/-! PROOFS. FP_PARSE, step by step (R193 to R201, R204, R207): the parser's outcome by the branch it takes, then the
command as that outcome in one transaction. -/

namespace Sys2Proof.Machine

/-! ### The command as the parser in one transaction (R192, R173) -/

section
variable {s t : State} {d : BitVec 7} {r r' : ParserOutcome} (hw : s.cfg.wf = true) (hd : d.toNat < s.cfg.nSlots)
include hw hd

theorem exec_fpParse_below (hparse : fpParse d.toNat s.fresh = (r, t))
    (hbelow : r = .ok → ¬ BumpMeetsTop d.toNat s.inb) :
    exec (.fpParse d) s = .next { t with rsp := okRsp r.code } := by
  have htest : fpMeetsTop d.toNat s.fresh = false := by
    rw [← Bool.not_eq_true, fpMeetsTop_iff, hparse]
    exact fun ⟨hok, htop⟩ => hbelow hok htop
  rw [exec, execFpParse, idxLegal_of_lt hd, transactBumpIf_below hw htest, hparse]
  rfl

theorem exec_fpParse_top (hok : (fpParse d.toNat s.fresh).1 = .ok) (htop : BumpMeetsTop d.toNat s.inb) :
    exec (.fpParse d) s = .fault .rankSaturation := by
  rw [exec, execFpParse, idxLegal_of_lt hd, transactBumpIf_top hw (fpMeetsTop_iff.2 ⟨hok, htop⟩)]

/-- Where the failure latch chooses between two outcomes, neither of them P_OK. -/
theorem exec_fpParse_latched {latch : Bool} (hparse : fpParse d.toNat s.fresh = (if latch then r else r', t))
    (hr : r ≠ .ok) (hr' : r' ≠ .ok) :
    exec (.fpParse d) s = .next { t with rsp := okRsp (if latch then r.code else r'.code) } := by
  have hne : (if latch then r else r') ≠ .ok := by
    split
    · exact hr
    · exact hr'
  rw [exec_fpParse_below hw hd hparse fun hok => absurd hok hne, apply_ite ParserOutcome.code]

end

/-! ### The ring is discarded (R193, R195) -/

theorem State.armedItmr_of_timedOut {s : State} (h : s.fp.itmr.timedOut s.now = true) : s.armedItmr = s.fp.itmr := by
  have hactive : s.fp.itmr.active = true := by
    by_contra hinactive
    rw [Timer.timedOut_of_inactive (Bool.not_eq_true _ ▸ hinactive)] at h
    cases h
  rw [State.armedItmr, if_pos hactive]

/-- Settles O42: step 1 on an overflowed ring, step 3 on one whose running timer has expired. -/
theorem parserDiscardsTheRing : Obligations.ParserDiscardsTheRing := by
  intro s d hw hd
  refine ⟨fun ho => ?_, fun ho hq hexpired => ?_⟩
  · exact exec_fpParse_latched hw hd (fpParse_overflow (s := s.fresh) d.toNat ho) (by decide) (by decide)
  · have harmed := State.armedItmr_of_timedOut hexpired
    have hparse := fpParse_expired (s := s.fresh) d.toNat ho hq (by rwa [State.fresh_armedItmr, harmed])
    rw [State.fresh_armedItmr, harmed] at hparse
    exact exec_fpParse_latched hw hd hparse (by decide) (by decide)

/-! ### The parser waits (R194, R196, R198) -/

section
variable {s : State} {d : Nat} {m c l : Byte} {rest : List Byte}

theorem cnt_ne_zero_of_q (hq : s.q ≠ []) : s.rxb.cnt ≠ 0 := fun hc => hq (State.q_eq_nil.2 hc)

/-- Step 6 on a legal header whose frame is not whole (R198). -/
theorem fpParse_incomplete (ho : s.rxb.ovf = false) (ht : s.armedItmr.timedOut s.now = false) (h4 : 4 ≤ s.q.length)
    (hq : s.q = magicRx :: c :: l :: rest) (hadmits : WlAdmits s.cfg.wlRx c l.toNat)
    (hshort : s.q.length < l.toNat + 4) : fpParse d s = (.tooFew, fpArm s) := by
  have hq' : (fpArm s).q = magicRx :: c :: l :: rest := (fpArm_q s).trans hq
  rw [fpParse_frame d ho ht h4, fpFrame_good d hq' ⟨rfl, by rwa [fpArm_cfg]⟩, fpArm_q, if_pos hshort]

theorem fpParse_waits (ho : s.rxb.ovf = false) (hne : s.q ≠ []) (ht : s.armedItmr.timedOut s.now = false)
    (hwait : s.q.length < 4 ∨ ∃ c l rest, s.q = magicRx :: c :: l :: rest ∧
      WlAdmits s.cfg.wlRx c l.toNat ∧ s.q.length < l.toNat + 4) :
    fpParse d s = (.tooFew, { s with fp := { s.fp with itmr := s.armedItmr } }) := by
  have harm : fpArm s = { s with fp := { s.fp with itmr := s.armedItmr } } := fpArm_of_pending (cnt_ne_zero_of_q hne)
  rw [← harm]
  by_cases h4 : s.q.length < 4
  · exact fpParse_short d ho hne ht h4
  · obtain ⟨c, l, rest, hq, hadmits, hshort⟩ := hwait.resolve_left h4
    exact fpParse_incomplete ho ht (Nat.le_of_not_lt h4) hq hadmits hshort

end

/-- Settles O43: step 2 with nothing pending, steps 4 and 6 behind the timer it armed. -/
theorem parserWaitsForMoreBytes : Obligations.ParserWaitsForMoreBytes := by
  intro s d h hd ho
  refine ⟨fun hq => ?_, fun hne ht hwait => ?_⟩
  · exact exec_fpParse_below h.1 hd (fpParse_empty (s := s.fresh) d.toNat ho hq) nofun
  · exact exec_fpParse_below h.1 hd (fpParse_waits (s := s.fresh) ho hne ht hwait) nofun

/-! ### One byte is dropped (R197, R199, R201) -/

/-- A pop takes the first byte of the contents and leaves the overflow latch and the array. -/
theorem rxbPop_drops {cap : Nat} {u : RxBuffer} {m : Byte} {rest : List Byte} (hq : contents cap u = m :: rest)
    (ho : u.ovf = false) : contents cap (rxbPop cap u).2 = rest ∧ (rxbPop cap u).2.ovf = false ∧
      ∀ a, (rxbPop cap u).2.mem.read a = u.mem.read a := by
  refine ⟨?_, ?_, fun a => ?_⟩
  · rw [contents_pop, hq, List.tail_cons]
  · rw [rxbPop_ovf, ho]
  · rw [rxbPop_mem]

section
variable {s : State} {d : Nat} {m c l : Byte} {rest : List Byte} (ho : s.rxb.ovf = false)
  (ht : s.armedItmr.timedOut s.now = false) (h4 : 4 ≤ s.q.length) (hq : s.q = m :: c :: l :: rest)
include ho ht h4 hq

/-- Step 5 on a bad header drops (R197, R201). -/
theorem fpParse_badHeader (hbad : ¬ (m = magicRx ∧ WlAdmits s.cfg.wlRx c l.toNat)) : fpParse d s =
    (if s.fp.fail then .byteDropped else .reqNak,
      { s with rxb := (rxbPop s.cfg.ringCap s.rxb).2, fp := ⟨true, s.armedItmr⟩ }) := by
  have hne : s.q ≠ [] := by rw [hq]; exact List.cons_ne_nil _ _
  have hq' : (fpArm s).q = m :: c :: l :: rest := (fpArm_q s).trans hq
  rw [fpParse_frame d ho ht h4, fpFrame_bad d hq' (by rwa [fpArm_cfg]), fpDrop_eq,
    fpArm_of_pending (cnt_ne_zero_of_q hne)]

/-- Step 7 on a copy that does not fold to zero: the destination is emptied, one byte dropped (R199, R201). -/
theorem fpParse_badChecksum (h : s.Inv) (hd : d < s.cfg.nSlots) (hm : m = magicRx)
    (hadmits : WlAdmits s.cfg.wlRx c l.toNat) (hwhole : l.toNat + 4 ≤ s.q.length)
    (hfold : xorFold (s.q.take (l.toNat + 4)) ≠ 0#8) : ∃ v buf,
      fpParse d s = (if s.fp.fail then .byteDropped else .reqNak,
        { s with rxb := (rxbPop s.cfg.ringCap s.rxb).2, fp := ⟨true, s.armedItmr⟩, inb := v }) ∧
      ChangedAt s.inb v d { slotAt s.inb d with buf := buf, len := 0#8 } ∧
      ∀ a, l.toNat + 4 ≤ a → buf.read a = (slotAt s.inb d).buf.read a := by
  have hne : s.q ≠ [] := by rw [hq]; exact List.cons_ne_nil _ _
  have hfit : l.toNat + 4 ≤ s.cfg.slotCap := (admitted_fits h.1 (.inl hadmits)).2
  have harm := fpArm_of_pending (cnt_ne_zero_of_q hne)
  have hq' : (fpArm s).q = m :: c :: l :: rest := (fpArm_q s).trans hq
  obtain ⟨buf, len, hcopy, ⟨-, -, hbeyond⟩, -, -, hgood⟩ :=
    fpCopy_spec (s := fpArm s) (full := l.toNat + 4) (sl := slotAt s.inb d)
      (by rw [fpArm_cfg]; exact Store.slotAt_inv h.inb_inv d) (by rw [fpArm_cfg]; exact h.slotCap_le)
      (by rwa [fpArm_cfg]) (by rwa [fpArm_q])
  rw [fpArm_q] at hgood hbeyond
  have hchanged := changedAt_modify (h.inb_inv.1.symm ▸ hd) fun sl => msDiscard (fpCopy (fpArm s) (l.toNat + 4) sl).2
  rw [hcopy] at hchanged
  refine ⟨_, buf, ?_, hchanged, fun a ha => hbeyond a ?_⟩
  · rw [fpParse_frame d ho ht h4, fpFrame_good d hq' ⟨hm, by rwa [fpArm_cfg]⟩, fpArm_q, if_neg (Nat.not_lt.2 hwhole),
      fpTake, fpArm_inb, if_neg (mt hgood.1 hfold), fpDrop_eq, fpDiscardCopy, harm]
  · rwa [List.length_take_of_le hwhole]

end

/-- Settles O44: the two ways into DROP, a bad header and a copy that does not fold to zero. -/
theorem parserDropsOneByte : Obligations.ParserDropsOneByte := by
  intro s d m c l x rest h hd ho ht hq
  have h4 : 4 ≤ s.q.length := by rw [hq]; simp
  have hdrops := rxbPop_drops hq ho
  refine ⟨fun hbad => ⟨_, ?_, hdrops⟩, fun hm hadmits hwhole hfold => ?_⟩
  · exact exec_fpParse_latched h.1 hd (fpParse_badHeader (s := s.fresh) ho ht h4 hq hbad) (by decide) (by decide)
  · obtain ⟨v, buf, hparse, hchanged, hbeyond⟩ :=
      fpParse_badChecksum (s := s.fresh) ho ht h4 hq h hd hm hadmits hwhole hfold
    obtain ⟨hrest, hovf, hmem⟩ := hdrops
    exact ⟨_, v, buf, exec_fpParse_latched h.1 hd hparse (by decide) (by decide), hrest, hovf, hmem, hchanged, hbeyond⟩

/-! ### A legal frame is accepted (R200, R173) -/

/-- Settles O45: steps 7 and 8 on a whole legal frame, and the stop where the accepted slot's bump meets rank 255. -/
theorem parserAcceptsALegalFrame : Obligations.ParserAcceptsALegalFrame := by
  intro s d f rest h hd ho ht hf hq
  refine ⟨fun hbelow => ?_, fun htop => ?_⟩
  · obtain ⟨c, l, tail, rfl, hlen, hadmits, hfold⟩ := hf
    obtain ⟨r, v, sl, hparse, hcontents⟩ :=
      fpParse_accepts (s := s.fresh) h hd ho ht rfl hadmits hlen hfold hq
    exact ⟨r, v, sl, exec_fpParse_below h.1 hd hparse fun _ => hbelow, hcontents⟩
  · exact exec_fpParse_top h.1 hd (fpParse_ok_of_legalFrame (s := s.fresh) h hd ho ht hf hq) htop

/-! ### The latch follows the outcome (R204) -/

/-- The failure latch after an outcome, by what it was before (R204). -/
def latchAfter (fail : Bool) : ParserOutcome → Bool
  | .reqNak => true
  | .ok | .timeout => false
  | .tooFew | .byteDropped => fail

theorem latchAfter_discard (fail : Bool) : latchAfter fail (if fail then .timeout else .reqNak) = !fail := by
  cases fail with
  | false => rfl
  | true => rfl

theorem latchAfter_drop (fail : Bool) : latchAfter fail (if fail then .byteDropped else .reqNak) = true := by
  cases fail with
  | false => rfl
  | true => rfl

@[simp] theorem fpArm_fail (s : State) : (fpArm s).fp.fail = s.fp.fail := by
  unfold fpArm; split <;> rfl

theorem fpDrop_latch (s : State) : (fpDrop s).2.fp.fail = latchAfter s.fp.fail (fpDrop s).1 := by
  rw [fpDrop_eq, latchAfter_drop]

theorem fpFrame_latch (d : Nat) (s : State) : (fpFrame d s).2.fp.fail = latchAfter s.fp.fail (fpFrame d s).1 := by
  unfold fpFrame
  split
  · split
    · rfl
    · unfold fpTake
      split
      · rfl
      · exact fpDrop_latch (fpDiscardCopy d _ s)
  · exact fpDrop_latch s

theorem fpParse_latch (d : Nat) (s : State) : (fpParse d s).2.fp.fail = latchAfter s.fp.fail (fpParse d s).1 := by
  cases ho : s.rxb.ovf with
  | true => rw [fpParse_overflow d ho, latchAfter_discard]
  | false =>
    by_cases hq : s.q = []
    · rw [fpParse_empty d ho hq, latchAfter]
    · cases ht : s.armedItmr.timedOut s.now with
      | true => rw [fpParse_expired d ho hq ht, latchAfter_discard]
      | false =>
        by_cases h4 : s.q.length < 4
        · rw [fpParse_short d ho hq ht h4, latchAfter, fpArm_fail]
        · rw [fpParse_frame d ho ht (Nat.le_of_not_lt h4), fpFrame_latch, fpArm_fail]

/-- All FP_PARSE on a legal slot can have done to the response and the latch when it completes. -/
theorem exec_fpParse_latch {s t : State} {d : BitVec 7} (hd : d.toNat < s.cfg.nSlots)
    (he : exec (.fpParse d) s = .next t) :
    ∃ r : ParserOutcome, t.rsp = okRsp r.code ∧ t.fp.fail = latchAfter s.fp.fail r := by
  obtain ⟨-, ⟨-, -, rfl⟩ | ⟨hillegal, -⟩⟩ := transactBumpIf_next he
  · exact ⟨_, rfl, fpParse_latch d.toNat s.fresh⟩
  · rw [idxLegal_of_lt hd] at hillegal
    cases hillegal

/-- Settles O46: the latch of each of the five outcomes. -/
theorem failureLatchFollowsTheOutcome : Obligations.FailureLatchFollowsTheOutcome := by
  intro s t d _ hd he
  obtain ⟨r, hrsp, hlatch⟩ := exec_fpParse_latch hd he
  cases r with
  | reqNak => exact .inl ⟨hrsp, hlatch⟩
  | ok => exact .inr (.inl ⟨.inl hrsp, hlatch⟩)
  | timeout => exact .inr (.inl ⟨.inr hrsp, hlatch⟩)
  | tooFew => exact .inr (.inr ⟨.inl hrsp, hlatch⟩)
  | byteDropped => exact .inr (.inr ⟨.inr hrsp, hlatch⟩)

/-! ### No false accept (R207) -/

/-- The zero-length acknowledgement frame of R207. -/
abbrev ackFrame : List Byte := [0x02#8, 0x50#8, 0x00#8, 0xF8#8]

theorem ackFrame_legal {cfg : Config} (hw : cfg.wf = true) : LegalFrame cfg ackFrame :=
  ⟨cmdAck, 0x00#8, [0xF8#8], rfl, rfl, (meta_admits hw (.inl rfl)).2 rfl, by decide⟩

theorem State.armedItmr_not_timedOut {s : State} (h : s.fp.itmr.active = false) :
    s.armedItmr.timedOut s.now = false := by
  rw [State.armedItmr_of_inactive h]
  exact tmrStart_not_timedOut s.now 100#32 s.fp.itmr

theorem xorFold_ackFrame_set_ne_zero {k : Nat} {b b' : Byte} (hk : ackFrame[k]? = some b') (hne : b' ≠ b) :
    xorFold (ackFrame.set k b) ≠ 0#8 := by
  rw [← fold_eq_xorFold, fold_set_of_verified (by decide) hk, ne_eq, BitVec.xor_eq_zero_iff]
  exact hne

/-- With one byte of the frame replaced, a header that is still admitted has length 0: a replaced length byte stands
behind the acknowledgement's command, which admits no other. -/
theorem ackFrame_set_length {cfg : Config} (hw : cfg.wf = true) {k : Nat} (hk : k < 4) (b : Byte) :
    ∃ m c l x, ackFrame.set k b = [m, c, l, x] ∧ (WlAdmits cfg.wlRx c l.toNat → l.toNat = 0) := by
  match k, hk with
  | 0, _ => exact ⟨b, _, 0x00#8, _, rfl, fun _ => rfl⟩
  | 1, _ => exact ⟨_, b, 0x00#8, _, rfl, fun _ => rfl⟩
  | 2, _ => exact ⟨_, cmdAck, b, _, rfl, (meta_admits hw (.inl rfl)).1⟩
  | 3, _ => exact ⟨_, _, 0x00#8, b, rfl, fun _ => rfl⟩

/-- Four bytes that do not fold to zero, whose header is bad or of length 0, are a drop: no flag of an inbound slot
changes, and the outbound store stays. -/
theorem exec_fpParse_rejects {s : State} {d : BitVec 7} {m c l x : Byte} (h : s.Inv) (hd : d.toNat < s.cfg.nSlots)
    (ho : s.rxb.ovf = false) (ht : s.armedItmr.timedOut s.now = false) (hq : s.q = [m, c, l, x])
    (hl : WlAdmits s.cfg.wlRx c l.toNat → l.toNat = 0) (hfold : xorFold s.q ≠ 0#8) :
    ∃ t, exec (.fpParse d) s = .next t ∧ t.rsp = okRsp (if s.fp.fail then 3#32 else 2#32) ∧
      (∀ j, (slotAt t.inb j).valid = (slotAt s.inb j).valid) ∧ t.outb = s.outb := by
  obtain ⟨hheader, hchecksum⟩ := parserDropsOneByte s d m c l x [] h hd ho ht hq
  by_cases hlegal : m = magicRx ∧ WlAdmits s.cfg.wlRx c l.toNat
  · obtain ⟨hm, hadmits⟩ := hlegal
    have hfull : l.toNat + 4 = s.q.length := by rw [hl hadmits, hq]; rfl
    obtain ⟨r, v, buf, he, -, -, -, ⟨-, hself, hother⟩, -⟩ :=
      hchecksum hm hadmits (Nat.le_of_eq hfull) (by rwa [hfull, List.take_length])
    refine ⟨_, he, rfl, fun j => ?_, rfl⟩
    by_cases hj : j = d.toNat
    · rw [hj, hself]
    · rw [hother j hj]
  · obtain ⟨r, he, -⟩ := hheader hlegal
    exact ⟨_, he, rfl, fun _ => rfl, rfl⟩

/-- Settles O47: the frame itself is legal; with a byte changed it does not fold to zero, and what its header may
still call for is there. -/
theorem noFalseAccept : Obligations.NoFalseAccept := by
  intro s d k b h hd ho hinactive hk hq
  have ht := State.armedItmr_not_timedOut hinactive
  refine ⟨fun hsame => ?_, fun hchanged => ?_⟩
  · have hq : s.q = ackFrame ++ [] := by
      obtain ⟨hlt, rfl⟩ := List.getElem?_eq_some_iff.1 hsame
      rw [hq, List.set_getElem_self, List.append_nil]
    obtain ⟨haccepts, hstops⟩ := parserAcceptsALegalFrame s d ackFrame [] h hd ho ht (ackFrame_legal h.1) hq
    refine ⟨fun hbelow => ?_, hstops⟩
    obtain ⟨r, v, sl, he, -⟩ := haccepts hbelow
    exact ⟨_, he, rfl⟩
  · obtain ⟨m, c, l, x, hset, hl⟩ := ackFrame_set_length h.1 hk b
    have hold : ackFrame[k]? = some (ackFrame[k]'hk) := List.getElem?_eq_getElem hk
    have hfold := xorFold_ackFrame_set_ne_zero hold fun heq => hchanged (hold.trans (congrArg some heq))
    exact exec_fpParse_rejects h hd ho ht (hq.trans hset) hl (hq ▸ hfold)

end Sys2Proof.Machine
end

section
/-! PROOFS. `NAK_REQUEST` (R220) on both sides of the limit. -/

namespace Sys2Proof.Machine

section
variable {s : State} (hw : s.cfg.wf = true)
include hw

theorem exec_nakRequest :
    exec .nakRequest s = .next ((nakRequest s.fresh).ok (boolCode (nakEmits s.fresh))) := by
  rw [exec, execNakRequest, transact_wf hw]

theorem exec_nakRequest_below (h : (satSucc s.nak.cnt).toNat < 3) : exec .nakRequest s = .next { s with
    nak := { s.nak with cnt := satSucc s.nak.cnt }, rsp := okRsp 1#32,
    trace := [.tx (withChecksum [s.cfg.magicTx, s.cfg.cmdNak, 0x00#8])] } := by
  have hemits : nakEmits s.fresh = true := (nakEmits_iff s.fresh).2 h
  rw [exec_nakRequest hw, nakRequest_below (s := s.fresh) h, hemits]
  rfl

theorem exec_nakRequest_limit (h : 3 ≤ (satSucc s.nak.cnt).toNat) : exec .nakRequest s = .next { s with
    nak := ⟨satSucc s.nak.cnt, true⟩, rsp := okRsp 0#32, trace := [] } := by
  have hsilent : nakEmits s.fresh = false :=
    Bool.eq_false_iff.2 fun hemits => Nat.not_lt.2 h ((nakEmits_iff s.fresh).1 hemits)
  rw [exec_nakRequest hw, nakRequest_limit (s := s.fresh) h, hsilent]
  rfl

end

/-- Settles O49: one equation on each side of the limit. -/
theorem nakRequestEmitsBelowThree : Obligations.NakRequestEmitsBelowThree :=
  ⟨rfl, fun _ hw => ⟨exec_nakRequest_below hw, exec_nakRequest_limit hw⟩⟩

end Sys2Proof.Machine
end

section
/-! PROOFS. The receive path and the full reset: the RX byte event as a timer restart and a push in one transaction
(R231), and ENG_RESET_ALL as the part of the state it clears (R252). -/

namespace Sys2Proof.Machine

/-- The timer half of the RX byte event, by whether the integrity timer runs (R231). -/
theorem rxRestart_eq {s : State} {tm : Timer}
    (hon : s.fp.itmr.active = true → tm = ⟨s.now, s.fp.itmr.dur, s.now + s.fp.itmr.dur, true⟩)
    (hoff : s.fp.itmr.active = false → tm = s.fp.itmr) : rxRestart s = { s with fp := { s.fp with itmr := tm } } := by
  cases hactive : s.fp.itmr.active with
  | true => rw [rxRestart, if_pos hactive, hon hactive]; rfl
  | false => rw [rxRestart, if_neg (by simp [hactive]), hoff hactive]

theorem exec_rxByte {s : State} {tm : Timer} (hw : s.cfg.wf = true) (b : Byte)
    (hon : s.fp.itmr.active = true → tm = ⟨s.now, s.fp.itmr.dur, s.now + s.fp.itmr.dur, true⟩)
    (hoff : s.fp.itmr.active = false → tm = s.fp.itmr) : exec (.rxByte b) s = .next { s with
      rxb := (rxbPush s.cfg.ringCap b s.rxb).2, fp := { s.fp with itmr := tm }, rsp := none, trace := [] } := by
  rw [exec, execRxByte, transact_wf hw, rxRestart_eq (s := s.fresh) hon hoff]
  rfl

/-- Settles O24: the timer by whether it runs, then the push by room or by none. -/
theorem rxByteRestartsAndPushes : Obligations.RxByteRestartsAndPushes := by
  intro s b tm ⟨hw, ⟨_, _, hm, _⟩, _⟩ hon hoff
  have hexec := exec_rxByte hw b hon hoff
  refine ⟨fun hroom => ⟨_, hexec, rxbPush_appends hm hroom b⟩, fun hfull => ?_⟩
  rwa [rxbPush_full hfull] at hexec

/-- Settles O59: the reset's equation, and each store freed slot by slot. -/
theorem resetAllDiscardsInFlightState : Obligations.ResetAllDiscardsInFlightState := by
  refine ⟨rfl, fun s hw => ⟨_, _, ?_, msClearAll_clearedFrom s.inb, msClearAll_clearedFrom s.outb⟩⟩
  rw [exec, execEngResetAll, transact_wf hw, resetAll_eq]
  rfl

end Sys2Proof.Machine
end

section
/-! PROOFS. ENG_PARSE (R232 to R239, R244): the parser's outcome mapped in one transaction; then a clean frame at the
front of the ring by its command: an acknowledgement, a negative acknowledgement, any other. -/

namespace Sys2Proof.Machine

/-! ### The command as the parser and the engine's mapping (R232, R233) -/

theorem engParse_of_firstFree {s t : State} {d : Nat} {r : ParserOutcome} (hfree : IsFirstFree s.inb d)
    (hparse : fpParse d s = (r, t)) : engParse s = engAfterParse d r t := by
  simp only [engParse, msGetFree_some.2 hfree, hparse]

theorem engParseMeetsTop_of_firstFree {s t : State} {d : Nat} {r : ParserOutcome} (hfree : IsFirstFree s.inb d)
    (hparse : fpParse d s = (r, t)) : engParseMeetsTop s = true ↔
      r = .ok ∧ (BumpMeetsTop d s.inb ∨ dispatchMeetsTop d t = true) := by
  rw [engParseMeetsTop, msGetFree_some.2 hfree, Option.any_some, Bool.or_eq_true, fpMeetsTop_iff, hparse,
    Bool.and_eq_true, decide_eq_true_eq, ← and_or_left]

section
variable {s t : State} {d : Nat} {r : ParserOutcome} (hw : s.cfg.wf = true) (hfree : IsFirstFree s.inb d)
include hw hfree

/-- Short of both bumps the command is the mapping of what the parser answers on the first free slot. -/
theorem exec_engParse_below (hparse : fpParse d s.fresh = (r, t))
    (hbelow : r = .ok → ¬ BumpMeetsTop d s.inb ∧ dispatchMeetsTop d t = false) :
    exec .engParse s = .next ((engAfterParse d r t).2.ok (engAfterParse d r t).1.code) := by
  have htop : engParseMeetsTop s.fresh = false := by
    rw [← Bool.not_eq_true, engParseMeetsTop_of_firstFree (s := s.fresh) hfree hparse]
    rintro ⟨hok, htop | htop⟩
    · exact (hbelow hok).1 htop
    · rw [(hbelow hok).2] at htop
      cases htop
  rw [exec, execEngParse, transactBump_below htop, transact_wf hw, engParse_of_firstFree (s := s.fresh) hfree hparse]

/-- Where the dispatch on an accepted frame would meet rank 255 the model stops (R173). -/
theorem exec_engParse_dispatch_top (hparse : fpParse d s.fresh = (.ok, t)) (htop : dispatchMeetsTop d t = true) :
    exec .engParse s = .fault .rankSaturation :=
  transactBump_top hw ((engParseMeetsTop_of_firstFree (s := s.fresh) hfree hparse).2 ⟨rfl, .inr htop⟩) _

end

/-- Settles O50: with every inbound slot valid the scan for a free one finds none, and the engine only answers. -/
theorem noFreeInboundSlotIsCritical : Obligations.NoFreeInboundSlotIsCritical := by
  intro s hw hfull
  have hget : msGetFree s.fresh.inb = none := msGetFree_none.2 hfull
  have hparse : engParse s.fresh = (.critical, s.fresh) := by simp only [engParse, hget]
  have htop : engParseMeetsTop s.fresh = false := by rw [engParseMeetsTop, hget, Option.any_none]
  rw [Answers, exec, execEngParse, transactBump_below htop, transact_wf hw, hparse]
  rfl

/-! ### Outcomes other than P_OK (R234, R235) -/

/-- The guard does not read the response. -/
theorem nakRequest_rsp (s : State) (r : Option Response) :
    nakRequest { s with rsp := r } = { nakRequest s with rsp := r } := by
  unfold nakRequest
  dsimp only
  split
  · rfl
  · rfl

theorem ParserOutcome.code_injective {r r' : ParserOutcome} (h : okRsp r.code = okRsp r'.code) : r = r' := by
  revert h
  cases r <;> cases r' <;> decide

/-- What FP_PARSE says of the parser when it completes on a slot of the store. -/
theorem exec_fpParse_next {s u : State} {d : Nat} (h : s.Inv) (hd : d < s.inb.length)
    (he : exec (.fpParse (BitVec.ofNat 7 d)) s = .next u) :
    u = { (fpParse d s.fresh).2 with rsp := okRsp (fpParse d s.fresh).1.code } := by
  have hlt : d < s.cfg.nSlots := h.inb_inv.1 ▸ hd
  have hidx : (BitVec.ofNat 7 d).toNat = d := by
    have := wf_nSlots h.1
    exact Nat.mod_eq_of_lt (by omega)
  obtain ⟨-, ⟨-, -, hu⟩ | ⟨hillegal, -⟩⟩ := transactBumpIf_next he
  · rw [hidx] at hu
    exact hu
  · rw [idxLegal_of_lt (by rwa [hidx])] at hillegal
    cases hillegal

section
variable {s u : State} {d : Nat} (h : s.Inv) (hfree : IsFirstFree s.inb d)
  (he : exec (.fpParse (BitVec.ofNat 7 d)) s = .next u)
include h hfree he

/-- The engine on an outcome of the parser other than P_OK, which FP_PARSE's response tells. -/
theorem exec_engParse_of_fpParse {r : ParserOutcome} (hrsp : u.rsp = okRsp r.code) (hr : r ≠ .ok) :
    exec .engParse s =
      .next ((engAfterParse d r (fpParse d s.fresh).2).2.ok (engAfterParse d r (fpParse d s.fresh).2).1.code) := by
  have hu := exec_fpParse_next h hfree.1 he
  have hout : (fpParse d s.fresh).1 = r := ParserOutcome.code_injective (by rw [← hrsp, hu])
  exact exec_engParse_below h.1 hfree (Prod.ext hout rfl) fun hok => absurd hok hr

/-- A silent outcome: what FP_PARSE leaves, answered E_NOTHING (R234). -/
theorem exec_engParse_silent {r : ParserOutcome} (hrsp : u.rsp = okRsp r.code)
    (hr : r = .tooFew ∨ r = .byteDropped ∨ r = .timeout) : exec .engParse s = .next { u with rsp := okRsp 0#32 } := by
  have hexec := exec_engParse_of_fpParse h hfree he hrsp (by rintro rfl; simp at hr)
  have hmap : engAfterParse d r (fpParse d s.fresh).2 = (.nothing, (fpParse d s.fresh).2) := by
    obtain rfl | rfl | rfl := hr <;> rfl
  rw [hexec, hmap, exec_fpParse_next h hfree.1 he]
  rfl

/-- A NAK request goes through the guard, and "too many" after it chooses the outcome (R235). -/
theorem exec_engParse_reqNak (hrsp : u.rsp = okRsp 2#32) : exec .engParse s =
    .next { nakRequest u with rsp := okRsp (if (nakRequest u).nak.many then 3#32 else 1#32) } := by
  rw [exec_engParse_of_fpParse (r := .reqNak) h hfree he hrsp (by decide), exec_fpParse_next h hfree.1 he,
    nakRequest_rsp]
  simp only [engAfterParse, apply_ite EngineOutcome.code]
  rfl

/-- FP_PARSE leaves the guard and the configuration, and sends nothing. -/
theorem exec_fpParse_keeps : u.nak = s.nak ∧ u.cfg = s.cfg ∧ u.trace = [] := by
  rw [exec_fpParse_next h hfree.1 he, fpParse_frame_eq d s.fresh]
  exact ⟨rfl, rfl, rfl⟩

end

/-- Settles O51: the silent outcomes, and a NAK request on either side of the limit. -/
theorem engineMapsParserOutcomes : Obligations.EngineMapsParserOutcomes := by
  intro s u d h hfree he
  have hsilent {r : ParserOutcome} := exec_engParse_silent h hfree he (r := r)
  have hnak := exec_engParse_reqNak h hfree he
  obtain ⟨hguard, hcfg, htrace⟩ := exec_fpParse_keeps h hfree he
  refine ⟨?_, fun hrsp hbelow => ?_, fun hrsp hlimit => ?_⟩
  · rintro (hrsp | hrsp | hrsp)
    · exact hsilent (r := .tooFew) hrsp (.inl rfl)
    · exact hsilent (r := .byteDropped) hrsp (.inr (.inl rfl))
    · exact hsilent (r := .timeout) hrsp (.inr (.inr rfl))
  · rw [hnak hrsp, nakRequest_below (by rwa [hguard]), hguard, hcfg, htrace]
    rfl
  · rw [hnak hrsp, nakRequest_limit (by rwa [hguard]), hguard]
    rfl


/-! ### The oldest outbound slot confirmed or retried (R237, R238, R244) -/

theorem exists_valid_of_isOldest {v : Store} {o : Nat} (h : IsOldest v o) : ¬ ∀ sl ∈ v, sl.valid = false :=
  fun hnone => by
    have hfree := hnone _ (slotAt_mem (lt_of_slotAt_valid h.1))
    rw [h.1] at hfree
    cases hfree

/-- A confirmation frees the oldest outbound slot, if there is one, and nothing else. -/
theorem confirmOldest_spec (s : State) : ∃ w, confirmOldest s = { s with outb := w } ∧
    ((∀ sl ∈ s.outb, sl.valid = false) → w = s.outb) ∧ ∀ o, IsOldest s.outb o → DeletedFrom s.outb w o := by
  cases hget : msGetOldest s.outb with
  | none =>
    have hnone := msGetOldest_none.1 hget
    refine ⟨s.outb, ?_, fun _ => rfl, fun o ho => absurd hnone (exists_valid_of_isOldest ho)⟩
    simp only [confirmOldest, hget]
  | some o =>
    have hold := msGetOldest_some.1 hget
    refine ⟨msDelete o s.outb, ?_, fun hnone => absurd hnone (exists_valid_of_isOldest hold), fun p hp => ?_⟩
    · simp only [confirmOldest, hget]
    · obtain rfl := hold.unique hp
      exact msDelete_deletedFrom hold.1

/-- All a retry of the valid outbound slot `o` can have answered (`e`), left in the store (`w`) and sent (`tr`). -/
def Retried (s : State) (o : Nat) (e : EngineOutcome) (w : Store) (tr : List OutEvent) : Prop :=
  (3 ≤ (satSucc (slotAt s.outb o).txc).toNat → e = .critical ∧ tr = [] ∧
    ChangedAt s.outb w o { slotAt s.outb o with txc := satSucc (slotAt s.outb o).txc }) ∧
  ((satSucc (slotAt s.outb o).txc).toNat < 3 → e = .nothing ∧
    tr = [.tx ((slotAt s.outb o).buf.bytes (slotAt s.outb o).len.toNat)] ∧
    BumpedTo s.outb w o { slotAt s.outb o with
      rank := 1#8, txc := satSucc (slotAt s.outb o).txc,
      tmr := ⟨s.now, s.cfg.tTxDeadline, s.now + s.cfg.tTxDeadline, true⟩ })

theorem retrySlot_retried {s : State} {o : Nat} (hvalid : (slotAt s.outb o).valid = true) : ∃ e w tr,
    (if (retrySlot o s).1 then .critical else .nothing, (retrySlot o s).2) =
      (e, { s with outb := w, trace := s.trace ++ tr }) ∧ Retried s o e w tr := by
  have ho := lt_of_slotAt_valid hvalid
  by_cases hspent : 3 ≤ (satSucc (slotAt s.outb o).txc).toNat
  · refine ⟨.critical, (countFailure o s).outb, [], ?_, fun _ => ⟨rfl, rfl, countFailure_changedAt ho⟩,
      fun hbelow => absurd hspent (Nat.not_le.2 hbelow)⟩
    rw [retrySlot_spent ho hspent, List.append_nil]
    rfl
  · obtain ⟨w, hw, hbumped⟩ := retrySlot_resent ho (Nat.lt_of_not_le hspent)
    refine ⟨.nothing, w, _, by rw [hw]; rfl, fun h => absurd h hspent, fun _ => ⟨rfl, rfl, ?_⟩⟩
    obtain ⟨hlen, hself, hother⟩ := hbumped
    exact ⟨hlen, by simp only [hself, hvalid], hother⟩

/-- The retry of R238 is that of the oldest outbound slot, if there is one. -/
theorem retryOldest_spec (s : State) : ∃ e w tr, retryOldest s = (e, { s with outb := w, trace := s.trace ++ tr }) ∧
    ((∀ sl ∈ s.outb, sl.valid = false) → w = s.outb ∧ e = .nothing ∧ tr = []) ∧
    ∀ o, IsOldest s.outb o → Retried s o e w tr := by
  cases hget : msGetOldest s.outb with
  | none =>
    have hnone := msGetOldest_none.1 hget
    refine ⟨.nothing, s.outb, [], ?_, fun _ => ⟨rfl, rfl, rfl⟩,
      fun o ho => absurd hnone (exists_valid_of_isOldest ho)⟩
    simp only [retryOldest, hget, List.append_nil]
  | some o =>
    have hold := msGetOldest_some.1 hget
    obtain ⟨e, w, tr, hretry, hretried⟩ := retrySlot_retried hold.1
    refine ⟨e, w, tr, ?_, fun hnone => absurd hnone (exists_valid_of_isOldest hold), fun p hp => ?_⟩
    · rw [← hretry]
      simp only [retryOldest, hget]
    · obtain rfl := hold.unique hp
      exact hretried

/-! ### An accepted frame (R200) -/

/-- The state the parser leaves on a frame it accepts: the ring `r`, the inbound store `v`. -/
def State.accepting (s : State) (r : RxBuffer) (v : Store) : State :=
  { s.fresh with rxb := r, fp := ⟨false, { s.armedItmr with active := false }⟩, inb := v }

/-- The parser takes the frame `f` off the front of the ring into inbound slot `d`, which becomes `sl`. -/
structure TakesFrame (s : State) (d : Nat) (f rest : List Byte) (r : RxBuffer) (v : Store) (sl : Slot) : Prop where
  parse : fpParse d s.fresh = (.ok, s.accepting r v)
  ring : contents s.cfg.ringCap r = rest ∧ r.ovf = false ∧ ∀ a, r.mem.read a = s.rxb.mem.read a
  bumped : BumpedTo s.inb v d sl
  holds : sl.Holds (slotAt s.inb d) f
  validated : sl.JustValidated s.now 1000#32

theorem exists_takesFrame {s : State} {d : Nat} {f rest : List Byte} (h : s.Inv) (hd : d < s.inb.length)
    (ho : s.rxb.ovf = false) (ht : s.armedItmr.timedOut s.now = false) (hf : LegalFrame s.cfg f)
    (hq : s.q = f ++ rest) : ∃ r v sl, TakesFrame s d f rest r v sl := by
  obtain ⟨c, l, tail, rfl, hlen, hadmits, hfold⟩ := hf
  obtain ⟨r, v, sl, hparse, hrest, hovf, hmem, hbumped, hholds, hvalidated⟩ :=
    fpParse_accepts (s := s.fresh) h (h.inb_inv.1 ▸ hd) ho ht rfl hadmits hlen hfold hq
  exact ⟨r, v, sl, hparse, ⟨hrest, hovf, hmem⟩, hbumped, hholds, hvalidated⟩

section
variable {s : State} {d : Nat} {f rest : List Byte} {r : RxBuffer} {v : Store} {sl : Slot}

/-- The slot's byte 1 is the frame's command. -/
theorem TakesFrame.command (h : TakesFrame s d f rest r v sl) {c : Byte} (hc : f[1]? = some c) :
    (slotAt (s.accepting r v).inb d).buf.read 1 = c := by
  obtain ⟨-, hself, -⟩ := h.bumped
  obtain ⟨-, hbytes, -⟩ := h.holds
  have hread := hc
  rw [← hbytes, Memory.getElem?_bytes, if_pos (List.getElem?_eq_some_iff.1 hc).1] at hread
  rw [State.accepting, hself]
  exact Option.some.inj hread

/-- Freeing the slot of a meta-frame puts the other inbound slots back to where they were (R237, R238). -/
theorem TakesFrame.freed (h : TakesFrame s d f rest r v sl) (hs : s.Inv) (hbelow : ¬ BumpMeetsTop d s.inb) :
    ChangedAt s.inb (msDelete d v) d ⟨sl.buf, 0#8, 0#8, false, 0#8, ⟨s.now, 1000#32, s.now + 1000#32, false⟩⟩ := by
  obtain ⟨hvalid, hrank, -, htmr⟩ := h.validated
  have hranked (j : Nat) : (slotAt s.inb j).valid = true ↔ (slotAt s.inb j).rank ≠ 0#8 := by
    obtain ⟨-, -, -, hiff, -⟩ := Store.slotAt_inv hs.inb_inv j
    exact hiff
  have hchanged := msDelete_undoes_bump hranked hbelow h.bumped hrank hvalid
  rwa [htmr] at hchanged

end

/-! ### The dispatch by the command (R236) -/

section
variable {t : State} {d : Nat}

theorem engAfterParse_ack (h : (slotAt t.inb d).buf.read 1 = cmdAck) :
    engAfterParse d .ok t = (.nothing, confirmOldest (freeInbound d (nakResetCounter t))) := if_pos h

theorem engAfterParse_nak (h : (slotAt t.inb d).buf.read 1 = t.cfg.cmdNak) (hne : t.cfg.cmdNak ≠ cmdAck) :
    engAfterParse d .ok t = retryOldest (freeInbound d (nakResetCounter t)) :=
  (if_neg (h ▸ hne)).trans (if_pos h)

theorem engAfterParse_other (hack : (slotAt t.inb d).buf.read 1 ≠ cmdAck)
    (hnak : (slotAt t.inb d).buf.read 1 ≠ t.cfg.cmdNak) : engAfterParse d .ok t =
      (.newMessage, (nakResetCounter t).transmit (withChecksum [t.cfg.magicTx, cmdAck, 0x00#8])) := by
  rw [← metaFrame_eq]
  exact (if_neg hack).trans (if_neg hnak)

theorem dispatchMeetsTop_of_ne_nak (h : (slotAt t.inb d).buf.read 1 ≠ t.cfg.cmdNak) :
    dispatchMeetsTop d t = false := by
  rw [dispatchMeetsTop, if_neg h]
  exact ite_self _

/-- On a negative acknowledgement the dispatch stops where the oldest outbound slot would be sent again and its bump
meets rank 255. -/
theorem dispatchMeetsTop_nak_iff (h : (slotAt t.inb d).buf.read 1 = t.cfg.cmdNak) (hne : t.cfg.cmdNak ≠ cmdAck) :
    dispatchMeetsTop d t = true ↔
      ∃ o, IsOldest t.outb o ∧ (satSucc (slotAt t.outb o).txc).toNat < 3 ∧ BumpMeetsTop o t.outb := by
  rw [dispatchMeetsTop, if_neg (h ▸ hne), if_pos h, Option.any_eq_true]
  refine exists_congr fun o => ?_
  rw [msGetOldest_some]
  exact and_congr_right fun ho => retryMeetsTop_iff (lt_of_slotAt_valid ho.1)

end

/-! ### The statements on a clean frame -/

/-- Settles O52: the frame is accepted, its slot freed again, the oldest outbound slot confirmed. -/
theorem ackFreesTheOldestOutbound : Obligations.AckFreesTheOldestOutbound := by
  intro s d rest h ho ht hfree hbelow hq
  obtain ⟨r, v, sl, htakes⟩ := exists_takesFrame h hfree.1 ho ht (ackFrame_legal h.1) hq
  have hcmd := htakes.command (c := cmdAck) rfl
  have hclear := dispatchMeetsTop_of_ne_nak (t := s.accepting r v) (hcmd.trans_ne (wf_cmdNak h.1).symm)
  obtain ⟨w, hconfirm, hnone, hdeleted⟩ := confirmOldest_spec (freeInbound d (nakResetCounter (s.accepting r v)))
  obtain ⟨hrest, hovf, hmem⟩ := htakes.ring
  obtain ⟨-, -, hbeyond⟩ := htakes.holds
  refine ⟨r, _, w, _, ?_, hrest, hovf, hmem, htakes.freed h hbelow, hbeyond, hnone, hdeleted⟩
  rw [exec_engParse_below h.1 hfree htakes.parse fun _ => ⟨hbelow, hclear⟩, engAfterParse_ack hcmd, hconfirm]
  rfl

/-- The checksum of R82 makes the whole fold to zero. -/
theorem xorFold_withChecksum (s : List Byte) : xorFold (withChecksum s) = 0#8 := by
  rw [← cksVerify_iff, withChecksum, ← fold_eq_xorFold]
  exact cksVerify_snoc_fold s

theorem nakFrame_legal {cfg : Config} (hw : cfg.wf = true) :
    LegalFrame cfg (withChecksum [0x02#8, cfg.cmdNak, 0x00#8]) :=
  ⟨cfg.cmdNak, 0x00#8, _, rfl, rfl, (meta_admits hw (.inr rfl)).2 rfl, xorFold_withChecksum _⟩

/-- Settles O53: the frame is accepted, its slot freed again, the oldest outbound slot retried, short of the stop. -/
theorem nakFrameRetriesTheOldestOutbound : Obligations.NakFrameRetriesTheOldestOutbound := by
  intro s d rest h ho ht hfree hbelow hq
  obtain ⟨r, v, sl, htakes⟩ := exists_takesFrame h hfree.1 ho ht (nakFrame_legal h.1) hq
  have hne := wf_cmdNak h.1
  have hcmd := htakes.command (c := s.cfg.cmdNak) rfl
  have hstop := dispatchMeetsTop_nak_iff (t := s.accepting r v) hcmd hne
  refine ⟨fun o hold hagain htop => exec_engParse_dispatch_top h.1 hfree htakes.parse (hstop.2 ⟨o, hold, hagain, htop⟩),
    fun hclear => ?_⟩
  have hclear : dispatchMeetsTop d (s.accepting r v) = false := by
    rw [← Bool.not_eq_true, hstop]
    exact fun ⟨o, hold, hagain, htop⟩ => hclear o hold hagain htop
  obtain ⟨e, w, tr, hretry, hnone, hretried⟩ := retryOldest_spec (freeInbound d (nakResetCounter (s.accepting r v)))
  obtain ⟨hrest, hovf, hmem⟩ := htakes.ring
  obtain ⟨-, -, hbeyond⟩ := htakes.holds
  refine ⟨r, _, w, _, e.code, tr, ?_, hrest, hovf, hmem, htakes.freed h hbelow, hbeyond,
    fun hfree => ?_, fun o hold => ?_⟩
  · rw [exec_engParse_below h.1 hfree htakes.parse fun _ => ⟨hbelow, hclear⟩, engAfterParse_nak hcmd hne, hretry]
    rfl
  · obtain ⟨hw, rfl, htr⟩ := hnone hfree
    exact ⟨hw, rfl, htr⟩
  · obtain ⟨hspent, hagain⟩ := hretried o hold
    refine ⟨fun h3 => ?_, fun h3 => ?_⟩
    · obtain ⟨rfl, hsent⟩ := hspent h3
      exact ⟨rfl, hsent⟩
    · obtain ⟨rfl, hsent⟩ := hagain h3
      exact ⟨rfl, hsent⟩

/-- Settles O54: the frame is accepted and stays, the acknowledgement is the one event. -/
theorem applicationFrameIsAckedAndSurfaced : Obligations.ApplicationFrameIsAckedAndSurfaced := by
  intro s d m c f rest h ho ht hfree hf hack hnak hbelow hq
  obtain ⟨r, v, sl, htakes⟩ := exists_takesFrame h hfree.1 ho ht hf hq
  have hcmd := htakes.command (c := c) rfl
  have hnak := hcmd.trans_ne hnak
  have hclear := dispatchMeetsTop_of_ne_nak (t := s.accepting r v) hnak
  obtain ⟨hrest, hovf, hmem⟩ := htakes.ring
  refine ⟨r, v, sl, ?_, hrest, hovf, hmem, htakes.bumped, htakes.holds, htakes.validated⟩
  rw [exec_engParse_below h.1 hfree htakes.parse fun _ => ⟨hbelow, hclear⟩,
    engAfterParse_other (hcmd.trans_ne hack) hnak]
  rfl

end Sys2Proof.Machine
end

section
/-! PROOFS. ENG_TRANSMIT (R240, R241, R173): what it refuses, and the frame handed to the transport, which takes it
whole or does not. -/

namespace Sys2Proof.Machine

section
variable {s : State} {cmd : Byte} {data : List Byte}

/-! ### Refusals (R241) -/

/-- A refusal says `FAIL, 0` and changes nothing: a long payload, no entry of the whitelist, no free slot. -/
theorem engTransmit_refused (h : 255 < data.length ∨ ¬ WlAdmits s.cfg.wlTx cmd data.length ∨
    ∀ sl ∈ s.outb, sl.valid = true) : engTransmit cmd data s = (false, s) := by
  unfold engTransmit
  split
  · rfl
  · rename_i hlong
    split
    · rename_i hadmits
      have hfull : msGetFree s.outb = none :=
        msGetFree_none.2 ((h.resolve_left hlong).resolve_left (not_not.2 (wlOk_iff.1 hadmits)))
      simp only [hfull]
    · rfl

/-- An admitted command with a free slot is sent from the first one. -/
theorem engTransmit_admitted (hw : s.cfg.wf = true) (hadmits : WlAdmits s.cfg.wlTx cmd data.length) {o : Nat}
    (hfree : IsFirstFree s.outb o) : engTransmit cmd data s = engSend cmd data o s := by
  have hlen := (admitted_fits hw (.inr hadmits)).1
  rw [engTransmit, if_neg (by simp only [txLenMax]; omega), if_pos (wlOk_iff.2 hadmits)]
  simp only [msGetFree_some.2 hfree]

/-! ### The frame sent (R240) -/

theorem State.bytesSent_eq_length_iff (s : State) (l : List Byte) :
    s.bytesSent l = l.length ↔ l.length ≤ s.txAnswer := min_eq_right_iff

/-- The frame of R240 for this command, its checksum behind it. -/
def txFrame (cfg : Config) (cmd : Byte) (data : List Byte) : List Byte :=
  withChecksum (cfg.magicTx :: cmd :: BitVec.ofNat 8 data.length :: data)

theorem length_txFrame (cfg : Config) (cmd : Byte) (data : List Byte) :
    (txFrame cfg cmd data).length = data.length + 4 := by
  simp [txFrame, withChecksum]

section
variable {o : Nat} (hs : s.Inv) (hfit : data.length + 4 ≤ s.cfg.slotCap)
include hs hfit

/-- The frame is staged in slot `o` and sent; the transport's answer decides what becomes of the slot. -/
theorem engSend_eq : engSend cmd data o s =
    if data.length + 4 ≤ s.txAnswer then
      (true, { s with outb := msValidate o s.now s.cfg.tTxDeadline (s.outb.modify o (stage s.cfg cmd data)),
                      trace := s.trace ++ [.tx (txFrame s.cfg cmd data)] })
    else
      (false, { s with outb := (s.outb.modify o (stage s.cfg cmd data)).modify o msDiscard,
                       trace := s.trace ++ [.tx (txFrame s.cfg cmd data)] }) := by
  have hburst : stagedFrame s.cfg cmd data (slotAt s.outb o) = txFrame s.cfg cmd data :=
    stagedFrame_eq hs.slotCap_le cmd data _ (Store.slotAt_inv hs.outb_inv o) hfit
  have htaken := s.bytesSent_eq_length_iff (txFrame s.cfg cmd data)
  rw [length_txFrame] at htaken
  simp only [engSend, hburst, htaken]
  rfl

/-- The frame staged in a free slot, as the slot and the store then are. -/
theorem stage_changedAt (ho : o < s.outb.length) : ∃ buf len,
    ChangedAt s.outb (s.outb.modify o (stage s.cfg cmd data)) o { slotAt s.outb o with buf := buf, len := len } ∧
      Slot.Holds { slotAt s.outb o with buf := buf, len := len } (slotAt s.outb o) (txFrame s.cfg cmd data) := by
  obtain ⟨buf, len, hstage, hholds, -⟩ :=
    stage_holds hs.slotCap_le cmd data _ (Store.slotAt_inv hs.outb_inv o) hfit
  exact ⟨buf, len, hstage ▸ changedAt_modify ho (stage s.cfg cmd data), hholds⟩

/-- Taken whole, the frame is registered: its slot is validated (R240). -/
theorem engSend_whole (ho : o < s.outb.length) (htaken : data.length + 4 ≤ s.txAnswer) : ∃ w sl,
    engSend cmd data o s = (true, { s with outb := w, trace := s.trace ++ [.tx (txFrame s.cfg cmd data)] }) ∧
      BumpedTo s.outb w o sl ∧ sl.Holds (slotAt s.outb o) (txFrame s.cfg cmd data) ∧
      sl.JustValidated s.now s.cfg.tTxDeadline := by
  obtain ⟨buf, len, ⟨hlen, hself, hother⟩, hholds⟩ := stage_changedAt (cmd := cmd) hs hfit ho
  obtain ⟨hlen', hself', hother'⟩ := msValidate_bumpedTo (v := s.outb.modify o (stage s.cfg cmd data)) (hlen ▸ ho)
    s.now s.cfg.tTxDeadline
  rw [hself] at hself'
  refine ⟨_, _, (engSend_eq hs hfit).trans (if_pos htaken), ⟨hlen'.trans hlen, hself', fun j hj => ?_⟩, hholds,
    rfl, rfl, rfl, rfl⟩
  rw [hother' j hj, hother j hj]

/-- Not taken whole, the frame is dropped: its slot stays free, emptied (R240). -/
theorem engSend_short (ho : o < s.outb.length) (hshort : s.txAnswer < data.length + 4) : ∃ w buf,
    engSend cmd data o s = (false, { s with outb := w, trace := s.trace ++ [.tx (txFrame s.cfg cmd data)] }) ∧
      ChangedAt s.outb w o { slotAt s.outb o with buf := buf, len := 0#8 } ∧
      ∀ a, data.length + 4 ≤ a → buf.read a = (slotAt s.outb o).buf.read a := by
  obtain ⟨buf, len, ⟨hlen, hself, hother⟩, -, -, hbeyond⟩ := stage_changedAt (cmd := cmd) hs hfit ho
  obtain ⟨hlen', hself', hother'⟩ := changedAt_modify (v := s.outb.modify o (stage s.cfg cmd data))
    (hlen ▸ ho) msDiscard
  rw [hself] at hself'
  rw [length_txFrame] at hbeyond
  refine ⟨_, buf, (engSend_eq hs hfit).trans (if_neg (Nat.not_le.2 hshort)),
    ⟨hlen'.trans hlen, hself', fun j hj => ?_⟩, hbeyond⟩
  rw [hother' j hj, hother j hj]

end

/-! ### The command (R240, R241, R173) -/

theorem exec_engTransmit_below (hw : s.cfg.wf = true) {accepted : Bool} {t : State}
    (h : engTransmit cmd data s.fresh = (accepted, t))
    (hbelow : accepted = true → ∀ o, IsFirstFree s.outb o → ¬ BumpMeetsTop o s.outb) :
    exec (.engTransmit cmd data) s = .next { t with rsp := unitRsp accepted } := by
  have htop : engTransmitMeetsTop cmd data s.fresh = false := by
    rw [← Bool.not_eq_true, engTransmitMeetsTop, h, Bool.and_eq_true, Option.any_eq_true]
    rintro ⟨hsent, o, hfree, htop⟩
    exact hbelow hsent o (msGetFree_some.1 hfree) (meetsTop_iff.1 htop)
  rw [exec, execEngTransmit, transactBump_below htop, transact_wf hw, h, State.okUnit_eq]

theorem exec_engTransmit_top (hw : s.cfg.wf = true) {o : Nat} (hsent : (engTransmit cmd data s.fresh).1 = true)
    (hfree : IsFirstFree s.outb o) (htop : BumpMeetsTop o s.outb) :
    exec (.engTransmit cmd data) s = .fault .rankSaturation := by
  refine transactBump_top hw ?_ _
  rw [engTransmitMeetsTop, hsent, Bool.true_and, Option.any_eq_true]
  exact ⟨o, msGetFree_some.2 hfree, meetsTop_iff.2 htop⟩

end

/-- Settles O56: a refusal changes nothing; an admitted frame is sent, and the transport's answer and the ranks decide
between registering it, dropping it and the stop. -/
theorem transmitSendsAndRegisters : Obligations.TransmitSendsAndRegisters := by
  refine ⟨fun cmd data hlen => payloadCommand_fits hlen _ _, fun s cmd data frame h hframe => ⟨fun hrefused => ?_, ?_⟩⟩
  · exact exec_engTransmit_below h.1 (engTransmit_refused (s := s.fresh) hrefused) nofun
  · intro o hadmits hfree
    obtain rfl : frame = txFrame s.cfg cmd data := hframe
    have hfit := (admitted_fits h.1 (.inr hadmits)).2
    have hsend := engTransmit_admitted (s := s.fresh) h.1 hadmits hfree
    have hwhole := engSend_whole (s := s.fresh) (cmd := cmd) h hfit hfree.1
    refine ⟨fun htaken hbelow => ?_, fun htaken htop => ?_, fun hshort => ?_⟩
    · obtain ⟨w, sl, hsent, hslot⟩ := hwhole htaken
      exact ⟨w, sl, exec_engTransmit_below h.1 (hsend.trans hsent) fun _ _ hp => hfree.unique hp ▸ hbelow, hslot⟩
    · obtain ⟨w, sl, hsent, -⟩ := hwhole htaken
      exact exec_engTransmit_top h.1 (by rw [hsend, hsent]) hfree htop
    · obtain ⟨w, buf, hdropped, hslot⟩ := engSend_short (s := s.fresh) (cmd := cmd) h hfit hfree.1 hshort
      exact ⟨w, buf, exec_engTransmit_below h.1 (hsend.trans hdropped) nofun, hslot⟩

end Sys2Proof.Machine
end

section
/-! PROOFS. ENG_HANDLE_TIMEOUTS (R243, R244, with R159, R161, R173): the state after the first `n` turns of the scan in
closed form, by induction on the turns; and a turn stops exactly where the ranks no longer fit. -/

namespace Sys2Proof.Machine

/-! ### What the scan does to each slot, from the state at entry -/

/-- The failure the scan counts is the message's last: its retries are used up (R244). -/
def Slot.spent (sl : Slot) : Bool := decide (3 ≤ (satSucc sl.txc).toNat)

/-- Slot `j` is sent again by the scan. -/
def State.sentAgain (s : State) (j : Nat) : Bool := (slotAt s.outb j).overdue s.now && !(slotAt s.outb j).spent

/-- How many slots the first `n` turns send again. -/
def State.sentBefore (s : State) (n : Nat) : Nat := ((List.range n).filter s.sentAgain).length

/-- How many slots after slot `j` the first `n` turns send again. -/
def State.sentAfter (s : State) (j n : Nat) : Nat :=
  ((List.range n).filter fun k => decide (j < k) && s.sentAgain k).length

/-- How often the first `n` turns bump slot `j` before it is ranked anew, if it is. -/
def State.bumpsBefore (s : State) (n j : Nat) : Nat := s.sentBefore (if s.sentAgain j then min j n else n)

/-- Slot `j`'s rank after the first `n` turns. -/
def State.rankAfterTurns (s : State) (n j : Nat) : BitVec 8 :=
  if j < n ∧ s.sentAgain j = true then BitVec.ofNat 8 (1 + s.sentAfter j n)
  else if (slotAt s.outb j).valid then BitVec.ofNat 8 ((slotAt s.outb j).rank.toNat + s.sentBefore n)
  else (slotAt s.outb j).rank

/-- Slot `j` after the first `n` turns. -/
def State.slotAfterTurns (s : State) (n j : Nat) : Slot := { slotAt s.outb j with
  rank := s.rankAfterTurns n j
  txc := if j < n ∧ (slotAt s.outb j).overdue s.now = true then satSucc (slotAt s.outb j).txc else (slotAt s.outb j).txc
  tmr := if j < n ∧ s.sentAgain j = true then Timer.started s.now s.cfg.tTxDeadline else (slotAt s.outb j).tmr }

/-- The event of slot `j` sent again. -/
def State.resendEvent (s : State) (j : Nat) : OutEvent :=
  .tx ((slotAt s.outb j).buf.bytes (slotAt s.outb j).len.toNat)

/-- Some slot has failed for the last time in the first `n` turns. -/
def State.failedBefore (s : State) (n : Nat) : Bool :=
  (List.range n).any fun j => (slotAt s.outb j).overdue s.now && (slotAt s.outb j).spent

/-- What the first `n` turns send, in index order. -/
def State.resent (s : State) (n : Nat) : List OutEvent := ((List.range n).filter s.sentAgain).map s.resendEvent

/-- The scan of `s` has made its first `n` turns. -/
structure Scanned (s : State) (n : Nat) (acc : Bool × State) : Prop where
  failed : acc.1 = s.failedBefore n
  frame : acc.2 = { s with outb := acc.2.outb, trace := s.trace ++ s.resent n }
  length : acc.2.outb.length = s.outb.length
  slots : ∀ j, slotAt acc.2.outb j = s.slotAfterTurns n j

section
variable {s : State}

theorem State.sentBefore_succ (n : Nat) : s.sentBefore (n + 1) = s.sentBefore n + (s.sentAgain n).toNat := by
  rw [State.sentBefore, List.range_succ, List.filter_append, List.length_append]
  cases h : s.sentAgain n with
  | false => simp [h, State.sentBefore]
  | true => simp [h, State.sentBefore]

theorem State.sentAfter_succ {j n : Nat} (hj : j < n) :
    s.sentAfter j (n + 1) = s.sentAfter j n + (s.sentAgain n).toNat := by
  rw [State.sentAfter, List.range_succ, List.filter_append, List.length_append]
  cases h : s.sentAgain n with
  | false => simp [h, hj, State.sentAfter]
  | true => simp [h, hj, State.sentAfter]

theorem State.sentAfter_le (j n : Nat) : s.sentAfter j n ≤ n := by
  have h := List.length_filter_le (fun k => decide (j < k) && s.sentAgain k) (List.range n)
  rwa [List.length_range] at h

/-- No slot after slot `n` has its turn in the first `n + 1`. -/
theorem State.sentAfter_self (n : Nat) : s.sentAfter n (n + 1) = 0 := by
  rw [State.sentAfter, List.length_eq_zero_iff, List.filter_eq_nil_iff]
  intro k hk
  have hk := List.mem_range.1 hk
  simp only [Bool.and_eq_true, decide_eq_true_eq]
  omega

theorem State.failedBefore_succ (n : Nat) : s.failedBefore (n + 1) =
    (s.failedBefore n || ((slotAt s.outb n).overdue s.now && (slotAt s.outb n).spent)) := by
  rw [State.failedBefore, List.range_succ, List.any_append, List.any_cons, List.any_nil, Bool.or_false]
  rfl

theorem State.resent_succ (n : Nat) :
    s.resent (n + 1) = s.resent n ++ if s.sentAgain n = true then [s.resendEvent n] else [] := by
  rw [State.resent, List.range_succ, List.filter_append, List.map_append, List.filter_singleton]
  cases s.sentAgain n with
  | false => rfl
  | true => rfl

theorem lt_of_slotAt_overdue {v : Store} {i : Nat} {now : U32} (h : (slotAt v i).overdue now = true) : i < v.length :=
  lt_of_slotAt_valid ((Bool.and_eq_true _ _).mp h).1

theorem State.valid_of_sentAgain {j : Nat} (h : s.sentAgain j = true) : (slotAt s.outb j).valid = true := by
  simp only [State.sentAgain, Slot.overdue, Bool.and_eq_true] at h
  obtain ⟨⟨hvalid, -⟩, -⟩ := h
  exact hvalid

/-! ### One turn more, in closed form -/

theorem State.sentAgain_iff {j : Nat} : s.sentAgain j = true ↔
    (slotAt s.outb j).overdue s.now = true ∧ (satSucc (slotAt s.outb j).txc).toNat < 3 := by
  simp only [State.sentAgain, Slot.spent, Bool.and_eq_true, Bool.not_eq_true', decide_eq_false_iff_not, Nat.not_le]

theorem lt_succ_and_iff_of_ne {n j : Nat} (hj : j ≠ n) {p : Prop} : j < n + 1 ∧ p ↔ j < n ∧ p :=
  and_congr_left fun _ => ⟨fun h => by omega, fun h => by omega⟩

theorem ofNat_add_toNat (x : Nat) (b : Bool) : BitVec.ofNat 8 (x + b.toNat) =
    if b = true then BitVec.ofNat 8 x + 1#8 else BitVec.ofNat 8 x := by
  cases b with
  | false => rfl
  | true => exact BitVec.ofNat_add x 1

/-- Turn `n` bumps every other valid slot if it sends slot `n` again. -/
theorem State.rankAfterTurns_succ {n j : Nat} (hj : j ≠ n) : s.rankAfterTurns (n + 1) j =
    if s.sentAgain n = true ∧ (slotAt s.outb j).valid = true then s.rankAfterTurns n j + 1#8
    else s.rankAfterTurns n j := by
  unfold State.rankAfterTurns
  simp only [lt_succ_and_iff_of_ne hj, State.sentBefore_succ]
  by_cases hpast : j < n ∧ s.sentAgain j = true
  · rw [if_pos hpast, if_pos hpast, State.sentAfter_succ hpast.1, ← Nat.add_assoc, ofNat_add_toNat]
    simp only [State.valid_of_sentAgain hpast.2, and_true]
  · rw [if_neg hpast, if_neg hpast, ← Nat.add_assoc, ofNat_add_toNat]
    cases hvalid : (slotAt s.outb j).valid with
    | false => simp
    | true => simp

/-- Turn `n` leaves its own slot's rank, or makes it the newest. -/
theorem State.rankAfterTurns_succ_self (n : Nat) : s.rankAfterTurns (n + 1) n =
    if s.sentAgain n = true then 1#8 else s.rankAfterTurns n n := by
  unfold State.rankAfterTurns
  cases hn : s.sentAgain n with
  | false => simp [State.sentBefore_succ, hn]
  | true => simp [State.sentAfter_self]

theorem State.slotAfterTurns_succ {n j : Nat} (hj : j ≠ n) : s.slotAfterTurns (n + 1) j =
    { s.slotAfterTurns n j with rank := s.rankAfterTurns (n + 1) j } := by
  unfold State.slotAfterTurns
  simp only [lt_succ_and_iff_of_ne hj]

/-- Before its turn only a slot's rank may have changed. -/
theorem State.slotAfterTurns_self (n : Nat) :
    s.slotAfterTurns n n = { slotAt s.outb n with rank := s.rankAfterTurns n n } := by
  unfold State.slotAfterTurns
  simp

theorem State.slotAfterTurns_succ_self (n : Nat) : s.slotAfterTurns (n + 1) n = { slotAt s.outb n with
    rank := if s.sentAgain n = true then 1#8 else s.rankAfterTurns n n
    txc := if (slotAt s.outb n).overdue s.now = true then satSucc (slotAt s.outb n).txc else (slotAt s.outb n).txc
    tmr := if s.sentAgain n = true then Timer.started s.now s.cfg.tTxDeadline else (slotAt s.outb n).tmr } := by
  rw [State.slotAfterTurns, State.rankAfterTurns_succ_self]
  simp only [Nat.lt_succ_self, true_and]

/-- A turn that bumps nothing leaves every other slot. -/
theorem State.slotAfterTurns_succ_quiet {n j : Nat} (hj : j ≠ n) (hn : s.sentAgain n = false) :
    s.slotAfterTurns (n + 1) j = s.slotAfterTurns n j := by
  rw [State.slotAfterTurns_succ hj, State.rankAfterTurns_succ hj, hn, if_neg (by simp)]
  rfl

end

/-! ### One turn more, in the model -/

section
variable {s : State} {n : Nat} {acc : Bool × State} (h : Scanned s n acc)
include h

theorem Scanned.slot_self : slotAt acc.2.outb n = { slotAt s.outb n with rank := s.rankAfterTurns n n } :=
  (h.slots n).trans (State.slotAfterTurns_self n)

/-- Slot `n` is overdue at its turn exactly when it was at entry. -/
theorem Scanned.overdue_self : (slotAt acc.2.outb n).overdue acc.2.now = (slotAt s.outb n).overdue s.now := by
  rw [h.slot_self, h.frame]
  rfl

/-- A turn stops exactly where it would send its slot again and the bump meets rank 255. -/
theorem Scanned.turnMeetsTop_iff :
    turnMeetsTop n acc.2 = true ↔ s.sentAgain n = true ∧ BumpMeetsTop n acc.2.outb := by
  have hlate := h.overdue_self
  rw [Machine.turnMeetsTop_iff, State.sentAgain_iff, ← hlate, h.slot_self, and_assoc]
  rfl

/-- A bump for slot `n` that meets no rank 255 ages every other slot. -/
theorem Scanned.slot_aged {j : Nat} (hj : j ≠ n) (hn : s.sentAgain n = true) (hbelow : ¬ BumpMeetsTop n acc.2.outb) :
    (slotAt acc.2.outb j).aged = s.slotAfterTurns (n + 1) j := by
  rw [State.slotAfterTurns_succ hj, State.rankAfterTurns_succ hj]
  by_cases hvalid : (slotAt acc.2.outb j).valid = true
  · have hold : (slotAt s.outb j).valid = true := by rwa [h.slots j] at hvalid
    rw [Slot.aged_below hbelow hj hvalid, if_pos ⟨hn, hold⟩, h.slots j]
    rfl
  · have hold : ¬ (slotAt s.outb j).valid = true := by rwa [h.slots j] at hvalid
    rw [Slot.aged, if_neg hvalid, if_neg fun hc => hold hc.2, h.slots j]
    rfl

/-- The turn of a slot that is not overdue. -/
theorem Scanned.succ_skip (hlate : (slotAt s.outb n).overdue s.now = false) :
    Scanned s (n + 1) (timeoutTurn acc n) := by
  have hquiet : s.sentAgain n = false := by rw [State.sentAgain, hlate, Bool.false_and]
  rw [timeoutTurn_skip (h.overdue_self.trans hlate)]
  refine ⟨?_, ?_, h.length, fun j => ?_⟩
  · rw [h.failed, State.failedBefore_succ, hlate, Bool.false_and, Bool.or_false]
  · rw [State.resent_succ, hquiet, if_neg Bool.false_ne_true, List.append_nil]
    exact h.frame
  · rw [h.slots j]
    by_cases hj : j = n
    · subst hj
      rw [State.slotAfterTurns_succ_self, State.slotAfterTurns_self, hquiet, hlate]
      rfl
    · exact (State.slotAfterTurns_succ_quiet hj hquiet).symm

/-- The turn of an overdue slot whose retries are used up. -/
theorem Scanned.succ_spent (hlate : (slotAt s.outb n).overdue s.now = true) (hspent : (slotAt s.outb n).spent = true) :
    Scanned s (n + 1) (timeoutTurn acc n) := by
  have hquiet : s.sentAgain n = false := by rw [State.sentAgain, hlate, hspent]; rfl
  have hn : n < acc.2.outb.length := h.length ▸ lt_of_slotAt_overdue hlate
  have hretry : retrySlot n acc.2 = (true, countFailure n acc.2) :=
    retrySlot_spent hn (by rw [h.slot_self]; exact of_decide_eq_true hspent)
  obtain ⟨hlen, hself, hother⟩ := countFailure_changedAt hn
  rw [timeoutTurn_retry (h.overdue_self.trans hlate), hretry]
  refine ⟨?_, ?_, hlen.trans h.length, fun j => ?_⟩
  · rw [h.failed, State.failedBefore_succ, hlate, hspent, Bool.and_true]
  · rw [State.resent_succ, hquiet, if_neg Bool.false_ne_true, List.append_nil, countFailure_eq]
    conv_lhs => rw [h.frame]
  · by_cases hj : j = n
    · subst hj
      rw [hself, State.slotAfterTurns_succ_self, h.slot_self, hquiet, hlate]
      rfl
    · rw [hother j hj, h.slots j, State.slotAfterTurns_succ_quiet hj hquiet]

/-- The turn of a slot that is sent again. -/
theorem Scanned.succ_again (hagain : s.sentAgain n = true) (hbelow : ¬ BumpMeetsTop n acc.2.outb) :
    Scanned s (n + 1) (timeoutTurn acc n) := by
  obtain ⟨hlate, hleft⟩ := State.sentAgain_iff.1 hagain
  have hn : n < acc.2.outb.length := h.length ▸ lt_of_slotAt_overdue hlate
  have hvalid := State.valid_of_sentAgain hagain
  have hspent : (slotAt s.outb n).spent = false := decide_eq_false (Nat.not_le.2 hleft)
  obtain ⟨w, hretry, hlen, hself, hother⟩ := retrySlot_resent hn (by rw [h.slot_self]; exact hleft)
  rw [timeoutTurn_retry (h.overdue_self.trans hlate), hretry]
  refine ⟨?_, ?_, hlen.trans h.length, fun j => ?_⟩
  · rw [h.failed, State.failedBefore_succ, hspent, Bool.and_false]
  · rw [State.resent_succ, if_pos hagain, h.slot_self]
    conv_lhs => rw [h.frame]
    rw [List.append_assoc]
    rfl
  · by_cases hj : j = n
    · subst hj
      rw [hself, State.slotAfterTurns_succ_self, h.slot_self, hagain, hlate, h.frame]
      simp only [hvalid, if_true]
      rfl
    · rw [hother j hj, h.slot_aged hj hagain hbelow]

/-- A turn that does not stop takes the closed form one turn further. -/
theorem Scanned.succ (hbelow : turnMeetsTop n acc.2 = false) : Scanned s (n + 1) (timeoutTurn acc n) := by
  rw [← Bool.not_eq_true, h.turnMeetsTop_iff, not_and] at hbelow
  cases hagain : s.sentAgain n with
  | true => exact h.succ_again hagain (hbelow hagain)
  | false =>
    cases hlate : (slotAt s.outb n).overdue s.now with
    | false => exact h.succ_skip hlate
    | true => exact h.succ_spent hlate (by simpa [State.sentAgain, hlate] using hagain)

end

/-! ### Where a turn stops (R173) -/

/-- The first `n` turns bump no valid slot beyond rank 255. -/
def State.RanksFit (s : State) (n : Nat) : Prop :=
  ∀ j, (slotAt s.outb j).valid = true → (slotAt s.outb j).rank.toNat + s.bumpsBefore n j ≤ 255

section
variable {s : State} {n j : Nat}

theorem State.bumpsBefore_of_not_past (h : ¬ (j < n ∧ s.sentAgain j = true)) : s.bumpsBefore n j = s.sentBefore n := by
  unfold State.bumpsBefore
  split
  · rename_i hj
    rw [Nat.min_eq_right (Nat.le_of_not_lt fun hlt => h ⟨hlt, hj⟩)]
  · rfl

theorem State.bumpsBefore_of_past (h : j < n ∧ s.sentAgain j = true) : s.bumpsBefore n j = s.sentBefore j := by
  rw [State.bumpsBefore, if_pos h.2, Nat.min_eq_left (Nat.le_of_lt h.1)]

/-- Turn `n` bumps a slot if it sends slot `n` again, and neither is its own nor is ranked anew already. -/
theorem State.bumpsBefore_succ : s.bumpsBefore (n + 1) j = s.bumpsBefore n j +
    if s.sentAgain n = true ∧ j ≠ n ∧ ¬ (j < n ∧ s.sentAgain j = true) then 1 else 0 := by
  by_cases hpast : j < n ∧ s.sentAgain j = true
  · rw [State.bumpsBefore_of_past hpast, State.bumpsBefore_of_past ⟨Nat.lt_succ_of_lt hpast.1, hpast.2⟩,
      if_neg fun hc => hc.2.2 hpast, Nat.add_zero]
  · rw [State.bumpsBefore_of_not_past hpast]
    by_cases hown : j = n ∧ s.sentAgain n = true
    · obtain ⟨rfl, hagain⟩ := hown
      rw [State.bumpsBefore_of_past ⟨Nat.lt_succ_self j, hagain⟩, if_neg fun hc => hc.2.1 rfl, Nat.add_zero]
    · have hlater : ¬ (j < n + 1 ∧ s.sentAgain j = true) := fun ⟨hlt, hagain⟩ =>
        (Nat.lt_succ_iff_lt_or_eq.1 hlt).elim (fun hlt => hpast ⟨hlt, hagain⟩) fun heq => hown ⟨heq, heq ▸ hagain⟩
      rw [State.bumpsBefore_of_not_past hlater, State.sentBefore_succ]
      cases hagain : s.sentAgain n with
      | false => simp
      | true => rw [if_pos ⟨rfl, fun heq => hown ⟨heq, hagain⟩, hpast⟩]; rfl

theorem State.RanksFit.of_succ (h : s.RanksFit (n + 1)) : s.RanksFit n := fun j hvalid => by
  have hj := h j hvalid
  rw [State.bumpsBefore_succ] at hj
  omega

/-- While the ranks fit, a rank of 255 is that of a slot not yet ranked anew. -/
theorem State.rankAfterTurns_eq_top (hfit : s.RanksFit n) (hn : n ≤ 127) (hvalid : (slotAt s.outb j).valid = true) :
    s.rankAfterTurns n j = 255#8 ↔
      ¬ (j < n ∧ s.sentAgain j = true) ∧ (slotAt s.outb j).rank.toNat + s.bumpsBefore n j = 255 := by
  unfold State.rankAfterTurns
  by_cases hpast : j < n ∧ s.sentAgain j = true
  · have hle := State.sentAfter_le (s := s) j n
    rw [if_pos hpast, ← BitVec.toNat_inj, BitVec.toNat_ofNat]
    refine ⟨fun h => ?_, fun h => absurd hpast h.1⟩
    rw [Nat.mod_eq_of_lt (by omega)] at h
    simp at h
    omega
  · have hj := hfit j hvalid
    rw [State.bumpsBefore_of_not_past hpast] at hj ⊢
    rw [if_neg hpast, if_pos hvalid, ← BitVec.toNat_inj, BitVec.toNat_ofNat, Nat.mod_eq_of_lt (by omega)]
    exact ⟨fun h => ⟨hpast, h⟩, fun h => h.2⟩

/-- While the ranks fit, a turn stops exactly where they no longer do. -/
theorem Scanned.turnMeetsTop_iff_not_fit {acc : Bool × State} (h : Scanned s n acc) (hfit : s.RanksFit n)
    (hn : n ≤ 127) : turnMeetsTop n acc.2 = true ↔ ¬ s.RanksFit (n + 1) := by
  rw [h.turnMeetsTop_iff]
  constructor
  · rintro ⟨hagain, j, hj, hvalid, htop⟩ hnext
    rw [h.slots j] at hvalid htop
    obtain ⟨hpast, hsum⟩ := (State.rankAfterTurns_eq_top hfit hn hvalid).1 htop
    have hover := hnext j hvalid
    rw [State.bumpsBefore_succ, if_pos ⟨hagain, hj, hpast⟩] at hover
    omega
  · intro hnext
    obtain ⟨j, hvalid, hover⟩ : ∃ j, (slotAt s.outb j).valid = true ∧
        255 < (slotAt s.outb j).rank.toNat + s.bumpsBefore (n + 1) j := by
      simpa only [State.RanksFit, not_forall, Nat.not_le, exists_prop] using hnext
    have hbelow := hfit j hvalid
    rw [State.bumpsBefore_succ] at hover
    split at hover
    · rename_i hbump
      obtain ⟨hagain, hj, hpast⟩ := hbump
      have htop := (State.rankAfterTurns_eq_top hfit hn hvalid).2 ⟨hpast, by omega⟩
      exact ⟨hagain, j, hj, by rw [h.slots j]; exact hvalid, by rw [h.slots j]; exact htop⟩
    · omega

end

/-! ### The whole scan -/

section
variable {s : State}

theorem scanned_zero : Scanned s 0 (false, s) :=
  ⟨rfl, by simp [State.resent], rfl, fun j => by simp [State.slotAfterTurns, State.rankAfterTurns, State.sentBefore]⟩

/-- By induction on the turns: while the ranks fit, the state is the closed form. -/
theorem scanned_of_ranksFit {n : Nat} (hn : n ≤ 127) (hfit : s.RanksFit n) :
    Scanned s n ((List.range n).foldl timeoutTurn (false, s)) := by
  induction n with
  | zero => exact scanned_zero
  | succ n ih =>
    have hbefore := ih (Nat.le_of_succ_le hn) hfit.of_succ
    have hturn := hbefore.turnMeetsTop_iff_not_fit hfit.of_succ (Nat.le_of_succ_le hn)
    rw [List.range_succ, List.foldl_append]
    exact hbefore.succ (Bool.eq_false_iff.2 fun htop => hturn.1 htop hfit)

theorem State.ranksFit_zero : s.RanksFit 0 := fun j _ => by
  rw [State.bumpsBefore_of_not_past (fun h => Nat.not_lt_zero j h.1)]
  exact Nat.le_of_lt_succ (slotAt s.outb j).rank.isLt

/-- One of the first `n` turns stops exactly where they do not fit the ranks. -/
theorem turnsMeetTop_iff {n : Nat} (hn : n ≤ 127) :
    ((List.range n).any fun i => turnMeetsTop i ((List.range i).foldl timeoutTurn (false, s)).2) = true ↔
      ¬ s.RanksFit n := by
  induction n with
  | zero => exact iff_of_false Bool.false_ne_true (not_not.2 State.ranksFit_zero)
  | succ n ih =>
    have hn := Nat.le_of_succ_le hn
    rw [List.range_succ, List.any_append, Bool.or_eq_true, ih hn, List.any_cons, List.any_nil, Bool.or_false]
    by_cases hfit : s.RanksFit n
    · rw [(scanned_of_ranksFit hn hfit).turnMeetsTop_iff_not_fit hfit hn]
      exact or_iff_right (not_not.2 hfit)
    · exact iff_of_true (.inl hfit) fun hnext => hfit hnext.of_succ

/-- Over the whole scan a slot is bumped until its own turn sends it again, or by every turn that sends one again. -/
theorem State.Inv.bumpsBefore_eq (h : s.Inv) {j : Nat} (hvalid : (slotAt s.outb j).valid = true) :
    s.bumpsBefore s.cfg.nSlots j = s.sentBefore (if s.sentAgain j then j else s.cfg.nSlots) := by
  have hj : j < s.cfg.nSlots := h.outb_inv.1 ▸ lt_of_slotAt_valid hvalid
  rw [State.bumpsBefore, Nat.min_eq_left (Nat.le_of_lt hj)]

/-- The closed form after the whole scan: every turn has been made. -/
theorem State.Inv.slotAfterTurns_eq (h : s.Inv) (j : Nat) : s.slotAfterTurns s.cfg.nSlots j = { slotAt s.outb j with
    rank :=
      if s.sentAgain j then BitVec.ofNat 8 (1 + s.sentAfter j s.cfg.nSlots)
      else if (slotAt s.outb j).valid then
        BitVec.ofNat 8 ((slotAt s.outb j).rank.toNat + s.sentBefore (if s.sentAgain j then j else s.cfg.nSlots))
      else (slotAt s.outb j).rank
    txc := if (slotAt s.outb j).overdue s.now then satSucc (slotAt s.outb j).txc else (slotAt s.outb j).txc
    tmr := if s.sentAgain j then Timer.started s.now s.cfg.tTxDeadline else (slotAt s.outb j).tmr } := by
  have hlt (hlate : (slotAt s.outb j).overdue s.now = true) : j < s.cfg.nSlots := h.outb_inv.1 ▸ lt_of_slotAt_overdue hlate
  unfold State.slotAfterTurns State.rankAfterTurns
  cases hagain : s.sentAgain j with
  | true =>
    have hlate := (State.sentAgain_iff.1 hagain).1
    simp [hlt hlate, hlate]
  | false =>
    cases hlate : (slotAt s.outb j).overdue s.now with
    | true => simp [hlt hlate]
    | false => simp

end

theorem timeoutOutcome_code (failed : Bool) :
    (timeoutOutcome failed).code = if failed then 3#32 else 0#32 := by
  cases failed with
  | false => rfl
  | true => rfl

/-- Settles O57: the closed form after the last turn, and the stop where the ranks do not fit it. -/
theorem timeoutScanRetriesOverdueSlots : Obligations.TimeoutScanRetriesOverdueSlots := by
  refine ⟨rfl, fun s late spent again older h hlate hspent hagain holder => ?_⟩
  obtain rfl : late = fun j => (slotAt s.outb j).overdue s.now := funext hlate
  obtain rfl : spent = fun j => (slotAt s.outb j).spent := funext hspent
  obtain rfl : again = s.sentAgain := funext hagain
  obtain rfl : older = fun j => s.sentBefore (if s.sentAgain j then j else s.cfg.nSlots) := funext holder
  have hn := (wf_nSlots h.1).2
  have hstops : scanMeetsTop s.fresh = true ↔ ¬ s.RanksFit s.cfg.nSlots := turnsMeetTop_iff (s := s.fresh) hn
  refine ⟨fun ⟨j, hvalid, hover⟩ => ?_, fun hfit => ?_⟩
  · refine transactBump_top h.1 (hstops.2 fun hfit => ?_) _
    have hj := hfit j hvalid
    rw [h.bumpsBefore_eq hvalid] at hj
    exact Nat.not_le.2 hover hj
  · have hfit : s.RanksFit s.cfg.nSlots := fun j hvalid => by
      rw [h.bumpsBefore_eq hvalid]
      exact hfit j hvalid
    have hclear : scanMeetsTop s.fresh = false := Bool.eq_false_iff.2 fun htop => hstops.1 htop hfit
    have hscan : Scanned s.fresh s.cfg.nSlots (handleTimeouts s.fresh) := scanned_of_ranksFit (s := s.fresh) hn hfit
    refine ⟨(handleTimeouts s.fresh).2.outb, ?_, hscan.length, fun j => (hscan.slots j).trans (h.slotAfterTurns_eq j)⟩
    rw [exec, execEngHandleTimeouts, transactBump_below hclear, transact_wf h.1, hscan.failed, timeoutOutcome_code]
    conv_lhs => rw [hscan.frame]
    rfl

end Sys2Proof.Machine
end

section
/-! PROOFS. Hardware reset (R300, R301): every element takes its reset value, and the reset state has the invariant. -/

namespace Sys2Proof.Machine

/-- Both stores are `N_SLOTS` reset slots after a hardware reset. -/
theorem State.resetOf_store (c : Config) (p : List Transaction) (st : StoreSel) :
    (State.resetOf c p).store st = List.replicate c.nSlots Slot.reset := by
  cases st with
  | inb => rfl
  | outb => rfl

/-- Every slot of a store after a hardware reset is one of `N_SLOTS`, and has the reset values (R33 to R38, R301). -/
theorem State.resetOf_slots (c : Config) (p : List Transaction) (st : StoreSel) :
    ((State.resetOf c p).store st).length = c.nSlots ∧ ∀ sl ∈ (State.resetOf c p).store st,
      sl.len = 0#8 ∧ sl.rank = 0#8 ∧ sl.valid = false ∧ sl.txc = 0#8 ∧ sl.tmr = ⟨0#32, 0#32, 0#32, false⟩ := by
  rw [State.resetOf_store]
  refine ⟨List.length_replicate, fun sl hsl => ?_⟩
  obtain rfl : sl = Slot.reset := List.eq_of_mem_replicate hsl
  exact ⟨rfl, rfl, rfl, rfl, rfl⟩

/-- A hardware reset of a block that exists completes, whatever the state (R300). -/
theorem step_of_hardwareReset {s : State} {rest : List Transaction} (hw : s.cfg.wf = true)
    (hp : s.pending = .hardwareReset :: rest) : step s = .next (State.resetOf s.cfg rest) := by
  rw [step, hp]
  exact transact_wf (s := { s with pending := rest }) hw _

theorem State.resetOf_ranksDense (c : Config) (p : List Transaction) (st : StoreSel) :
    RanksDense ((State.resetOf c p).store st) := by
  rw [RanksDense, State.resetOf_store, validRanks_replicate_reset]
  exact List.Perm.nil

/-- Settles O9: the step is the reset state of the block's own configuration. -/
theorem hardwareResetGivesResetState : Obligations.HardwareResetGivesResetState := fun s rest hw hp =>
  ⟨State.resetOf s.cfg rest, step_of_hardwareReset hw hp, rfl, rfl, rfl, rfl, rfl, rfl, rfl, rfl, rfl, rfl,
    State.resetOf_slots s.cfg rest⟩

/-- Settles O10: the initial state is the reset state of `REFCFG`. -/
theorem resetStateHasResetValues : Obligations.ResetStateHasResetValues :=
  ⟨rfl, rfl, rfl, rfl, rfl, rfl, State.resetOf_slots Config.ref []⟩

/-- Settles O11: no slot is valid at reset, so either store has no ranks. -/
theorem resetSatisfiesInvariant : Obligations.ResetSatisfiesInvariant :=
  ⟨State.resetOf_inv ref_wf [], fun st =>
    ⟨State.distinct_iff.1 (State.resetOf_distinct Config.ref []) st, State.resetOf_ranksDense Config.ref [] st⟩⟩

end Sys2Proof.Machine
end

section
/-! PROOFS. The sampled time (R261): an operation that is not listed as reading it runs the same at any other time. -/

namespace Sys2Proof.Machine

/-- The same state, another time sampled. -/
def State.atTime (s : State) (n : U32) : State := { s with now := n }

/-- The body of a transaction neither reads the sampled time nor writes it. -/
def IgnoresNow (body : State → State) : Prop := ∀ (u : State) (n : U32), body (u.atTime n) = (body u).atTime n

/-! ### Updates and answers at another time -/

section
variable (s : State) (n : U32)

theorem State.okByte_atTime (o : Option Byte) : (s.atTime n).okByte o = (s.okByte o).atTime n := by
  cases o with
  | none => rfl
  | some b => rfl

theorem State.okIndex_atTime (o : Option Nat) : (s.atTime n).okIndex o = (s.okIndex o).atTime n := by
  cases o with
  | none => rfl
  | some i => rfl

theorem State.okUnit_atTime (accepted : Bool) : (s.atTime n).okUnit accepted = (s.okUnit accepted).atTime n := by
  cases accepted with
  | false => rfl
  | true => rfl

theorem State.setStore_atTime (st : StoreSel) (v : Store) : (s.atTime n).setStore st v = (s.setStore st v).atTime n := by
  cases st with
  | inb => rfl
  | outb => rfl

theorem State.mapSlot_atTime (sel : SSel) (f : Slot → Slot) : (s.atTime n).mapSlot sel f = (s.mapSlot sel f).atTime n :=
  s.setStore_atTime n sel.store _

theorem State.mapTimer_atTime (tsel : TSel) (f : Timer → Timer) :
    (s.atTime n).mapTimer tsel f = (s.mapTimer tsel f).atTime n := by
  cases tsel with
  | itmr => rfl
  | slot sel => exact s.mapSlot_atTime n sel _

theorem nakRequest_atTime : nakRequest (s.atTime n) = (nakRequest s).atTime n := by
  by_cases hlimit : 3 ≤ (satSucc s.nak.cnt).toNat
  · rw [nakRequest_limit hlimit, nakRequest_limit (s := s.atTime n) hlimit]
    rfl
  · have hbelow := Nat.lt_of_not_le hlimit
    rw [nakRequest_below hbelow, nakRequest_below (s := s.atTime n) hbelow]
    rfl

theorem resetAll_atTime : resetAll (s.atTime n) = (resetAll s).atTime n := by
  rw [resetAll_eq, resetAll_eq]
  rfl

end

/-! ### Transactions and instructions at another time -/

section
variable {s t : State} {legal : Bool} {body : State → State} {i : Instr}

theorem transact_atTime (h : transact s body = .next t) (hb : IgnoresNow body) (n : U32) :
    transact (s.atTime n) body = .next (t.atTime n) := by
  obtain ⟨hw, rfl⟩ := transact_next h
  rw [← hb]
  exact transact_wf (s := s.atTime n) hw body

theorem transactIf_atTime (h : transactIf legal s body = .next t) (hb : IgnoresNow body) (n : U32) :
    transactIf legal (s.atTime n) body = .next (t.atTime n) := by
  refine transact_atTime h (fun u n => ?_) n
  cases legal with
  | true => exact hb u n
  | false => rfl

theorem exec_atTime (hi : i.readsNow = false) (h : exec i s = .next t) (n : U32) :
    exec i (s.atTime n) = .next (t.atTime n) := by
  unfold exec at h ⊢
  cases i with
  -- the operations that only answer a value (R70)
  | rxbCount | rxbOvf | cksCompute _ | cksVerify _ | fpRead | nakRead _ => exact transact_atTime h (fun _ _ => rfl) n
  | tmrRead _ _ | msReadInfo _ _ | engRxLen _ => exact transactIf_atTime h (fun _ _ => rfl) n
  | engGetNewestRx | msGetFree _ | msGetOldest _ | msGetNewest _ =>
    exact transact_atTime h (fun u n => u.okIndex_atTime n _) n
  | rxbPeek _ => exact transact_atTime h (fun u n => u.okByte_atTime n _) n
  | engRxByte _ _ | msReadByte _ _ => exact transactIf_atTime h (fun u n => u.okByte_atTime n _) n
  -- the ring
  | rxbPush _ => exact transact_atTime h (fun u n => State.okUnit_atTime { u with rxb := _ } n _) n
  | rxbPop => exact transact_atTime h (fun u n => State.okByte_atTime { u with rxb := _ } n _) n
  | rxbClear => exact transact_atTime h (fun _ _ => rfl) n
  -- the timers and the slot stores
  | tmrStop tsel => exact transactIf_atTime h (fun u n => congrArg (State.ok · 0#32) (u.mapTimer_atTime n tsel _)) n
  | msAppend sel _ =>
    exact transactIf_atTime h (fun u n =>
      (congrArg (State.okUnit · _) (u.mapSlot_atTime n sel _)).trans (State.okUnit_atTime _ n _)) n
  | msDiscard sel | msIncTx sel =>
    exact transactIf_atTime h (fun u n => congrArg (State.ok · 0#32) (u.mapSlot_atTime n sel _)) n
  | msDelete sel =>
    exact transactIf_atTime h (fun u n => congrArg (State.ok · 0#32) (u.setStore_atTime n sel.store _)) n
  | msClearAll st => exact transact_atTime h (fun u n => congrArg (State.ok · 0#32) (u.setStore_atTime n st _)) n
  | engDeleteRx _ => exact transactIf_atTime h (fun _ _ => rfl) n
  -- the parser, the guard and the full reset
  | fpReset | nakResetCounter | nakResetState => exact transact_atTime h (fun _ _ => rfl) n
  | nakRequest => exact transact_atTime h (fun u n => congrArg (State.ok · _) (nakRequest_atTime u n)) n
  | engResetAll => exact transact_atTime h (fun u n => congrArg (State.ok · 0#32) (resetAll_atTime u n)) n
  | _ => cases hi

end

/-- Settles O17: the body of each operation R261 does not list commutes with the sampling of another time. -/
theorem otherOperationsIgnoreNow : Obligations.OtherOperationsIgnoreNow := fun _ _ _ n hi h => exec_atTime hi h n

end Sys2Proof.Machine
end

section
/-! PROOFS. Output events (R262): which operations send a burst, and at most how many. -/

namespace Sys2Proof.Machine

/-- Over what was emitted before, at most `n` bursts were sent and no other event was emitted. -/
def SendsAtMost (n : Nat) (s t : State) : Prop :=
  ∃ bursts : List (List Byte), bursts.length ≤ n ∧ t.trace = s.trace ++ bursts.map .tx

section
variable {s t u : State} {m n : Nat}

theorem sendsAtMost_zero : SendsAtMost 0 s t ↔ t.trace = s.trace := by
  simp [SendsAtMost]

theorem SendsAtMost.of_trace_eq (h : t.trace = s.trace) : SendsAtMost n s t :=
  ⟨[], Nat.zero_le n, by rw [h, List.map_nil, List.append_nil]⟩

theorem SendsAtMost.of_burst {l : List Byte} (h : t.trace = s.trace ++ [.tx l]) : SendsAtMost 1 s t := ⟨[l], le_rfl, h⟩

theorem SendsAtMost.trans (h : SendsAtMost m s t) (h' : SendsAtMost n t u) : SendsAtMost (m + n) s u := by
  obtain ⟨bursts, hlen, htrace⟩ := h
  obtain ⟨bursts', hlen', htrace'⟩ := h'
  refine ⟨bursts ++ bursts', by rw [List.length_append]; omega, ?_⟩
  rw [htrace', htrace, List.map_append, List.append_assoc]

/-- What leaves the trace as it is before or after a burst sends nothing more. -/
theorem SendsAtMost.congr {s' t' : State} (h : SendsAtMost n s t) (hs : s.trace = s'.trace) (ht : t'.trace = t.trace) :
    SendsAtMost n s' t' := by
  rwa [SendsAtMost, ht, ← hs]

theorem ResponseFrame.trace_eq (h : ResponseFrame s t) : t.trace = s.trace := by
  rw [h]

theorem ParserFrame.trace_eq (h : ParserFrame s t) : t.trace = s.trace := by
  rw [h]

end

/-! ### The guard and the engine -/

section
variable (s : State)

theorem nakRequest_sends : SendsAtMost 1 s (nakRequest s) := by
  unfold nakRequest
  split
  · exact .of_trace_eq rfl
  · exact .of_burst rfl

theorem retrySlot_sends (i : Nat) : SendsAtMost 1 s (retrySlot i s).2 := by
  unfold retrySlot
  split
  · exact .of_trace_eq rfl
  · exact .of_burst rfl

theorem confirmOldest_trace : (confirmOldest s).trace = s.trace := by
  unfold confirmOldest
  split
  · rfl
  · rfl

theorem retryOldest_sends : SendsAtMost 1 s (retryOldest s).2 := by
  unfold retryOldest
  split
  · exact .of_trace_eq rfl
  · exact retrySlot_sends s _

theorem engDispatch_sends (d : Nat) : SendsAtMost 1 s (engDispatch d s).2 := by
  unfold engDispatch
  split
  · exact .of_trace_eq (confirmOldest_trace (freeInbound d s))
  · split
    · exact retryOldest_sends (freeInbound d s)
    · exact .of_burst rfl

theorem engAfterParse_sends (d : Nat) (r : ParserOutcome) : SendsAtMost 1 s (engAfterParse d r s).2 := by
  cases r with
  | tooFew | byteDropped | timeout => exact .of_trace_eq rfl
  | reqNak => exact nakRequest_sends s
  | ok => exact engDispatch_sends (nakResetCounter s) d

theorem engParse_sends : SendsAtMost 1 s (engParse s).2 := by
  unfold engParse
  split
  · exact .of_trace_eq rfl
  · rename_i d _
    exact (engAfterParse_sends _ d _).congr (fpParse_frame_eq d s).trace_eq rfl

theorem engTransmit_sends (cmd : Byte) (data : List Byte) : SendsAtMost 1 s (engTransmit cmd data s).2 := by
  unfold engTransmit
  split
  · exact .of_trace_eq rfl
  · split
    · split
      · exact .of_trace_eq rfl
      · unfold engSend
        dsimp only
        split
        · exact .of_burst rfl
        · exact .of_burst rfl
    · exact .of_trace_eq rfl

theorem timeoutTurn_sends (acc : Bool × State) (i : Nat) : SendsAtMost 1 acc.2 (timeoutTurn acc i).2 := by
  unfold timeoutTurn
  split
  · exact retrySlot_sends acc.2 i
  · exact .of_trace_eq rfl

theorem foldl_timeoutTurn_sends (is : List Nat) (acc : Bool × State) :
    SendsAtMost is.length acc.2 (is.foldl timeoutTurn acc).2 := by
  induction is generalizing acc with
  | nil => exact .of_trace_eq rfl
  | cons i is ih =>
    rw [List.length_cons, Nat.add_comm]
    exact (timeoutTurn_sends acc i).trans (ih (timeoutTurn acc i))

theorem handleTimeouts_sends : SendsAtMost s.cfg.nSlots s (handleTimeouts s).2 := by
  have h := foldl_timeoutTurn_sends (List.range s.cfg.nSlots) (false, s)
  rwa [List.length_range] at h

end

/-! ### Transactions and instructions -/

/-- How many bursts the operation can send in a block built with `cfg` (R262); `ENG_RESET_ALL` sends none, its two
events are no bursts. -/
def burstLimit (cfg : Config) : Instr → Nat
  | .engHandleTimeouts => cfg.nSlots
  | .nakRequest | .engParse | .engTransmit _ _ => 1
  | _ => 0

section
variable {s t : State} {legal : Bool} {top : State → Bool} {body : State → State} {n : Nat} {i : Instr}

theorem transact_sends (h : transact s body = .next t) (hb : SendsAtMost n s.fresh (body s.fresh)) :
    SendsAtMost n s.fresh t := by
  obtain ⟨-, rfl⟩ := transact_next h
  exact hb

theorem transactBump_sends (h : transactBump top s body = .next t) (hb : SendsAtMost n s.fresh (body s.fresh)) :
    SendsAtMost n s.fresh t := by
  obtain ⟨-, -, rfl⟩ := transactBump_next h
  exact hb

theorem transact_silent (h : transact s body = .next t) (hb : ∀ u, (body u).trace = u.trace) :
    SendsAtMost n s.fresh t := transact_sends h (.of_trace_eq (hb s.fresh))

theorem transactIf_silent (h : transactIf legal s body = .next t) (hb : ∀ u, (body u).trace = u.trace) :
    SendsAtMost n s.fresh t := by
  obtain ⟨-, ⟨-, rfl⟩ | ⟨-, rfl⟩⟩ := transactIf_next h
  · exact .of_trace_eq (hb s.fresh)
  · exact .of_trace_eq rfl

theorem transactBumpIf_silent (h : transactBumpIf legal top s body = .next t) (hb : ∀ u, (body u).trace = u.trace) :
    SendsAtMost n s.fresh t := by
  obtain ⟨-, ⟨-, -, rfl⟩ | ⟨-, rfl⟩⟩ := transactBumpIf_next h
  · exact .of_trace_eq (hb s.fresh)
  · exact .of_trace_eq rfl

theorem State.mapSlot_trace (s : State) (sel : SSel) (f : Slot → Slot) : (s.mapSlot sel f).trace = s.trace :=
  s.setStore_trace _ _

theorem State.mapTimer_trace (s : State) (tsel : TSel) (f : Timer → Timer) : (s.mapTimer tsel f).trace = s.trace := by
  cases tsel with
  | itmr => rfl
  | slot sel => exact s.mapSlot_trace sel _

theorem rxRestart_trace (s : State) : (rxRestart s).trace = s.trace := by
  unfold rxRestart
  split
  · rfl
  · rfl

/-- Every instruction but the full reset sends within its limit and emits nothing else. -/
theorem exec_sends (hi : i ≠ .engResetAll) (h : exec i s = .next t) :
    SendsAtMost (burstLimit s.cfg i) s.fresh t := by
  cases hread : i.readOnly with
  | true => exact .of_trace_eq (exec_read_frame hread h).trace_eq
  | false =>
    unfold exec at h
    cases i with
    -- the ring
    | rxbPush _ => exact transact_silent h fun _ => State.okUnit_trace _ _
    | rxbPop => exact transact_silent h fun _ => State.okByte_trace _ _
    | rxByte _ => exact transact_silent h rxRestart_trace
    -- the timers and the slot stores
    | tmrStart tsel _ | tmrStop tsel | tmrRestart tsel => exact transactIf_silent h fun u => u.mapTimer_trace tsel _
    | msAppend sel _ => exact transactIf_silent h fun u => (State.okUnit_trace _ _).trans (u.mapSlot_trace sel _)
    | msDiscard sel | msIncTx sel | msResetDeadline sel => exact transactIf_silent h fun u => u.mapSlot_trace sel _
    | msValidate _ _ | msMarkRetx _ _ => exact transactBumpIf_silent h fun u => u.setStore_trace _ _
    | msDelete _ => exact transactIf_silent h fun u => u.setStore_trace _ _
    | msClearAll _ => exact transact_silent h fun u => u.setStore_trace _ _
    | engDeleteRx _ => exact transactIf_silent h fun _ => rfl
    -- the parser and the guard
    | fpParse d => exact transactBumpIf_silent h fun u => (fpParse_frame_eq d.toNat u).trace_eq
    | nakRequest => exact transact_sends h (nakRequest_sends s.fresh)
    | rxbClear | fpReset | nakResetCounter | nakResetState => exact transact_silent h fun _ => rfl
    -- the engine
    | engParse => exact transactBump_sends h (engParse_sends s.fresh)
    | engTransmit cmd data =>
      exact transactBump_sends h ((engTransmit_sends s.fresh cmd data).congr rfl (State.okUnit_trace _ _))
    | engHandleTimeouts => exact transactBump_sends h (handleTimeouts_sends s.fresh)
    | engResetAll => exact absurd rfl hi
    | _ => cases hread

/-- The full reset's two events (R252). -/
theorem exec_engResetAll_trace (h : exec .engResetAll s = .next t) : t.trace = [.rxStop, .rxStart] := by
  unfold exec at h
  obtain ⟨-, rfl⟩ := transact_next h
  rw [State.ok_trace, resetAll_eq]
  rfl

theorem SendsAtMost.fresh_one (h : SendsAtMost 1 s.fresh t) : t.trace = [] ∨ ∃ bytes, t.trace = [.tx bytes] := by
  obtain ⟨bursts, hlen, htrace⟩ := h
  cases bursts with
  | nil => exact .inl htrace
  | cons b bursts =>
    obtain rfl : bursts = [] := List.eq_nil_of_length_eq_zero (Nat.le_zero.1 (Nat.le_of_succ_le_succ hlen))
    exact .inr ⟨b, htrace⟩

theorem SendsAtMost.fresh_bursts (h : SendsAtMost n s.fresh t) :
    t.trace.length ≤ n ∧ ∀ e ∈ t.trace, ∃ bytes, e = .tx bytes := by
  obtain ⟨bursts, hlen, htrace⟩ := h
  rw [htrace, State.fresh_trace, List.nil_append, List.length_map]
  refine ⟨hlen, fun e he => ?_⟩
  obtain ⟨b, -, rfl⟩ := List.mem_map.1 he
  exact ⟨b, rfl⟩

end

theorem burstLimit_eq_zero {i : Instr} (cfg : Config) (htimeouts : i ≠ .engHandleTimeouts)
    (hnak : i ≠ .nakRequest) (hparse : i ≠ .engParse) (hsend : ∀ cmd data, i ≠ .engTransmit cmd data) :
    burstLimit cfg i = 0 := by
  cases i with
  | engHandleTimeouts => exact absurd rfl htimeouts
  | nakRequest => exact absurd rfl hnak
  | engParse => exact absurd rfl hparse
  | engTransmit cmd data => exact absurd rfl (hsend cmd data)
  | _ => rfl

/-- Settles O18: the full reset's two events, and each other operation's limit of bursts. -/
theorem outputEventsOnlyWhereListed : Obligations.OutputEventsOnlyWhereListed := by
  refine fun i s t h => ⟨?_, ?_, ?_, fun hreset htimeouts hnak hparse hsend => ?_⟩
  · rintro rfl
    exact exec_engResetAll_trace h
  · rintro rfl
    exact (exec_sends (i := .engHandleTimeouts) nofun h).fresh_bursts
  · rintro (rfl | rfl | ⟨cmd, data, rfl⟩)
    · exact (exec_sends (i := .nakRequest) nofun h).fresh_one
    · exact (exec_sends (i := .engParse) nofun h).fresh_one
    · exact (exec_sends (i := .engTransmit cmd data) nofun h).fresh_one
  · have hsends := exec_sends hreset h
    rw [burstLimit_eq_zero s.cfg htimeouts hnak hparse hsend] at hsends
    exact sendsAtMost_zero.1 hsends

end Sys2Proof.Machine
end

section
/-! PROOFS. When ENG_PARSE answers E_CRITICAL (R280): what an accepted frame says of the ring, and each cause by the
part of the engine that raises it. -/

namespace Sys2Proof.Machine

/-! ### The parser does not see the outputs of the transaction before -/

section
variable (s : State) (d : Nat)

theorem fpArm_fresh : fpArm s.fresh = (fpArm s).fresh := by
  rw [fpArm, fpArm, apply_ite State.fresh]
  rfl

theorem fpTake_fresh_fst (full : Nat) : (fpTake d full s.fresh).1 = (fpTake d full s).1 := by
  simp only [fpTake, apply_ite Prod.fst]
  rfl

theorem fpFrame_fresh_fst : (fpFrame d s.fresh).1 = (fpFrame d s).1 := by
  simp only [fpFrame, apply_ite Prod.fst]
  exact congrArg (fun r => ite _ (ite _ _ r) _) (fpTake_fresh_fst s d _)

theorem fpPending_fresh_fst : (fpPending d s.fresh).1 = (fpPending d s).1 := by
  simp only [fpPending, apply_ite Prod.fst]
  exact congrArg (fun r => ite _ _ (ite _ _ r)) (fpFrame_fresh_fst s d)

theorem fpParse_fresh_fst : (fpParse d s.fresh).1 = (fpParse d s).1 := by
  simp only [fpParse, apply_ite Prod.fst]
  rw [fpArm_fresh, fpPending_fresh_fst]
  rfl

end

/-! ### An accepted frame stands at the front of the ring (R193 to R200) -/

section
variable {s : State} {d : Nat}

/-- A legal frame is at the front of the ring. -/
def FrameAtFront (s : State) : Prop := ∃ f rest, LegalFrame s.cfg f ∧ s.q = f ++ rest

theorem fpDrop_ne_ok (s : State) : (fpDrop s).1 ≠ .ok := latchOnDrop_ne_ok _

/-- Step 7 accepts only a frame that folds to zero. -/
theorem fpTake_ok {full : Nat} (h : s.Inv) (hfits : FrameFits full s) (hok : (fpTake d full s).1 = .ok) :
    xorFold (s.q.take full) = 0#8 := by
  obtain ⟨hfit, hlen⟩ := hfits
  obtain ⟨-, -, -, -, -, -, hgood⟩ := fpCopy_spec (Store.slotAt_inv h.inb_inv d) h.slotCap_le hfit hlen
  unfold fpTake at hok
  split at hok
  · rename_i hcopied
    exact hgood.1 hcopied
  · exact absurd hok (fpDrop_ne_ok _)

theorem fpFrame_ok (h : s.Inv) (h4 : 4 ≤ s.q.length) (hok : (fpFrame d s).1 = .ok) : FrameAtFront s := by
  obtain ⟨m, c, l, rest, hq⟩ : ∃ m c l rest, s.q = m :: c :: l :: rest := by
    match hq : s.q, h4 with
    | m :: c :: l :: rest, _ => exact ⟨m, c, l, rest, rfl⟩
  by_cases hheader : m = magicRx ∧ WlAdmits s.cfg.wlRx c l.toNat
  · rw [fpFrame_good d hq hheader] at hok
    obtain ⟨rfl, hadmits⟩ := hheader
    split at hok
    · cases hok
    · rename_i hshort
      have hlen : l.toNat + 4 ≤ s.q.length := Nat.le_of_not_lt hshort
      have hfold := fpTake_ok h ⟨(admitted_fits h.1 (.inl hadmits)).2, hlen⟩ hok
      have htake : s.q.take (l.toNat + 4) = magicRx :: c :: l :: rest.take (l.toNat + 1) := by rw [hq]; rfl
      have htail : (rest.take (l.toNat + 1)).length = l.toNat + 1 := by
        rw [hq] at hlen
        exact List.length_take_of_le (by simpa using hlen)
      exact ⟨s.q.take (l.toNat + 4), s.q.drop (l.toNat + 4), ⟨c, l, _, htake, htail, hadmits, hfold⟩,
        (List.take_append_drop _ _).symm⟩
  · rw [fpFrame_bad d hq hheader] at hok
    exact absurd hok (fpDrop_ne_ok s)

/-- The parser accepts only with no overflow, its window still open and a legal frame at the front. -/
theorem fpParse_ok (h : s.Inv) (hok : (fpParse d s).1 = .ok) :
    s.rxb.ovf = false ∧ s.armedItmr.timedOut s.now = false ∧ FrameAtFront s := by
  have hdiscards : (if s.fp.fail then ParserOutcome.timeout else .reqNak) ≠ .ok := by split <;> decide
  cases ho : s.rxb.ovf with
  | true =>
    rw [fpParse_overflow d ho] at hok
    exact absurd hok hdiscards
  | false =>
    by_cases hq : s.q = []
    · rw [fpParse_empty d ho hq] at hok
      cases hok
    · cases ht : s.armedItmr.timedOut s.now with
      | true =>
        rw [fpParse_expired d ho hq ht] at hok
        exact absurd hok hdiscards
      | false =>
        by_cases h4 : s.q.length < 4
        · rw [fpParse_short d ho hq ht h4] at hok
          cases hok
        · have h4 := Nat.le_of_not_lt h4
          rw [fpParse_frame d ho ht h4] at hok
          obtain ⟨f, rest, hlegal, hfront⟩ := fpFrame_ok (fpArm_inv h) (by rwa [fpArm_q]) hok
          rw [fpArm_cfg] at hlegal
          rw [fpArm_q] at hfront
          exact ⟨rfl, rfl, f, rest, hlegal, hfront⟩

/-- The parser that accepts takes a frame whose command is the ring's byte 1. -/
theorem fpParse_ok_takes (h : s.Inv) (hd : d < s.inb.length) (hok : (fpParse d s.fresh).1 = .ok) :
    ∃ r v c, fpParse d s.fresh = (.ok, s.accepting r v) ∧ s.q[1]? = some c ∧
      (slotAt (s.accepting r v).inb d).buf.read 1 = c := by
  obtain ⟨ho, ht, f, rest, hlegal, hq⟩ := fpParse_ok (s := s.fresh) h hok
  obtain ⟨r, v, sl, htakes⟩ := exists_takesFrame h hd ho ht hlegal hq
  obtain ⟨c, l, tail, rfl, -⟩ := hlegal
  exact ⟨r, v, c, htakes.parse, by rw [← State.fresh_q, hq]; rfl, htakes.command rfl⟩

/-! ### The causes, part by part -/

/-- The limits of R220 and R244 before the increment. -/
theorem three_le_satSucc_iff {v : BitVec 8} : 3 ≤ (satSucc v).toNat ↔ 2 ≤ v.toNat := by
  rw [toNat_satSucc]
  omega

/-- "Too many" is set after a request when it was before, or when the request is the third or a later one. -/
theorem nakRequest_many_iff (s : State) :
    (nakRequest s).nak.many = true ↔ s.nak.many = true ∨ 2 ≤ s.nak.cnt.toNat := by
  rw [← three_le_satSucc_iff]
  by_cases hlimit : 3 ≤ (satSucc s.nak.cnt).toNat
  · rw [nakRequest_limit hlimit]
    exact iff_of_true rfl (.inr hlimit)
  · rw [nakRequest_below (Nat.lt_of_not_le hlimit), or_iff_left hlimit]

/-- A retry of the oldest outbound slot fails for good at its third failure or a later one. -/
theorem retryOldest_critical_iff (s : State) :
    (retryOldest s).1 = .critical ↔ ∃ o, IsOldest s.outb o ∧ 2 ≤ (slotAt s.outb o).txc.toNat := by
  obtain ⟨e, w, tr, hretry, hnone, hretried⟩ := retryOldest_spec s
  rw [hretry]
  refine ⟨fun hcritical => ?_, fun ⟨o, hold, hspent⟩ => ((hretried o hold).1 (three_le_satSucc_iff.2 hspent)).1⟩
  cases hget : msGetOldest s.outb with
  | none =>
    obtain ⟨-, he, -⟩ := hnone (msGetOldest_none.1 hget)
    rw [he] at hcritical
    cases hcritical
  | some o =>
    have hold := msGetOldest_some.1 hget
    refine ⟨o, hold, three_le_satSucc_iff.1 (Nat.le_of_not_lt fun hbelow => ?_)⟩
    obtain ⟨he, -⟩ := (hretried o hold).2 hbelow
    rw [he] at hcritical
    cases hcritical

/-- On an accepted frame the engine is critical exactly where it is a negative acknowledgement and the retry fails. -/
theorem engAfterParse_ok_critical_iff {t : State} {c : Byte} (hne : t.cfg.cmdNak ≠ cmdAck)
    (hcmd : (slotAt t.inb d).buf.read 1 = c) : (engAfterParse d .ok t).1 = .critical ↔
      c = t.cfg.cmdNak ∧ ∃ o, IsOldest t.outb o ∧ 2 ≤ (slotAt t.outb o).txc.toNat := by
  subst hcmd
  by_cases hnak : (slotAt t.inb d).buf.read 1 = t.cfg.cmdNak
  · rw [engAfterParse_nak hnak hne, retryOldest_critical_iff, and_iff_right hnak]
    rfl
  · refine iff_of_false (fun hcritical => ?_) fun hcause => hnak hcause.1
    by_cases hack : (slotAt t.inb d).buf.read 1 = cmdAck
    · rw [engAfterParse_ack hack] at hcritical
      cases hcritical
    · rw [engAfterParse_other hack hnak] at hcritical
      cases hcritical

theorem fpParse_nak (d : Nat) (s : State) : (fpParse d s).2.nak = s.nak := by
  rw [fpParse_frame_eq d s]

/-- The second and third cause of R280, the parser's outcome being that on inbound slot `d`. -/
def ParserCause (s : State) (d : Nat) : Prop :=
  ((fpParse d s).1 = .reqNak ∧ (s.nak.many = true ∨ 2 ≤ s.nak.cnt.toNat)) ∨
    ((fpParse d s).1 = .ok ∧ s.q[1]? = some s.cfg.cmdNak ∧
      ∃ o, IsOldest s.outb o ∧ 2 ≤ (slotAt s.outb o).txc.toNat)

theorem engAfterParse_critical_iff {r : ParserOutcome} {t : State} (h : s.Inv) (hd : d < s.inb.length)
    (hparse : fpParse d s.fresh = (r, t)) : (engAfterParse d r t).1 = .critical ↔ ParserCause s d := by
  have hout : (fpParse d s).1 = r := by rw [← fpParse_fresh_fst, hparse]
  rw [ParserCause, hout]
  cases r with
  | tooFew | byteDropped | timeout => exact iff_of_false (by simp [engAfterParse]) (by simp)
  | reqNak =>
    have hguard : t.nak = s.nak := by
      have hkeeps := fpParse_nak d s.fresh
      rw [hparse] at hkeeps
      exact hkeeps
    rw [← hguard, ← nakRequest_many_iff t]
    simp [engAfterParse]
  | ok =>
    obtain ⟨ring, v, c, htakes, hq, hcmd⟩ := fpParse_ok_takes h hd (by rw [hparse])
    obtain rfl : t = s.accepting ring v := congrArg Prod.snd (hparse.symm.trans htakes)
    rw [engAfterParse_ok_critical_iff (t := s.accepting ring v) (wf_cmdNak h.1) hcmd, hq, Option.some_inj]
    simp only [reduceCtorEq, false_and, true_and, false_or]
    rfl

theorem engParse_critical_iff (h : s.Inv) : (engParse s.fresh).1 = .critical ↔
    (∀ sl ∈ s.inb, sl.valid = true) ∨ ∃ d, IsFirstFree s.inb d ∧ ParserCause s d := by
  cases hget : msGetFree s.inb with
  | none =>
    have hcritical : engParse s.fresh = (.critical, s.fresh) := by simp only [engParse, State.fresh_inb, hget]
    exact iff_of_true (by rw [hcritical]) (.inl (msGetFree_none.1 hget))
  | some d =>
    have hfree := msGetFree_some.1 hget
    have hroom : ¬ ∀ sl ∈ s.inb, sl.valid = true := fun hfull => by
      rw [msGetFree_none.2 hfull] at hget
      cases hget
    have hparse : fpParse d s.fresh = ((fpParse d s.fresh).1, (fpParse d s.fresh).2) := rfl
    rw [engParse_of_firstFree (s := s.fresh) hfree hparse, engAfterParse_critical_iff h hfree.1 hparse, or_iff_right hroom]
    refine ⟨fun hcause => ⟨d, hfree, hcause⟩, fun ⟨e, he, hcause⟩ => ?_⟩
    obtain rfl := hfree.unique he
    exact hcause

theorem EngineOutcome.code_eq_critical {e : EngineOutcome} : okRsp e.code = okRsp 3#32 ↔ e = .critical := by
  cases e <;> decide

end

/-- Settles O58: the response tells the engine's outcome, and each cause is that of the guard, the retry or the full
store. -/
theorem parseIsCriticalExactlyWhenListed : Obligations.ParseIsCriticalExactlyWhenListed := by
  intro s t h he
  obtain ⟨-, -, rfl⟩ := transactBump_next (by rwa [exec, execEngParse] at he)
  exact EngineOutcome.code_eq_critical.trans (engParse_critical_iff h)

end Sys2Proof.Machine
end
